-- ==== Sys2Proof/Word.lean ====
section
/-!
DEFINITION. Word.lean: the bit patterns the spec names (R9, R90): bit 0 is the least significant bit, and every
operand value is a 64-bit unsigned pattern. Signed bank cells are mathematical integers (R10, R11) and are not words.
-/

namespace Sys2Proof

/-- One DRAM byte (R62). -/
abbrev Byte := BitVec 8

/-- One operand value, `rs1` or `rs2` (R20, R90); also a DRAM byte address (R60). -/
abbrev Word := BitVec 64

/-- A 32-bit pattern: a binary32 scale factor (R204), a shift field, the address part of an address operand (R120). -/
abbrev Half := BitVec 32

/-- The 135-bit command word `funct`, `rs1`, `rs2` side by side, `funct` in bits 134:128 (R90). -/
abbrev CommandWord := BitVec 135

end Sys2Proof
end

