-- ==== Sys2Proof/Config.lean ====
section
/-!
DEFINITION. Config.lean: what an implementation fixes (R7, D2) and what the platform fixes (R65, D30), as one record
of plain data. "The model takes them as arguments" (R7): every rule is written for any legal values, so the record is
carried in `State.params`, which no command writes (assumption log 1).
-/

namespace Sys2Proof

/-- The implementation parameters of R7 and the platform parameter `DramAdmit` of R65. -/
structure Params where
  /-- `DIM`: rows and columns of the PE array, elements per bank row. -/
  dim : Nat
  /-- `ELEM_BITS`: width of a narrow signed element. -/
  elemBits : Nat
  /-- `ACC_BITS`: width of a wide signed accumulator word. -/
  accBits : Nat
  /-- `SP_BANKS`: number of scratchpad banks. -/
  spBanks : Nat
  /-- `SP_BANK_ROWS`: rows per scratchpad bank. -/
  spBankRows : Nat
  /-- `ACC_ROWS`: rows of the accumulator. -/
  accRows : Nat
  /-- `DramAdmit` as plain data: the ranges (first, last) of DRAM byte addresses the platform refuses.
  The empty list is the spec's default "always true" (R65, D30). -/
  dramRefused : List (Nat × Nat)
  deriving DecidableEq, Repr

namespace Params

/-- The default values of R7, with `DramAdmit` always true (R65). -/
def standard : Params where
  dim := 16
  elemBits := 8
  accBits := 32
  spBanks := 4
  spBankRows := 4096
  accRows := 1024
  dramRefused := []

/-- `SP_ROWS = SP_BANKS * SP_BANK_ROWS` (R7). -/
def spRows (p : Params) : Nat := p.spBanks * p.spBankRows

/-- `ELEM_BYTES = ELEM_BITS / 8` (R7). -/
def elemBytes (p : Params) : Nat := p.elemBits / 8

/-- `ACC_BYTES = ACC_BITS / 8` (R7). -/
def accBytes (p : Params) : Nat := p.accBits / 8

/-- The constraints of the table of R7. -/
def legal (p : Params) : Bool :=
  decide (1 ≤ p.dim ∧ p.dim ≤ 65535) &&
  decide (p.elemBits % 8 = 0 ∧ 8 ≤ p.elemBits) &&
  decide (p.accBits % 8 = 0 ∧ p.elemBits < p.accBits) &&
  decide (1 ≤ p.spBanks ∧ 1 ≤ p.spBankRows ∧ p.spBanks * p.spBankRows ≤ 536870912) &&
  decide (1 ≤ p.accRows ∧ p.accRows ≤ 536870912)

end Params

namespace Config

/-- What a DRAM byte that nothing has written reads as (assumption log 3). DESIGN CHOICE: DRAM belongs to the host and
the spec gives it no content (R45); its vectors take 0 for a byte they do not list. -/
def unwrittenByte : Byte := 0

end Config
end Sys2Proof
end

