-- ==== Sys2Proof/Syntax.lean ====
section
/-!
DEFINITION. Syntax.lean: commands and their operand fields. `Command` is what the dispatcher hands over (R90); `Instr`
has one constructor per row of the opcode table, with the operand fields of R104 as its arguments. Reserved operand bits
and ignored operands carry no field (R96, R280, R281). Reserved VALUES of a defined field are kept (R99): the command
that carries one decodes, and raises its error when it executes.
-/

namespace Sys2Proof

/-- A command: the triple (funct, rs1, rs2) the dispatcher hands to the block (R6, R90). -/
structure Command where
  funct : BitVec 7
  rs1 : Word
  rs2 : Word
  deriving DecidableEq, Repr

/-- The six fields of an address operand (R120). -/
structure AddrOperand where
  /-- bits 63:48, declared row count -/
  rows : BitVec 16
  /-- bits 47:32, declared column count -/
  cols : BitVec 16
  /-- bit 31, accumulator select -/
  isAcc : Bool
  /-- bit 30, accumulate on write -/
  accumulate : Bool
  /-- bit 29, full-precision read -/
  full : Bool
  /-- bits 28:0, base row index -/
  row : BitVec 29
  deriving DecidableEq, Repr

/-- The dataflow mode of the compute engine: output-stationary or weight-stationary (R27). -/
inductive Dataflow where
  | os
  | ws
  deriving DecidableEq, Repr

/-- The operand fields of `CONFIG_EX` (R220). `act` keeps all four codes: code 3 is rejected by the command. -/
structure ExConfig where
  dataflow : Dataflow
  act : BitVec 2
  aTranspose : Bool
  bTranspose : Bool
  aStride : BitVec 16
  accShift : Half
  sysShift : Half
  relu6Shift : Half
  deriving DecidableEq, Repr

/-- The operand fields of `CONFIG_LD` (R223). `stateId` keeps all four values: 3 is rejected by the command. -/
structure LdConfig where
  shrunk : Bool
  stateId : BitVec 2
  scale : Half
  stride : Word
  deriving DecidableEq, Repr

/-- The nine pooling fields (R40). -/
structure Pooling where
  /-- 0 means pooling is off -/
  stride : BitVec 2
  size : BitVec 2
  upad : BitVec 2
  lpad : BitVec 2
  outDim : BitVec 8
  porows : BitVec 8
  pocols : BitVec 8
  orows : BitVec 8
  ocols : BitVec 8
  deriving DecidableEq, Repr

/-- The operand fields of `CONFIG_ST` (R225). `act` keeps all four codes: code 3 is rejected by the command. -/
structure StConfig where
  act : BitVec 2
  pool : Pooling
  stride : Half
  scale : Half
  deriving DecidableEq, Repr

/-- The operand fields of `LOOP_WS_CONFIG_BOUNDS` (R251). -/
structure LoopBounds where
  padI : BitVec 16
  padJ : BitVec 16
  padK : BitVec 16
  tilesI : BitVec 16
  tilesJ : BitVec 16
  tilesK : BitVec 16
  deriving DecidableEq, Repr

/-- The operand fields of `LOOP_WS` (R257). -/
structure LoopFlags where
  /-- rs1[0]: accumulate even on the first k-iteration -/
  exAccumulate : Bool
  /-- rs1[1]: move C out at full precision -/
  fullC : Bool
  /-- rs1[2]: an entry of D occupies ELEM_BYTES in DRAM -/
  lowD : Bool
  deriving DecidableEq, Repr

/-- The 18 commands of layout version L1, in the order of the opcode table (R91). -/
inductive Instr where
  | configEx (w : ExConfig)
  | configLd (w : LdConfig)
  | configSt (w : StConfig)
  | mvin2 (addr : Word) (target : AddrOperand)
  | mvin (addr : Word) (target : AddrOperand)
  | mvout (addr : Word) (source : AddrOperand)
  | computePreloaded (a bd : AddrOperand)
  | computeAccumulated (a bd : AddrOperand)
  | preload (src dst : AddrOperand)
  | flush
  | loopWs (flags : LoopFlags)
  | loopWsConfigBounds (b : LoopBounds)
  | loopWsConfigAddrsAb (a b : Word)
  | loopWsConfigAddrsDc (d c : Word)
  | loopWsConfigStridesAb (a b : Word)
  | loopWsConfigStridesDc (d c : Word)
  | mvin3 (addr : Word) (target : AddrOperand)
  | fence
  deriving DecidableEq, Repr

end Sys2Proof
end

