-- ==== Sys2Proof/Machine/Operands.lean ====
section
/-!
DEFINITION. Machine/Operands.lean: every use of an address operand that needs no state: the null test, the address
part, the count limits, and the operand constructors the sequencer uses (R103, R120 to R126). Reading an operand's
cells from a bank stands in Machine/ComputeEngine.lean.
-/

namespace Sys2Proof

/-- The address part of the null address, all ones (R123). -/
def nullAddr32 : Half := 0xFFFFFFFF

/-- `addr32`: bits 31:0 of the operand (R120, R121). -/
def AddrOperand.addr32 (o : AddrOperand) : Half :=
  (BitVec.ofBool o.isAcc ++ BitVec.ofBool o.accumulate ++ BitVec.ofBool o.full ++ o.row : BitVec (1 + 1 + 1 + 29))

/-- `is_null`: the address part is all ones, whatever the count part holds (R121, R123). -/
def AddrOperand.isNull (o : AddrOperand) : Bool := o.addr32 == nullAddr32

/-- The base row as a mathematical integer: rows are never reduced modulo a bank's size (R127). -/
def AddrOperand.base (o : AddrOperand) : Nat := o.row.toNat

/-- The declared row count. -/
def AddrOperand.nrows (o : AddrOperand) : Nat := o.rows.toNat

/-- The declared column count. -/
def AddrOperand.ncols (o : AddrOperand) : Nat := o.cols.toNat

/-- A non-null operand that selects the accumulator: refused as a preload source and as a compute operand
(R126, R171, R172). -/
def AddrOperand.inAccumulator (o : AddrOperand) : Bool := !o.isNull && o.isAcc

/-- A non-null operand of which a count exceeds DIM; the counts of a null operand are not checked (R123, R126). -/
def AddrOperand.overCounts (p : Params) (o : AddrOperand) : Bool :=
  !o.isNull && (decide (p.dim < o.nrows) || decide (p.dim < o.ncols))

/-- The constructor `SPAD(row, rows, cols)` of R103. -/
def AddrOperand.spad (row rows cols : Nat) : AddrOperand where
  rows := BitVec.ofNat 16 rows
  cols := BitVec.ofNat 16 cols
  isAcc := false
  accumulate := false
  full := false
  row := BitVec.ofNat 29 row

/-- The constructor `ACCW(row, rows, cols)` of R103: accumulator, overwrite. -/
def AddrOperand.accw (row rows cols : Nat) : AddrOperand :=
  { AddrOperand.spad row rows cols with isAcc := true }

/-- The constructor `ACCA(row, rows, cols)` of R103: accumulator, accumulate on write. -/
def AddrOperand.acca (row rows cols : Nat) : AddrOperand :=
  { AddrOperand.spad row rows cols with isAcc := true, accumulate := true }

/-- The constructor `ACCF(row, rows, cols)` of R103: accumulator, full-precision read. -/
def AddrOperand.accf (row rows cols : Nat) : AddrOperand :=
  { AddrOperand.spad row rows cols with isAcc := true, full := true }

/-- The constructor `NULLA(rows, cols)` of R103: null address with counts. -/
def AddrOperand.nulla (rows cols : Nat) : AddrOperand where
  rows := BitVec.ofNat 16 rows
  cols := BitVec.ofNat 16 cols
  isAcc := true
  accumulate := true
  full := true
  row := BitVec.allOnes 29

end Sys2Proof
end

