-- ==== Sys2Proof/Machine/Numbers.lean ====
section
/-!
DEFINITION. Machine/Numbers.lean: the number forms of R10 on mathematical integers: reading a pattern as signed,
two's-complement wrap, saturation, the pattern of an integer.
-/

namespace Sys2Proof.Machine

/-- `2^n` as an integer. -/
def pow2 (n : Nat) : Int := ((2 ^ n : Nat) : Int)

/-- The least signed integer of N bits: `ELEM_MIN` and `ACC_MIN` of R7. -/
def minOf (n : Nat) : Int := -pow2 (n - 1)

/-- The greatest signed integer of N bits: `ELEM_MAX` and `ACC_MAX` of R7. -/
def maxOf (n : Nat) : Int := pow2 (n - 1) - 1

/-- `wrap_N(x)` of R10: the N-bit signed integer congruent to x modulo 2^N. -/
def wrapTo (n : Nat) (x : Int) : Int := Int.bmod x (2 ^ n)

/-- `sat_N(x) = min(max(x, -2^(N-1)), 2^(N-1) - 1)` (R10, R201). -/
def satTo (n : Nat) (x : Int) : Int := min (max x (minOf n)) (maxOf n)

/-- `sext_N(v)` of R10: the N-bit pattern v read as a two's-complement signed integer. -/
def sextFrom (n : Nat) (v : Nat) : Int := if 2 * v < 2 ^ n then (v : Int) else (v : Int) - pow2 n

/-- `bits_N(x)` of R10: the N-bit two's-complement pattern of an integer in range. -/
def bitsOf (n : Nat) (x : Int) : Nat := (x % pow2 n).toNat

/-- A signed integer of N bits: the range of a bank cell (R23, R24, R25). -/
def fitsIn (n : Nat) (x : Int) : Bool := decide (minOf n ≤ x ∧ x ≤ maxOf n)

end Sys2Proof.Machine
end

