-- ==== Sys2Proof/Machine/Sparse.lean ====
section
/-!
DEFINITION. Machine/Sparse.lean: a list of (key, value) pairs in one canonical form, used for DRAM (R62) and for the
three matrices (R23 to R25): keys strictly rising, and no pair whose value is the one an unlisted key reads as. The
reads and writes are defined on every list, and the law of a read after a write holds on every list.
-/

namespace Sys2Proof.Machine

variable {α : Type} [DecidableEq α]

/-- Read a key; an unlisted key reads as `d`. -/
def sparseGet (d : α) : List (Nat × α) → Nat → α
  | [], _ => d
  | (a, w) :: t, k => if a = k then w else sparseGet d t k

/-- Remove every pair of a key. -/
def sparseErase : List (Nat × α) → Nat → List (Nat × α)
  | [], _ => []
  | (a, w) :: t, k => if a = k then sparseErase t k else (a, w) :: sparseErase t k

/-- Put a pair in front, unless its value is what an unlisted key reads as: then the key is removed. -/
def sparsePut (d : α) (t : List (Nat × α)) (k : Nat) (v : α) : List (Nat × α) :=
  if v = d then sparseErase t k else (k, v) :: t

/-- Write a key, keeping the keys in rising order. -/
def sparseSet (d : α) : List (Nat × α) → Nat → α → List (Nat × α)
  | [], k, v => sparsePut d [] k v
  | (a, w) :: t, k, v =>
      if a < k then (a, w) :: sparseSet d t k v
      else if a = k then sparsePut d t k v
      else sparsePut d ((a, w) :: t) k v

/-- Every key of the list is above `k`, and each value is not the default. -/
def sparseWfAbove (d : α) : Nat → List (Nat × α) → Bool
  | _, [] => true
  | k, (a, w) :: t => decide (k < a) && decide (w ≠ d) && sparseWfAbove d a t

/-- The canonical form. -/
def sparseWf (d : α) : List (Nat × α) → Bool
  | [] => true
  | (a, w) :: t => decide (w ≠ d) && sparseWfAbove d a t

end Sys2Proof.Machine
end

