-- ==== Sys2Proof/Machine/State.lean ====
section
/-!
DEFINITION. Machine/State.lean: everything the spec gives the machine, as plain data, and its value after reset
(10_state.md; the table of R44; `Reset()` of R340). Field names are the spec's. Fields that are not the block's own
state (R45) but stand here because a step is a function of one state are marked "model's own".
-/

namespace Sys2Proof.Machine

/-! ## Errors (60_exceptions.md) -/

/-- The fourteen reasons of a ConfigurationViolation (R302), in the order of their codes 1 to 14. -/
inductive ConfigReason where
  | shiftRange
  | transposeCombination
  | preloadFromAccumulator
  | tileBounds
  | nullOperand
  | countRange
  | operandInAccumulator
  | fullWithPooling
  | reservedSubcommand
  | reservedActivation
  | reservedStateId
  | scaleNotFinite
  | poolGeometry
  | loopNeedsWS
  deriving DecidableEq, Repr

/-- Which bank a row index fell outside of (R303). -/
inductive BankRow where
  | scratchpadRow
  | accumulatorRow
  deriving DecidableEq, Repr

/-- The two fatal kinds with their reasons (R302, R303, R306). -/
inductive FatalError where
  | configurationViolation (reason : ConfigReason)
  | outOfRange (which : BankRow)
  deriving DecidableEq, Repr

/-- The three kinds of error (R300): the tagged value (kind, reason) reported to the dispatcher. -/
inductive Error where
  | unknownInstruction
  | fatal (e : FatalError)
  deriving DecidableEq, Repr

/-- The fault latch (R41). -/
inductive Status where
  | running
  | faulted (e : FatalError)
  deriving DecidableEq, Repr

/-! ## The banks -/

/-- DRAM: (address, byte) pairs, addresses strictly rising, no pair that an unlisted address would read as. -/
abbrev Memory := List Host.Cell

/-- A matrix of signed cells, cell (r, c) under the key `r * DIM + c`, keys strictly rising, no cell of value 0.
Used for `SP` (R23), `ACC` (R24), `PE` (R25). -/
abbrev Bank := List (Nat × Int)

/-! ## The configuration register (10_state.md section 3) -/

/-- An activation (R28, R29, R203); the code 3 is never held. -/
inductive Activation where
  | identity
  | relu
  | relu6
  deriving DecidableEq, Repr

/-- One of the three load states (R36, R37, R38). -/
structure LoadState where
  stride : Word
  scale : Half
  shrunk : Bool
  deriving DecidableEq, Repr

/-- The configuration register (R27 to R40). -/
structure Cfg where
  /-- R27 -/
  dataflow : Dataflow
  /-- R28 -/
  sysAct : Activation
  /-- R29 -/
  accAct : Activation
  /-- R30 -/
  sysShift : Half
  /-- R31 -/
  accShift : Half
  /-- R32 -/
  relu6Shift : Half
  /-- R33 -/
  accScale : Half
  /-- R34 -/
  aTranspose : Bool
  /-- R34 -/
  bTranspose : Bool
  /-- R35 -/
  aStride : BitVec 16
  /-- load state 0 (R36 to R38) -/
  load0 : LoadState
  /-- load state 1 -/
  load1 : LoadState
  /-- load state 2 -/
  load2 : LoadState
  /-- R39 -/
  storeStride : Half
  /-- R40 -/
  pool : Pooling
  deriving DecidableEq, Repr

/-- One half of the preload record: an address part and its counts (R42). -/
structure TileRef where
  addr : Half
  rows : BitVec 16
  cols : BitVec 16
  deriving DecidableEq, Repr

/-- The tiling record, fourteen fields (R43). -/
structure TilingRecord where
  bounds : LoopBounds
  a : Word
  b : Word
  d : Word
  c : Word
  aStride : Word
  bStride : Word
  dStride : Word
  cStride : Word
  deriving DecidableEq, Repr

/-! ## The host side (model's own) -/

/-- What the host can do to the block, one action between two commands (R6, R74, R75, R340). -/
inductive HostAction where
  /-- the dispatcher presents a command (R21) -/
  | command (c : Command)
  /-- the host invokes the reset hook (R340) -/
  | resetHook
  /-- the host stores one DRAM byte (R75) -/
  | store (addr : Word) (value : Byte)
  deriving DecidableEq, Repr

/-! ## The state -/

/-- The state of the block, with the DRAM it reaches and the host's pending actions. -/
structure State where
  /-- model's own: the implementation parameters of R7, constant for the life of an instance
  (log 1) -/
  params : Params
  /-- model's own: the host's actions still to come, the next one first (R21, R74; log 2) -/
  host : List HostAction
  /-- model's own: what the last command returned to the dispatcher (R300), none after a command without error
  (log 6) -/
  report : Option Error
  /-- model's own: the DRAM of the external collaborator (R45, R62; log 3) -/
  dram : Memory
  /-- scratchpad (R23) -/
  sp : Bank
  /-- accumulator (R24) -/
  acc : Bank
  /-- PE array (R25) -/
  pe : Bank
  /-- configuration register (R27 to R40) -/
  cfg : Cfg
  /-- fault latch (R41) -/
  status : Status
  /-- preload record, the tile to load (R42) -/
  pre : TileRef
  /-- preload record, the result destination (R42) -/
  out : TileRef
  /-- tiling record (R43) -/
  lw : TilingRecord
  deriving DecidableEq, Repr

/-! ## Field updates -/

def State.withHost (s : State) (h : List HostAction) : State := { s with host := h }
def State.withReport (s : State) (r : Option Error) : State := { s with report := r }
def State.withDram (s : State) (m : Memory) : State := { s with dram := m }
def State.withSp (s : State) (b : Bank) : State := { s with sp := b }
def State.withAcc (s : State) (b : Bank) : State := { s with acc := b }
def State.withPe (s : State) (b : Bank) : State := { s with pe := b }
def State.withCfg (s : State) (c : Cfg) : State := { s with cfg := c }
def State.withStatus (s : State) (st : Status) : State := { s with status := st }
def State.withPreload (s : State) (pre out : TileRef) : State := { s with pre := pre, out := out }
def State.withLw (s : State) (l : TilingRecord) : State := { s with lw := l }

/-! ## Stopping -/

/-- Why a step stops without a next state. -/
inductive Fault where
  /-- Raised by the step when a command is presented while the fault latch is set: "a `Faulted` machine has no step"
  (R306; log 4). Safe: nothing can be proved of a command that is not taken. -/
  | blockFaulted (e : FatalError)
  /-- Raised by a DRAM access to an address the platform refuses, the parameter `DramAdmit` of R65: "no further step
  (stuck)". Never with the default parameters (log 5). Safe: it errs toward unprovable. -/
  | dramRefused (addr : Nat)
  deriving DecidableEq, Repr

/-- Why an instruction has no meaning here. -/
inductive Refusal where
  /-- Raised by no arm: every instruction of the opcode table has its meaning. Safe. -/
  | notModelled (mnemonic : String)
  deriving DecidableEq, Repr

/-! ## Reset -/

/-- Load state after reset: `DIM * ELEM_BYTES`, 1.0, 0 (R44). DESIGN CHOICE (log 16): R7 bounds ELEM_BITS nowhere, so the
product need not fit the 64-bit stride (R36), and the spec gives no value there; then its low 64 bits are held. -/
def LoadState.reset (p : Params) : LoadState where
  stride := BitVec.ofNat 64 (p.dim * p.elemBytes)
  scale := 0x3F800000
  shrunk := false

/-- Pooling off and every field 0 (R40, R44). -/
def poolingReset : Pooling := ⟨0, 0, 0, 0, 0, 0, 0, 0, 0⟩

/-- The configuration after reset (R44, R340). DESIGN CHOICE (log 16): where `DIM * ELEM_BYTES` does not fit the 32-bit
store stride (R39) the spec gives no value; then its low 32 bits are held. -/
def Cfg.reset (p : Params) : Cfg where
  dataflow := .os
  sysAct := .identity
  accAct := .identity
  sysShift := 0
  accShift := 0
  relu6Shift := 0
  accScale := 0x3F800000
  aTranspose := false
  bTranspose := false
  aStride := 1
  load0 := LoadState.reset p
  load1 := LoadState.reset p
  load2 := LoadState.reset p
  storeStride := BitVec.ofNat 32 (p.dim * p.elemBytes)
  pool := poolingReset

/-- Each half of the preload record after reset: null, counts 0 (R42, R44). -/
def TileRef.reset : TileRef := ⟨0xFFFFFFFF, 0, 0⟩

/-- The tiling record after reset: all fourteen fields 0 (R43, R44). -/
def TilingRecord.reset : TilingRecord := ⟨⟨0, 0, 0, 0, 0, 0⟩, 0, 0, 0, 0, 0, 0, 0, 0⟩

/-- A block with parameters p right after it was created: R44, R340. DRAM is not state of the block; here nothing is
listed in it, and no host action is pending. -/
def State.resetWith (p : Params) : State where
  params := p
  host := []
  report := none
  dram := []
  sp := []
  acc := []
  pe := []
  cfg := Cfg.reset p
  status := .running
  pre := TileRef.reset
  out := TileRef.reset
  lw := TilingRecord.reset

/-- The machine right after reset, with the default parameters of R7. -/
def State.reset : State := State.resetWith Params.standard

end Sys2Proof.Machine
end

