-- ==== Sys2Proof/Machine/Ops.lean ====
section
/-!
DEFINITION. Machine/Ops.lean: the named operations every command is made of: the loops of the pseudocode (R11), reading
and writing bank cells with the range check (R26, R66), reading and writing DRAM bytes (R62 to R65), taking an error
(R300, R306) and the reset hook, which is the only return from a fatal one (R312, R340).
-/

namespace Sys2Proof.Machine

/-! ## Results of a procedure -/

/-- Why a procedure ended before its last line. -/
inductive Stop where
  /-- the pseudocode reached a `raise` (R11, R300) -/
  | raised (e : FatalError)
  /-- the platform refused a DRAM byte address (R65) -/
  | stuck (addr : Nat)
  deriving DecidableEq, Repr

/-- What a procedure answers: the state it ended in, or a stop with the partial state, which is kept (R307). -/
inductive Res where
  | done (s : State)
  | stop (why : Stop) (s : State)
  deriving DecidableEq, Repr

/-- Go on with the next procedure unless this one stopped. -/
def Res.andThen (r : Res) (f : State → Res) : Res :=
  match r with
  | .done s => f s
  | .stop why s => .stop why s

/-- Raise a ConfigurationViolation with a reason (R302). -/
def Stop.violation (reason : ConfigReason) : Stop := .raised (.configurationViolation reason)

/-- Raise an OutOfRange (R303). -/
def Stop.outOfRange (which : BankRow) : Stop := .raised (.outOfRange which)

/-- Continue only where a head-of-command check does not object: the raise ends the command (R11). -/
def check (bad : Bool) (reason : ConfigReason) (s : State) (rest : Res) : Res :=
  if bad then .stop (Stop.violation reason) s else rest

/-! ## The loops of the pseudocode: `for x in 0 .. n-1` iterates in increasing order (R11) -/

/-- `count` iterations from index `i`, ending at the first stop. -/
def forFrom (body : Nat → State → Res) : Nat → Nat → State → Res
  | 0, _, s => .done s
  | count + 1, i, s =>
      match body i s with
      | .done s' => forFrom body count (i + 1) s'
      | .stop why s' => .stop why s'

/-- `for x in 0 .. n-1` over the state. -/
def forRange (n : Nat) (body : Nat → State → Res) (s : State) : Res := forFrom body n 0 s

/-- `count` iterations from index `i` over a value computed without changing the state. -/
def foldFrom {α : Type} (body : Nat → α → Except Stop α) : Nat → Nat → α → Except Stop α
  | 0, _, a => .ok a
  | count + 1, i, a =>
      match body i a with
      | .ok a' => foldFrom body count (i + 1) a'
      | .error why => .error why

/-- `for x in 0 .. n-1` over a value. -/
def foldRange {α : Type} (n : Nat) (body : Nat → α → Except Stop α) (a : α) : Except Stop α := foldFrom body n 0 a

/-! ## Bank cells (R11, R23 to R26, R66) -/

/-- The value of a bank cell; an unlisted cell is 0. -/
def cellAt (p : Params) (b : Bank) (r c : Nat) : Int := sparseGet 0 b (r * p.dim + c)

/-- A bank with one cell replaced. -/
def putCell (p : Params) (b : Bank) (r c : Nat) (v : Int) : Bank := sparseSet 0 b (r * p.dim + c) v

/-- `SP[r][c]` without the range check. -/
def State.spAt (s : State) (r c : Nat) : Int := cellAt s.params s.sp r c

/-- `ACC[r][c]` without the range check. -/
def State.accAt (s : State) (r c : Nat) : Int := cellAt s.params s.acc r c

/-- `PE[i][j]` (R25). -/
def State.peAt (s : State) (i j : Nat) : Int := cellAt s.params s.pe i j

/-- `SP[r][c] <- v` without the range check. -/
def State.putSp (s : State) (r c : Nat) (v : Int) : State := s.withSp (putCell s.params s.sp r c v)

/-- `ACC[r][c] <- v` without the range check. -/
def State.putAcc (s : State) (r c : Nat) (v : Int) : State := s.withAcc (putCell s.params s.acc r c v)

/-- `PE[i][j] <- v`. -/
def State.putPe (s : State) (i j : Nat) (v : Int) : State := s.withPe (putCell s.params s.pe i j v)

/-- The extent of a bank in rows (R66). -/
def extentOf (p : Params) (isAcc : Bool) : Nat := if isAcc then p.accRows else p.spRows

/-- Which OutOfRange a row outside the bank is (R303). -/
def rowError (isAcc : Bool) : BankRow := if isAcc then .accumulatorRow else .scratchpadRow

/-- Read a cell of the selected bank with the range check of R66; a read has no side effect (R71). -/
def State.readCell (s : State) (isAcc : Bool) (r c : Nat) : Except Stop Int :=
  if extentOf s.params isAcc ≤ r then .error (Stop.outOfRange (rowError isAcc))
  else .ok (if isAcc then s.accAt r c else s.spAt r c)

/-- Write a scratchpad cell with the range check of R66. -/
def State.writeSp (s : State) (r c : Nat) (v : Int) : Res :=
  if extentOf s.params false ≤ r then .stop (Stop.outOfRange .scratchpadRow) s else .done (s.putSp r c v)

/-- Write an accumulator cell with the range check of R66: add with wrap, or overwrite (R26, R140, R179). -/
def State.writeAcc (s : State) (accumulate : Bool) (r c : Nat) (v : Int) : Res :=
  if extentOf s.params true ≤ r then .stop (Stop.outOfRange .accumulatorRow) s
  else .done (s.putAcc r c (if accumulate then wrapTo s.params.accBits (s.accAt r c + v) else v))

/-! ## DRAM bytes (R62 to R65) -/

/-- The canonical form of DRAM: addresses strictly rising, and no listed byte equal to what an unlisted one reads as. -/
def Memory.wf (m : Memory) : Bool := sparseWf Config.unwrittenByte m

/-- A byte of DRAM as data: what the host sees at an address. -/
def State.byteAt (s : State) (addr : Nat) : Byte := sparseGet Config.unwrittenByte s.dram addr

/-- A DRAM byte replaced. -/
def State.putByte (s : State) (addr : Nat) (v : Byte) : State :=
  s.withDram (sparseSet Config.unwrittenByte s.dram addr v)

/-- `DramAdmit(addr)` of R65. -/
def dramAdmit (p : Params) (addr : Nat) : Bool := p.dramRefused.all fun range => !(decide (range.1 ≤ addr ∧ addr ≤ range.2))

/-- `(addr + b) mod 2^64` (R63, R64). -/
def byteAddress (addr : Word) (b : Nat) : Nat := (addr + BitVec.ofNat 64 b).toNat

/-- A DRAM byte address computed on mathematical integers and reduced modulo 2^64 (R140, R145, D25). -/
def dramAddress (x : Nat) : Word := BitVec.ofNat 64 x

/-- `read_byte` (R62), stuck where the platform refuses the address (R65). -/
def State.readByte (s : State) (addr : Nat) : Except Stop Byte :=
  if dramAdmit s.params addr then .ok (s.byteAt addr) else .error (.stuck addr)

/-- `write_byte` (R62), stuck where the platform refuses the address (R65). -/
def State.writeByte (s : State) (addr : Nat) (v : Byte) : Res :=
  if dramAdmit s.params addr then .done (s.putByte addr v) else .stop (.stuck addr) s

/-- `MemRead(addr, n)`: the n-byte little-endian unsigned value, bytes read in increasing order (R63). -/
def State.memRead (s : State) (addr : Word) (n : Nat) : Except Stop Nat :=
  foldRange n (fun b acc =>
    match s.readByte (byteAddress addr b) with
    | .ok v => .ok (acc + v.toNat * 2 ^ (8 * b))
    | .error why => .error why) 0

/-- `MemWrite(addr, n, v)`: the low n bytes of the pattern v, in increasing order (R64). -/
def State.memWrite (s : State) (addr : Word) (n v : Nat) : Res :=
  forRange n (fun b s => s.writeByte (byteAddress addr b) (BitVec.ofNat 8 (v / 2 ^ (8 * b)))) s

/-! ## Configuration access -/

/-- `cfg.load_*[s]`, s in 0, 1, 2 (R36 to R38). -/
def Cfg.load (c : Cfg) (k : Fin 3) : LoadState :=
  match k with
  | 0 => c.load0
  | 1 => c.load1
  | 2 => c.load2

/-- `cfg.load_*[s] <- l`; the other two load states are untouched (R224). -/
def Cfg.withLoad (c : Cfg) (k : Fin 3) (l : LoadState) : Cfg :=
  match k with
  | 0 => { c with load0 := l }
  | 1 => { c with load1 := l }
  | 2 => { c with load2 := l }

/-- The activation of a code; code 3 has none (R28, R29, R220, R225). -/
def Activation.ofCode (act : BitVec 2) : Option Activation :=
  match act.toNat with
  | 0 => some .identity
  | 1 => some .relu
  | 2 => some .relu6
  | _ => none

/-- The load state of a state id; id 3 has none (R223). -/
def loadIndex (stateId : BitVec 2) : Option (Fin 3) :=
  match stateId.toNat with
  | 0 => some 0
  | 1 => some 1
  | 2 => some 2
  | _ => none

/-! ## Errors -/

/-- The ordinal of a configuration reason, 1 to 14 (R302, R304). -/
def ConfigReason.code : ConfigReason → Nat
  | .shiftRange => 1
  | .transposeCombination => 2
  | .preloadFromAccumulator => 3
  | .tileBounds => 4
  | .nullOperand => 5
  | .countRange => 6
  | .operandInAccumulator => 7
  | .fullWithPooling => 8
  | .reservedSubcommand => 9
  | .reservedActivation => 10
  | .reservedStateId => 11
  | .scaleNotFinite => 12
  | .poolGeometry => 13
  | .loopNeedsWS => 14

/-- The ordinal of an error, 0 to 16 (R303, R304): offered for a reader; no command reads it. -/
def Error.code : Error → Nat
  | .unknownInstruction => 0
  | .fatal (.configurationViolation reason) => reason.code
  | .fatal (.outOfRange .scratchpadRow) => 15
  | .fatal (.outOfRange .accumulatorRow) => 16

/-- Taking an error (R300, R301, R306): the command ends, a fatal error sets the fault latch, and the dispatcher gets
the (kind, reason) report. `UnknownInstruction` changes no state of the block. -/
def State.takeError (s : State) (e : Error) : State :=
  match e with
  | .unknownInstruction => s.withReport (some e)
  | .fatal f => (s.withStatus (.faulted f)).withReport (some e)

/-- The reset hook (R340): every state variable of the block at its reset value; the parameters, DRAM and the host's
further actions are not state of the block and stay. -/
def State.takeReset (s : State) : State :=
  ((State.resetWith s.params).withHost s.host).withDram s.dram

/-- The end of a command: a normal end reports nothing, a raise takes the error with the partial state kept (R307), a
refused DRAM address leaves no further step (R65). -/
def Res.finish (r : Res) : Host.Outcome State Fault Refusal :=
  match r with
  | .done s => .next (s.withReport none)
  | .stop (.raised e) s => .next (s.takeError (.fatal e))
  | .stop (.stuck addr) _ => .fault (.dramRefused addr)

end Sys2Proof.Machine
end

