-- ==== Sys2Proof/Machine/Quantizer.lean ====
section
/-!
DEFINITION. Machine/Quantizer.lean: the quantizer, a set of pure functions on mathematical integers (43_quantizer.md):
rounding shift (R200), saturation (R201, R202), activation (R203), exact scaling by a binary32 pattern (R204 to R206),
and the two pipelines (R207, R208).
-/

namespace Sys2Proof.Machine

/-- Bit n of the two's-complement form of x, extended with ones for a negative x (R200). -/
def bitAt (x : Int) (n : Nat) : Bool := decide (x / pow2 n % 2 = 1)

/-- `RoundShift(x, s)`: x / 2^s rounded to the nearest integer, a tie to the even neighbour (R200). -/
def roundShift (x : Int) (s : Nat) : Int :=
  if s = 0 then x
  else
    let up := bitAt x (s - 1) && (decide (x % pow2 (s - 1) ≠ 0) || bitAt x s)
    x / pow2 s + (if up then 1 else 0)

/-- `RoundingSaturatingShift(v, s)` (R202). -/
def roundingSaturatingShift (p : Params) (v : Int) (s : Nat) : Int := satTo p.elemBits (roundShift v s)

/-- `Activation(which, x)` (R203): the ReLU6 bound is the mathematical integer `6 * 2^relu6_shift`. -/
def activate (which : Activation) (relu6Shift : Nat) (x : Int) : Int :=
  match which with
  | .identity => x
  | .relu => max x 0
  | .relu6 => min (max x 0) (6 * pow2 relu6Shift)

/-- The exponent field `p[30:23]` (R204). -/
def scaleExponentField (scale : Half) : Nat := (scale.extractLsb' 23 8).toNat

/-- The integer significand m of R204. -/
def scaleSignificand (scale : Half) : Nat :=
  let frac := (scale.extractLsb' 0 23).toNat
  if scaleExponentField scale = 0 then frac else 2 ^ 23 + frac

/-- The exponent e of R204: the value of the pattern is `(-1)^sign * m * 2^e`. -/
def scaleExponent (scale : Half) : Int :=
  if scaleExponentField scale = 0 then -149 else (scaleExponentField scale : Int) - 150

/-- `ScaleRNE(x, p)` (R205): the exact product, rounded once to the nearest integer, ties to even. -/
def scaleRNE (x : Int) (scale : Half) : Int :=
  let m : Int := scaleSignificand scale
  let prod := if scale.getLsbD 31 then -(m * x) else m * x
  let e := scaleExponent scale
  if 0 ≤ e then prod * pow2 e.toNat else roundShift prod (-e).toNat

/-- `ScaleSat_N(x, p)` (R206). -/
def scaleSat (n : Nat) (x : Int) (scale : Half) : Int := satTo n (scaleRNE x scale)

/-- `SysQuantize(v)` (R207): the system-side pipeline, from the array to the scratchpad. -/
def sysQuantize (p : Params) (cfg : Cfg) (v : Int) : Int :=
  activate cfg.sysAct cfg.relu6Shift.toNat (roundingSaturatingShift p v cfg.sysShift.toNat)

/-- `AccReadout(w)` (R208): shift, then scale, then one saturating cast, then the activation. -/
def accReadout (p : Params) (cfg : Cfg) (w : Int) : Int :=
  activate cfg.accAct cfg.relu6Shift.toNat (scaleSat p.elemBits (roundShift w cfg.accShift.toNat) cfg.accScale)

end Sys2Proof.Machine
end

