-- ==== Sys2Proof/Machine/ComputeEngine.lean ====
section
/-!
DEFINITION. Machine/ComputeEngine.lean: the compute engine (42_compute_engine.md): `Preload` (R171), the compute
procedure (R172) with its preload step (R173), operand reads (R174), the two multiply-accumulates (R175, R178) and the
result write (R179), and the meanings of `PRELOAD`, `COMPUTE_PRELOADED`, `COMPUTE_ACCUMULATED`.
-/

namespace Sys2Proof.Machine

/-! ## PRELOAD -/

/-- The half of the preload record an operand is recorded as (R42, R171). -/
def tileRefOf (o : AddrOperand) : TileRef := ⟨o.addr32, o.rows, o.cols⟩

/-- `Preload(rs1, rs2)` of R171: all checks precede all writes, and only the six record fields are written. -/
def preloadRecord (src dst : AddrOperand) (s : State) : Res :=
  check src.inAccumulator .preloadFromAccumulator s <|
  check (src.overCounts s.params) .countRange s <|
  check (dst.overCounts s.params) .countRange s <|
  .done (s.withPreload (tileRefOf src) (tileRefOf dst))

/-! ## The preload record as the compute commands read it -/

/-- The recorded address is null (R123, R173, R179). -/
def TileRef.isNull (t : TileRef) : Bool := t.addr == 0xFFFFFFFF

/-- `addr[28:0]` (R173, R179). -/
def TileRef.base (t : TileRef) : Nat := (t.addr.extractLsb' 0 29).toNat

/-- `addr[31]` (R179). -/
def TileRef.toAcc (t : TileRef) : Bool := t.addr.getLsbD 31

/-- `addr[30]` (R179). -/
def TileRef.accumulate (t : TileRef) : Bool := t.addr.getLsbD 30

/-- The preloaded value of `PE[i][j]`: the tile's element inside the recorded extent, 0 elsewhere; transposed only in
WS dataflow with `b_transpose`, and then the extent test is on the stored coordinates (R173). -/
def preloadValue (s : State) (i j : Nat) : Except Stop Int :=
  let swap := s.cfg.dataflow == .ws && s.cfg.bTranspose
  let r := if swap then j else i
  let c := if swap then i else j
  if s.pre.isNull ∨ s.pre.rows.toNat ≤ r ∨ s.pre.cols.toNat ≤ c then .ok 0
  else s.readCell false (s.pre.base + r) c

/-- `PreloadStep()` of R173: every cell of `PE` is written. -/
def preloadStep (s : State) : Res :=
  forRange s.params.dim (fun i => forRange s.params.dim (fun j s =>
    match preloadValue s i j with
    | .error why => .stop why s
    | .ok v => .done (s.putPe i j v))) s

/-! ## Operand reads (R174) -/

/-- `Aval(a, i, k)`: stored row r of A is `a_stride * r` rows after the base. -/
def aval (s : State) (a : AddrOperand) (i k : Nat) : Except Stop Int :=
  let r := if s.cfg.aTranspose then k else i
  let c := if s.cfg.aTranspose then i else k
  if a.isNull ∨ a.nrows ≤ r ∨ a.ncols ≤ c then .ok 0
  else s.readCell false (a.base + s.cfg.aStride.toNat * r) c

/-- `Bval(b, k, j)`, OS dataflow only. -/
def bval (s : State) (b : AddrOperand) (k j : Nat) : Except Stop Int :=
  let r := if s.cfg.bTranspose then j else k
  let c := if s.cfg.bTranspose then k else j
  if b.isNull ∨ b.nrows ≤ r ∨ b.ncols ≤ c then .ok 0
  else s.readCell false (b.base + r) c

/-- `Dval(b, i, j)`, WS dataflow only: never transposed. -/
def dval (s : State) (b : AddrOperand) (i j : Nat) : Except Stop Int :=
  if b.isNull ∨ b.nrows ≤ i ∨ b.ncols ≤ j then .ok 0
  else s.readCell false (b.base + i) j

/-! ## Multiply-accumulate -/

/-- One link of a sum of products: `acc = wrap_ACC_BITS(acc + x * y)`, x read before y (R175, R178, R180). -/
def macLink (p : Params) (acc : Int) (x y : Except Stop Int) : Except Stop Int :=
  match x with
  | .error why => .error why
  | .ok x =>
      match y with
      | .error why => .error why
      | .ok y => .ok (wrapTo p.accBits (acc + x * y))

/-- The sum for cell (i, j) in OS dataflow, from the old partial sum (R175). -/
def macOsValue (s : State) (a b : AddrOperand) (i j : Nat) : Except Stop Int :=
  foldRange s.params.dim (fun k acc => macLink s.params acc (aval s a i k) (bval s b k j)) (s.peAt i j)

/-- `MacOS(a, b)` of R175: accumulated in place in `PE`. -/
def macOs (a b : AddrOperand) (s : State) : Res :=
  forRange s.params.dim (fun i => forRange s.params.dim (fun j s =>
    match macOsValue s a b i j with
    | .error why => .stop why s
    | .ok v => .done (s.putPe i j v))) s

/-- The sum for cell (i, j) in WS dataflow, seeded from the bias operand; `PE` holds the weights (R178). -/
def macWsValue (s : State) (a b : AddrOperand) (i j : Nat) : Except Stop Int :=
  match dval s b i j with
  | .error why => .error why
  | .ok seed => foldRange s.params.dim (fun k acc => macLink s.params acc (aval s a i k) (.ok (s.peAt k j))) seed

/-- `MacWS(a, b)` of R178: the scratch result matrix, which lives only inside the command. -/
def macWs (a b : AddrOperand) (s : State) : Except Stop Bank :=
  foldRange s.params.dim (fun i res => foldRange s.params.dim (fun j res =>
    match macWsValue s a b i j with
    | .error why => .error why
    | .ok v => .ok (putCell s.params res i j v)) res) []

/-! ## The result write -/

/-- The write of result cell (i, j): to the accumulator as the raw word, to the scratchpad through `SysQuantize`
(R179). -/
def writeResultCell (v : Int) (i j : Nat) (s : State) : Res :=
  if s.out.toAcc then s.writeAcc s.out.accumulate (s.out.base + i) j v
  else s.writeSp (s.out.base + i) j (sysQuantize s.params s.cfg v)

/-- `WriteResult(res)` of R179: nothing for a null destination, else the declared extent only. -/
def writeResult (res : Bank) (s : State) : Res :=
  if s.out.isNull then .done s
  else
    forRange s.out.rows.toNat (fun i => forRange s.out.cols.toNat (fun j s =>
      writeResultCell (cellAt s.params res i j) i j s)) s

/-! ## The compute procedure -/

/-- The multiply-accumulate of the current dataflow and then the result write (R170, R172). -/
def macAndWrite (a b : AddrOperand) (s : State) : Res :=
  match s.cfg.dataflow with
  | .os => (macOs a b s).andThen fun s => writeResult s.pe s
  | .ws =>
      match macWs a b s with
      | .error why => .stop why s
      | .ok res => writeResult res s

/-- `Compute(rs1, rs2, do_preload)` of R172. -/
def compute (a b : AddrOperand) (doPreload : Bool) (s : State) : Res :=
  check a.inAccumulator .operandInAccumulator s <|
  check b.inAccumulator .operandInAccumulator s <|
  check (a.overCounts s.params) .countRange s <|
  check (b.overCounts s.params) .countRange s <|
  ((if doPreload then preloadStep s else .done s).andThen (macAndWrite a b))

/-! ## The meanings -/

/-- `PRELOAD rs1, rs2` (R171). -/
def execPreload (src dst : AddrOperand) (s : State) : Host.Outcome State Fault Refusal :=
  (preloadRecord src dst s).finish

/-- `COMPUTE_PRELOADED rs1, rs2` (R176). -/
def execComputePreloaded (a bd : AddrOperand) (s : State) : Host.Outcome State Fault Refusal :=
  (compute a bd true s).finish

/-- `COMPUTE_ACCUMULATED rs1, rs2` (R177). -/
def execComputeAccumulated (a bd : AddrOperand) (s : State) : Host.Outcome State Fault Refusal :=
  (compute a bd false s).finish

end Sys2Proof.Machine
end

