-- ==== Sys2Proof/Machine/Flags.lean ====
section
/-!
DEFINITION. Machine/Flags.lean: the block has no condition codes and no arithmetic status flags (R22), so there is no
flag to compute from a result. What stands here is every yes-or-no test the configuration commands make on their
fields before they write anything (R99, R221, R222, R224 to R226).
-/

namespace Sys2Proof

/-- A binary32 pattern that is infinite or not a number: its exponent field is all ones (R99, R204). -/
def scaleNotFinite (scale : Half) : Bool := scale.extractLsb' 23 8 == 255#8

/-- The activation code 3 is reserved (R99, R220, R225). -/
def reservedActivation (act : BitVec 2) : Bool := act == 3#2

/-- A shift field that is not below ACC_BITS, compared as unsigned numbers (R221). -/
def shiftTooLarge (p : Params) (shift : Half) : Bool := decide (p.accBits ≤ shift.toNat)

/-- The two forbidden (dataflow, a_transpose, b_transpose) triples of R222. -/
def transposeForbidden (df : Dataflow) (aT bT : Bool) : Bool :=
  (df == .os && !aT && bT) || (df == .ws && aT && bT)

/-- Pooling on with an empty window (R226). -/
def poolWindowEmpty (g : Pooling) : Bool := g.stride != 0#2 && g.size == 0#2

end Sys2Proof
end

