-- ==== Sys2Proof/Machine/ConfigCommands.lean ====
section
/-!
DEFINITION. Machine/ConfigCommands.lean: `CONFIG_EX` (R221, R222), `CONFIG_LD` (R224), `CONFIG_ST` (R225, R226). Every
check is made before any field is written.
-/

namespace Sys2Proof.Machine

/-- The configuration `CONFIG_EX` writes: all eight fields (R221). -/
def Cfg.withEx (c : Cfg) (act : Activation) (w : ExConfig) : Cfg :=
  { c with
    dataflow := w.dataflow, sysAct := act, aTranspose := w.aTranspose, bTranspose := w.bTranspose,
    aStride := w.aStride, accShift := w.accShift, sysShift := w.sysShift, relu6Shift := w.relu6Shift }

/-- The configuration `CONFIG_ST` writes: the activation, the nine pooling fields, the stride and the scale (R225). -/
def Cfg.withSt (c : Cfg) (act : Activation) (w : StConfig) : Cfg :=
  { c with accAct := act, pool := w.pool, storeStride := w.stride, accScale := w.scale }

/-- `ConfigEx(rs1, rs2)` of R221. -/
def configEx (w : ExConfig) (s : State) : Res :=
  match Activation.ofCode w.act with
  | none => .stop (Stop.violation .reservedActivation) s
  | some act =>
      let p := s.params
      check (shiftTooLarge p w.accShift || shiftTooLarge p w.sysShift || shiftTooLarge p w.relu6Shift) .shiftRange s <|
      check (transposeForbidden w.dataflow w.aTranspose w.bTranspose) .transposeCombination s <|
      .done (s.withCfg (s.cfg.withEx act w))

/-- `ConfigLd(rs1, rs2)` of R224. -/
def configLd (w : LdConfig) (s : State) : Res :=
  match loadIndex w.stateId with
  | none => .stop (Stop.violation .reservedStateId) s
  | some k =>
      check (scaleNotFinite w.scale) .scaleNotFinite s <|
      .done (s.withCfg (s.cfg.withLoad k ⟨w.stride, w.scale, w.shrunk⟩))

/-- `ConfigSt(rs1, rs2)` of R225. -/
def configSt (w : StConfig) (s : State) : Res :=
  match Activation.ofCode w.act with
  | none => .stop (Stop.violation .reservedActivation) s
  | some act =>
      check (scaleNotFinite w.scale) .scaleNotFinite s <|
      check (poolWindowEmpty w.pool) .poolGeometry s <|
      .done (s.withCfg (s.cfg.withSt act w))

/-- `CONFIG_EX rs1, rs2` (R221). -/
def execConfigEx (w : ExConfig) (s : State) : Host.Outcome State Fault Refusal := (configEx w s).finish

/-- `CONFIG_LD rs1, rs2` (R224). -/
def execConfigLd (w : LdConfig) (s : State) : Host.Outcome State Fault Refusal := (configLd w s).finish

/-- `CONFIG_ST rs1, rs2` (R225). -/
def execConfigSt (w : StConfig) (s : State) : Host.Outcome State Fault Refusal := (configSt w s).finish

end Sys2Proof.Machine
end

