-- ==== Sys2Proof/Machine/DataMover.lean ====
section
/-!
DEFINITION. Machine/DataMover.lean: move-in and move-out (41_data_mover.md): `MoveIn` (R140), `MoveOut` (R145), the
pooling path (R146), and the meanings of `MVIN`, `MVIN2`, `MVIN3`, `MVOUT` (R142 to R145).
-/

namespace Sys2Proof.Machine

/-! ## Where an element of a transfer lies -/

/-- The bank row of element (r, c) of a transfer: block `c div DIM` lies DIM rows after the one before (R126, R140). -/
def transferRow (p : Params) (d : AddrOperand) (r c : Nat) : Nat := d.base + r + c / p.dim * p.dim

/-- The bank column of element (r, c): `c mod DIM` (R140). -/
def transferCol (p : Params) (c : Nat) : Nat := c % p.dim

/-! ## Move-in -/

/-- Bytes per element in DRAM: ACC_BYTES for an accumulator target of a load state that is not shrunk (R38, R140). -/
def moveInBytes (p : Params) (l : LoadState) (d : AddrOperand) : Nat :=
  if d.isAcc && !l.shrunk then p.accBytes else p.elemBytes

/-- The DRAM byte address of source element (r, c) (R140). -/
def moveInAddress (p : Params) (l : LoadState) (addr : Word) (d : AddrOperand) (r c : Nat) : Word :=
  dramAddress (addr.toNat + r * l.stride.toNat + c * moveInBytes p l d)

/-- The source value: 0 for the null DRAM address, which touches no DRAM byte (R141), else the sign-extended value
read (R140). -/
def moveInRaw (s : State) (l : LoadState) (addr : Word) (d : AddrOperand) (r c : Nat) : Except Stop Int :=
  if addr = 0 then .ok 0
  else
    match s.memRead (moveInAddress s.params l addr d r c) (moveInBytes s.params l d) with
    | .ok v => .ok (sextFrom (8 * moveInBytes s.params l d) v)
    | .error why => .error why

/-- The body of the two loops of `MoveIn` for element (r, c): range check, source value, scale and saturation at the
target's width, then overwrite or accumulate with wrap (R140). -/
def moveInCell (k : Fin 3) (addr : Word) (d : AddrOperand) (r c : Nat) (s : State) : Res :=
  let p := s.params
  let l := s.cfg.load k
  let brow := transferRow p d r c
  let bcol := transferCol p c
  if extentOf p d.isAcc ≤ brow then .stop (Stop.outOfRange (rowError d.isAcc)) s
  else
    match moveInRaw s l addr d r c with
    | .error why => .stop why s
    | .ok raw =>
        if d.isAcc then s.writeAcc d.accumulate brow bcol (scaleSat p.accBits raw l.scale)
        else s.writeSp brow bcol (scaleSat p.elemBits raw l.scale)

/-- `MoveIn(s, rs1, rs2)` of R140 with load state k. -/
def moveIn (k : Fin 3) (addr : Word) (d : AddrOperand) (s : State) : Res :=
  check d.isNull .nullOperand s <|
  check (decide (s.params.dim < d.nrows)) .countRange s <|
  forRange d.nrows (fun r => forRange d.ncols (fun c => moveInCell k addr d r c)) s

/-! ## Move-out -/

/-- Bytes per element in DRAM: the raw accumulator word when `full` is set on an accumulator source, else a narrow
element (R145). -/
def moveOutBytes (p : Params) (d : AddrOperand) : Nat := if d.isAcc && d.full then p.accBytes else p.elemBytes

/-- The DRAM byte address of output element (r, c) (R145). -/
def moveOutAddress (s : State) (addr : Word) (d : AddrOperand) (r c : Nat) : Word :=
  dramAddress (addr.toNat + r * s.cfg.storeStride.toNat + c * moveOutBytes s.params d)

/-- The pattern written for a bank value: raw word, `AccReadout`, or the scratchpad element without any arithmetic
(R145). -/
def moveOutPattern (s : State) (d : AddrOperand) (v : Int) : Nat :=
  if d.isAcc then
    if d.full then bitsOf s.params.accBits v else bitsOf s.params.elemBits (accReadout s.params s.cfg v)
  else bitsOf s.params.elemBits v

/-- The body of the two loops of `MoveOut` for element (r, c) (R145). -/
def moveOutCell (addr : Word) (d : AddrOperand) (r c : Nat) (s : State) : Res :=
  match s.readCell d.isAcc (transferRow s.params d r c) (transferCol s.params c) with
  | .error why => .stop why s
  | .ok v => s.memWrite (moveOutAddress s addr d r c) (moveOutBytes s.params d) (moveOutPattern s d v)

/-! ## Pooling -/

/-- The input coordinate of a window position, which may be negative (R146). -/
def poolCoordinate (outPos stride within pad : Nat) : Int := (outPos * stride + within : Nat) - (pad : Int)

/-- The value of the image at a window position: 0 outside the image, else the narrow value of the bank row that holds
the position, through `AccReadout` for an accumulator source (R146). -/
def poolElement (s : State) (d : AddrOperand) (ch : Nat) (orow ocol : Int) : Except Stop Int :=
  let g := s.cfg.pool
  if orow < 0 ∨ ocol < 0 ∨ (g.orows.toNat : Int) ≤ orow ∨ (g.ocols.toNat : Int) ≤ ocol then .ok 0
  else
    match s.readCell d.isAcc (d.base + orow.toNat * g.ocols.toNat + ocol.toNat) ch with
    | .error why => .error why
    | .ok v => .ok (if d.isAcc then accReadout s.params s.cfg v else v)

/-- The maximum over the window of output position (porow, pocol) in channel ch, starting at ELEM_MIN (R146). -/
def poolMax (s : State) (d : AddrOperand) (porow pocol ch : Nat) : Except Stop Int :=
  let g := s.cfg.pool
  foldRange g.size.toNat (fun wr m =>
    foldRange g.size.toNat (fun wc m =>
      match poolElement s d ch (poolCoordinate porow g.stride.toNat wr g.upad.toNat)
          (poolCoordinate pocol g.stride.toNat wc g.lpad.toNat) with
      | .error why => .error why
      | .ok e => .ok (max m e)) m) (minOf s.params.elemBits)

/-- The DRAM byte address of output position (porow, pocol), channel ch (R146). -/
def poolAddress (s : State) (addr : Word) (porow pocol ch : Nat) : Word :=
  dramAddress (addr.toNat + (porow * s.cfg.pool.outDim.toNat + pocol) * s.cfg.storeStride.toNat +
    ch * s.params.elemBytes)

/-- The body of the three outer loops of `PooledMoveOut` (R146). -/
def pooledCell (addr : Word) (d : AddrOperand) (porow pocol ch : Nat) (s : State) : Res :=
  match poolMax s d porow pocol ch with
  | .error why => .stop why s
  | .ok m => s.memWrite (poolAddress s addr porow pocol ch) s.params.elemBytes (bitsOf s.params.elemBits m)

/-- `PooledMoveOut(rs1, d)` of R146. -/
def pooledMoveOut (addr : Word) (d : AddrOperand) (s : State) : Res :=
  check (decide (s.params.dim < d.ncols)) .countRange s <|
  check (d.isAcc && d.full) .fullWithPooling s <|
  forRange s.cfg.pool.porows.toNat (fun porow =>
    forRange s.cfg.pool.pocols.toNat (fun pocol =>
      forRange d.ncols (fun ch => pooledCell addr d porow pocol ch))) s

/-- The plain path of `MoveOut`, pooling off (R145). -/
def plainMoveOut (addr : Word) (d : AddrOperand) (s : State) : Res :=
  check (decide (s.params.dim < d.nrows)) .countRange s <|
  forRange d.nrows (fun r => forRange d.ncols (fun c => moveOutCell addr d r c)) s

/-- `MoveOut(rs1, rs2)` of R145: both null tests, then the pooling path when `cfg.pool_stride` is not 0. -/
def moveOut (addr : Word) (d : AddrOperand) (s : State) : Res :=
  check d.isNull .nullOperand s <|
  check (addr == 0) .nullOperand s <|
  if s.cfg.pool.stride = 0 then plainMoveOut addr d s else pooledMoveOut addr d s

/-! ## The meanings -/

/-- `MVIN rs1, rs2`: move in with load state 0 (R142). -/
def execMvin (addr : Word) (target : AddrOperand) (s : State) : Host.Outcome State Fault Refusal :=
  (moveIn 0 addr target s).finish

/-- `MVIN2 rs1, rs2`: move in with load state 1 (R143). -/
def execMvin2 (addr : Word) (target : AddrOperand) (s : State) : Host.Outcome State Fault Refusal :=
  (moveIn 1 addr target s).finish

/-- `MVIN3 rs1, rs2`: move in with load state 2 (R144). -/
def execMvin3 (addr : Word) (target : AddrOperand) (s : State) : Host.Outcome State Fault Refusal :=
  (moveIn 2 addr target s).finish

/-- `MVOUT rs1, rs2`: move out from a bank to DRAM (R145). -/
def execMvout (addr : Word) (source : AddrOperand) (s : State) : Host.Outcome State Fault Refusal :=
  (moveOut addr source s).finish

end Sys2Proof.Machine
end

