-- ==== Sys2Proof/Machine/FlushFence.lean ====
section
/-!
DEFINITION. Machine/FlushFence.lean: the two commands that do nothing (46_flush_fence.md). Every earlier command is
already complete when they start, so there is nothing for them to wait for (R74, R79).
-/

namespace Sys2Proof.Machine

/-- `FLUSH rs1, rs2`: no operation (R280). -/
def execFlush (s : State) : Host.Outcome State Fault Refusal := (Res.done s).finish

/-- `FENCE rs1, rs2`: no operation (R281). -/
def execFence (s : State) : Host.Outcome State Fault Refusal := (Res.done s).finish

end Sys2Proof.Machine
end

