-- ==== Sys2Proof/Machine/Tiling.lean ====
section
/-!
DEFINITION. Machine/Tiling.lean: the tiled-GEMM sequencer (45_tiling.md): the five commands that write the tiling
record (R251 to R255) and `LOOP_WS` (R256 to R258), which does everything by calling the primitives of the data mover
and the compute engine unchanged.
-/

namespace Sys2Proof.Machine

/-! ## Sizes and places -/

/-- `rowsI(i)`: DIM rows, less `pad_I` for the last tile (R258). -/
def rowsI (s : State) (i : Nat) : Nat :=
  s.params.dim - (if i + 1 = s.lw.bounds.tilesI.toNat then s.lw.bounds.padI.toNat else 0)

/-- `colsJ(j)` (R258). -/
def colsJ (s : State) (j : Nat) : Nat :=
  s.params.dim - (if j + 1 = s.lw.bounds.tilesJ.toNat then s.lw.bounds.padJ.toNat else 0)

/-- `dimK(k)` (R258). -/
def dimK (s : State) (k : Nat) : Nat :=
  s.params.dim - (if k + 1 = s.lw.bounds.tilesK.toNat then s.lw.bounds.padK.toNat else 0)

/-- First scratchpad row of A tile (i, k) (R256). -/
def aTileRow (s : State) (i k : Nat) : Nat := (i * s.lw.bounds.tilesK.toNat + k) * s.params.dim

/-- First scratchpad row of B tile (k, j): the B tiles end at row `SP_ROWS/2 - 1` (R256). -/
def bTileRow (s : State) (k j : Nat) : Nat :=
  s.params.spRows / 2 - s.lw.bounds.tilesK.toNat * s.lw.bounds.tilesJ.toNat * s.params.dim +
    (k * s.lw.bounds.tilesJ.toNat + j) * s.params.dim

/-- First accumulator row of D and C tile (i, j) (R256). -/
def cTileRow (s : State) (i j : Nat) : Nat := (i * s.lw.bounds.tilesJ.toNat + j) * s.params.dim

/-- The DRAM byte address of tile (x, y) of a matrix: pitches and tile indices count entries (R254, R258). -/
def tileAddress (s : State) (base pitch : Word) (x y size : Nat) : Word :=
  dramAddress (base.toNat + (x * pitch.toNat + y) * s.params.dim * size)

/-- `sizeof_D` (R257, R258). -/
def sizeofD (s : State) (f : LoopFlags) : Nat := if f.lowD then s.params.elemBytes else s.params.accBytes

/-- `sizeof_C` (R257, R258). -/
def sizeofC (s : State) (f : LoopFlags) : Nat := if f.fullC then s.params.accBytes else s.params.elemBytes

/-! ## The primitive calls of one iteration -/

/-- The bias move of phase 1 for tile (i, j) (R258). -/
def loopBias (f : LoopFlags) (i j : Nat) (s : State) : Res :=
  moveIn 2 (tileAddress s s.lw.d s.lw.dStride i j (sizeofD s f))
    (AddrOperand.accw (cTileRow s i j) (rowsI s i) (colsJ s j)) s

/-- Move in A tile (i, k) when j = 0 (R258). -/
def loopMoveA (i j k : Nat) (s : State) : Res :=
  if j = 0 then
    moveIn 0 (tileAddress s s.lw.a s.lw.aStride i k s.params.elemBytes)
      (AddrOperand.spad (aTileRow s i k) (rowsI s i) (dimK s k)) s
  else .done s

/-- Move in B tile (k, j) when i = 0 (R258). -/
def loopMoveB (i j k : Nat) (s : State) : Res :=
  if i = 0 then
    moveIn 1 (tileAddress s s.lw.b s.lw.bStride k j s.params.elemBytes)
      (AddrOperand.spad (bTileRow s k j) (dimK s k) (colsJ s j)) s
  else .done s

/-- The destination recorded for iteration (i, j, k): overwriting only on the first k, without bias and without
`ex_accumulate` (R258). -/
def loopDestination (f : LoopFlags) (i j k : Nat) (s : State) : AddrOperand :=
  if s.lw.d = 0 ∧ f.exAccumulate = false ∧ k = 0 then AddrOperand.accw (cTileRow s i j) (rowsI s i) (colsJ s j)
  else AddrOperand.acca (cTileRow s i j) (rowsI s i) (colsJ s j)

/-- The tile recorded for iteration (i, j, k): the weight tile when i = 0, null otherwise (R258, C2). -/
def loopSource (i j k : Nat) (s : State) : AddrOperand :=
  if i = 0 then AddrOperand.spad (bTileRow s k j) (dimK s k) (colsJ s j)
  else AddrOperand.nulla (dimK s k) (colsJ s j)

/-- `Preload(src, dst)` of iteration (i, j, k) (R258). -/
def loopPreload (f : LoopFlags) (i j k : Nat) (s : State) : Res :=
  preloadRecord (loopSource i j k s) (loopDestination f i j k s) s

/-- `Compute` of iteration (i, k), with the preload step when i = 0 (R258). -/
def loopCompute (i k : Nat) (s : State) : Res :=
  compute (AddrOperand.spad (aTileRow s i k) (rowsI s i) (dimK s k))
    (AddrOperand.nulla s.params.dim s.params.dim) (i == 0) s

/-- Move out C tile (i, j) on the last k, unless there is no output (R258). -/
def loopMoveC (f : LoopFlags) (i j k : Nat) (s : State) : Res :=
  if s.lw.c ≠ 0 ∧ k + 1 = s.lw.bounds.tilesK.toNat then
    moveOut (tileAddress s s.lw.c s.lw.cStride i j (sizeofC s f))
      (if f.fullC then AddrOperand.accf (cTileRow s i j) (rowsI s i) (colsJ s j)
        else AddrOperand.accw (cTileRow s i j) (rowsI s i) (colsJ s j)) s
  else .done s

/-- The body of phase 2 for (k, j, i), its primitive calls in order (R258). -/
def loopBody (f : LoopFlags) (k j i : Nat) (s : State) : Res :=
  ((((loopMoveA i j k s).andThen (loopMoveB i j k)).andThen (loopPreload f i j k)).andThen (loopCompute i k)).andThen
    (loopMoveC f i j k)

/-! ## LOOP_WS -/

/-- Phase 1: the bias tiles, unless there is no bias (R258). -/
def loopPhase1 (f : LoopFlags) (s : State) : Res :=
  if s.lw.d ≠ 0 then
    forRange s.lw.bounds.tilesI.toNat (fun i => forRange s.lw.bounds.tilesJ.toNat (fun j => loopBias f i j)) s
  else .done s

/-- Phase 2: k outer, j middle, i inner (R258). -/
def loopPhase2 (f : LoopFlags) (s : State) : Res :=
  forRange s.lw.bounds.tilesK.toNat (fun k =>
    forRange s.lw.bounds.tilesJ.toNat (fun j =>
      forRange s.lw.bounds.tilesI.toNat (fun i => loopBody f k j i))) s

/-- The tiles exceed half of a bank (R256, R258), on mathematical integers. -/
def tilesTooMany (p : Params) (b : LoopBounds) : Bool :=
  decide (p.spRows / 2 < (b.tilesI.toNat * b.tilesK.toNat + b.tilesK.toNat * b.tilesJ.toNat) * p.dim) ||
  decide (p.accRows / 2 < b.tilesI.toNat * b.tilesJ.toNat * p.dim)

/-- A padding exceeds DIM (R258). -/
def paddingTooLarge (p : Params) (b : LoopBounds) : Bool :=
  decide (p.dim < b.padI.toNat) || decide (p.dim < b.padJ.toNat) || decide (p.dim < b.padK.toNat)

/-- `LoopWs(rs1, rs2)` of R258: the three checks, then the two phases. -/
def loopWs (f : LoopFlags) (s : State) : Res :=
  check (s.cfg.dataflow != .ws || s.cfg.aTranspose || s.cfg.bTranspose) .loopNeedsWS s <|
  check (paddingTooLarge s.params s.lw.bounds) .countRange s <|
  check (tilesTooMany s.params s.lw.bounds) .tileBounds s <|
  (loopPhase1 f s).andThen (loopPhase2 f)

/-! ## The meanings -/

/-- `LOOP_WS rs1, rs2` (R258). -/
def execLoopWs (flags : LoopFlags) (s : State) : Host.Outcome State Fault Refusal := (loopWs flags s).finish

/-- `LOOP_WS_CONFIG_BOUNDS rs1, rs2` (R251). -/
def execLoopWsConfigBounds (b : LoopBounds) (s : State) : Host.Outcome State Fault Refusal :=
  (Res.done (s.withLw { s.lw with bounds := b })).finish

/-- `LOOP_WS_CONFIG_ADDRS_AB rs1, rs2` (R252). -/
def execLoopWsConfigAddrsAb (a b : Word) (s : State) : Host.Outcome State Fault Refusal :=
  (Res.done (s.withLw { s.lw with a := a, b := b })).finish

/-- `LOOP_WS_CONFIG_ADDRS_DC rs1, rs2` (R253). -/
def execLoopWsConfigAddrsDc (d c : Word) (s : State) : Host.Outcome State Fault Refusal :=
  (Res.done (s.withLw { s.lw with d := d, c := c })).finish

/-- `LOOP_WS_CONFIG_STRIDES_AB rs1, rs2` (R254). -/
def execLoopWsConfigStridesAb (a b : Word) (s : State) : Host.Outcome State Fault Refusal :=
  (Res.done (s.withLw { s.lw with aStride := a, bStride := b })).finish

/-- `LOOP_WS_CONFIG_STRIDES_DC rs1, rs2` (R255). -/
def execLoopWsConfigStridesDc (d c : Word) (s : State) : Host.Outcome State Fault Refusal :=
  (Res.done (s.withLw { s.lw with dStride := d, cStride := c })).finish

end Sys2Proof.Machine
end

