-- ==== Sys2Proof/Machine/Dispatch.lean ====
section
/-!
DEFINITION. Machine/Dispatch.lean: one arm per constructor of Instr, each one direct call of its meaning.
-/

namespace Sys2Proof.Machine

def exec (i : Instr) (s : State) : Host.Outcome State Fault Refusal :=
  match i with
  | .configEx w => Sys2Proof.Machine.execConfigEx w s
  | .configLd w => Sys2Proof.Machine.execConfigLd w s
  | .configSt w => Sys2Proof.Machine.execConfigSt w s
  | .mvin2 addr target => Sys2Proof.Machine.execMvin2 addr target s
  | .mvin addr target => Sys2Proof.Machine.execMvin addr target s
  | .mvout addr source => Sys2Proof.Machine.execMvout addr source s
  | .computePreloaded a bd => Sys2Proof.Machine.execComputePreloaded a bd s
  | .computeAccumulated a bd => Sys2Proof.Machine.execComputeAccumulated a bd s
  | .preload src dst => Sys2Proof.Machine.execPreload src dst s
  | .flush => Sys2Proof.Machine.execFlush s
  | .loopWs flags => Sys2Proof.Machine.execLoopWs flags s
  | .loopWsConfigBounds b => Sys2Proof.Machine.execLoopWsConfigBounds b s
  | .loopWsConfigAddrsAb a b => Sys2Proof.Machine.execLoopWsConfigAddrsAb a b s
  | .loopWsConfigAddrsDc d c => Sys2Proof.Machine.execLoopWsConfigAddrsDc d c s
  | .loopWsConfigStridesAb a b => Sys2Proof.Machine.execLoopWsConfigStridesAb a b s
  | .loopWsConfigStridesDc d c => Sys2Proof.Machine.execLoopWsConfigStridesDc d c s
  | .mvin3 addr target => Sys2Proof.Machine.execMvin3 addr target s
  | .fence => Sys2Proof.Machine.execFence s

end Sys2Proof.Machine
end

