-- ==== Sys2Proof/Decode.lean ====
section
/-!
DEFINITION. Decode.lean: from a command to an instruction (R90 to R101, R104, R120, R121, R220, R223, R225, R251 to
R257), total on every command word and rejecting by name; and, after it, the encoder, written from the same tables.
-/

namespace Sys2Proof

/-! ## The command word -/

/-- `cmd[134:128] = funct`, `cmd[127:64] = rs1`, `cmd[63:0] = rs2` (R90). -/
def Command.ofWord (w : CommandWord) : Command where
  funct := w.extractLsb' 128 7
  rs1 := w.extractLsb' 64 64
  rs2 := w.extractLsb' 0 64

/-- The 135-bit command word (R90). -/
def Command.toWord (c : Command) : CommandWord :=
  (c.funct ++ c.rs1 ++ c.rs2 : BitVec (7 + 64 + 64))

/-! ## Decoding operand fields -/

/-- `AddrDecode(op)` of R121: it never fails; `is_null` and `addr32` are computed from the six fields. -/
def AddrOperand.decode (op : Word) : AddrOperand where
  rows := op.extractLsb' 48 16
  cols := op.extractLsb' 32 16
  isAcc := op.getLsbD 31
  accumulate := op.getLsbD 30
  full := op.getLsbD 29
  row := op.extractLsb' 0 29

/-- The dataflow bit: 0 = OS, 1 = WS (R220). -/
def Dataflow.decode (b : Bool) : Dataflow := if b then .ws else .os

/-- The operands of `CONFIG_EX` (R220); reserved bits are ignored (R96). -/
def ExConfig.decode (rs1 rs2 : Word) : ExConfig where
  dataflow := Dataflow.decode (rs1.getLsbD 2)
  act := rs1.extractLsb' 3 2
  aTranspose := rs1.getLsbD 8
  bTranspose := rs1.getLsbD 9
  aStride := rs1.extractLsb' 16 16
  accShift := rs1.extractLsb' 32 32
  sysShift := rs2.extractLsb' 0 32
  relu6Shift := rs2.extractLsb' 32 32

/-- The operands of `CONFIG_LD` (R223). -/
def LdConfig.decode (rs1 rs2 : Word) : LdConfig where
  shrunk := rs1.getLsbD 2
  stateId := rs1.extractLsb' 3 2
  scale := rs1.extractLsb' 32 32
  stride := rs2

/-- The pooling fields of `rs1` of `CONFIG_ST` (R225). -/
def Pooling.decode (rs1 : Word) : Pooling where
  stride := rs1.extractLsb' 4 2
  size := rs1.extractLsb' 6 2
  upad := rs1.extractLsb' 8 2
  lpad := rs1.extractLsb' 10 2
  outDim := rs1.extractLsb' 24 8
  porows := rs1.extractLsb' 32 8
  pocols := rs1.extractLsb' 40 8
  orows := rs1.extractLsb' 48 8
  ocols := rs1.extractLsb' 56 8

/-- The operands of `CONFIG_ST` (R225). -/
def StConfig.decode (rs1 rs2 : Word) : StConfig where
  act := rs1.extractLsb' 2 2
  pool := Pooling.decode rs1
  stride := rs2.extractLsb' 0 32
  scale := rs2.extractLsb' 32 32

/-- The operands of `LOOP_WS_CONFIG_BOUNDS` (R251). -/
def LoopBounds.decode (rs1 rs2 : Word) : LoopBounds where
  padI := rs1.extractLsb' 0 16
  padJ := rs1.extractLsb' 16 16
  padK := rs1.extractLsb' 32 16
  tilesI := rs2.extractLsb' 0 16
  tilesJ := rs2.extractLsb' 16 16
  tilesK := rs2.extractLsb' 32 16

/-- `rs1` of `LOOP_WS` (R257). -/
def LoopFlags.decode (rs1 : Word) : LoopFlags where
  exAccumulate := rs1.getLsbD 0
  fullC := rs1.getLsbD 1
  lowD := rs1.getLsbD 2

/-! ## Decoding a command -/

/-- The two ways a command word selects no command. -/
inductive DecodeError where
  /-- funct has no row in the table of R91: 15 to 126 (R98). -/
  | unknownFunct
  /-- funct 0 with `rs1[1:0] = 3` (R95, R227). -/
  | reservedSubcommand
  deriving DecidableEq, Repr

/-- Funct 0 carries three commands, selected by `rs1[1:0]` (R95). -/
def decodeConfig (rs1 rs2 : Word) : Except DecodeError Instr :=
  match (rs1.extractLsb' 0 2).toNat with
  | 0 => .ok (.configEx (ExConfig.decode rs1 rs2))
  | 1 => .ok (.configLd (LdConfig.decode rs1 rs2))
  | 2 => .ok (.configSt (StConfig.decode rs1 rs2))
  | _ => .error .reservedSubcommand

/-- The decoding procedure of R97, after the fault latch has been looked at: the funct map of R91, and for funct 0 the
selector of R95. It uses only `funct` and, for funct 0, `rs1[1:0]`. -/
def decode (c : Command) : Except DecodeError Instr :=
  match c.funct.toNat with
  | 0 => decodeConfig c.rs1 c.rs2
  | 1 => .ok (.mvin2 c.rs1 (AddrOperand.decode c.rs2))
  | 2 => .ok (.mvin c.rs1 (AddrOperand.decode c.rs2))
  | 3 => .ok (.mvout c.rs1 (AddrOperand.decode c.rs2))
  | 4 => .ok (.computePreloaded (AddrOperand.decode c.rs1) (AddrOperand.decode c.rs2))
  | 5 => .ok (.computeAccumulated (AddrOperand.decode c.rs1) (AddrOperand.decode c.rs2))
  | 6 => .ok (.preload (AddrOperand.decode c.rs1) (AddrOperand.decode c.rs2))
  | 7 => .ok .flush
  | 8 => .ok (.loopWs (LoopFlags.decode c.rs1))
  | 9 => .ok (.loopWsConfigBounds (LoopBounds.decode c.rs1 c.rs2))
  | 10 => .ok (.loopWsConfigAddrsAb c.rs1 c.rs2)
  | 11 => .ok (.loopWsConfigAddrsDc c.rs1 c.rs2)
  | 12 => .ok (.loopWsConfigStridesAb c.rs1 c.rs2)
  | 13 => .ok (.loopWsConfigStridesDc c.rs1 c.rs2)
  | 14 => .ok (.mvin3 c.rs1 (AddrOperand.decode c.rs2))
  | 127 => .ok .fence
  | _ => .error .unknownFunct

/-- The command of a table row's bits: bit 0 is the least significant bit, `nbits` bits are given, and every bit of the
command above them is 0. The command has 135 bits, so bit 135 of a 136-bit row is no bit of it. -/
def Command.ofTable (nbits w : Nat) : Command := Command.ofWord (BitVec.ofNat 135 (w % 2 ^ nbits))

/-- The instruction the decoder reads from a table row's bits, none where it refuses. -/
def decodeTableWord (nbits w : Nat) : Option Instr :=
  match decode (Command.ofTable nbits w) with
  | .ok i => some i
  | .error _ => none

/-! ## The encoder -/

/-- `AddrEncode` of R122: the inverse of `AddrDecode`; every bit of the operand belongs to exactly one field. -/
def AddrOperand.encode (o : AddrOperand) : Word :=
  (o.rows ++ o.cols ++ BitVec.ofBool o.isAcc ++ BitVec.ofBool o.accumulate ++ BitVec.ofBool o.full ++ o.row :
    BitVec (16 + 16 + 1 + 1 + 1 + 29))

/-- The dataflow bit (R220). -/
def Dataflow.encode : Dataflow → Bool
  | .os => false
  | .ws => true

/-- `rs1` of `CONFIG_EX`: the constructor `EX1` of R103. -/
def ExConfig.rs1 (w : ExConfig) : Word :=
  (w.accShift ++ w.aStride ++ 0#6 ++ BitVec.ofBool w.bTranspose ++ BitVec.ofBool w.aTranspose ++ 0#3 ++ w.act ++
    BitVec.ofBool w.dataflow.encode ++ 0#2 : BitVec (32 + 16 + 6 + 1 + 1 + 3 + 2 + 1 + 2))

/-- `rs2` of `CONFIG_EX`: the constructor `EX2` of R103. -/
def ExConfig.rs2 (w : ExConfig) : Word := (w.relu6Shift ++ w.sysShift : BitVec (32 + 32))

/-- `rs1` of `CONFIG_LD`: the constructor `LD1` of R103. -/
def LdConfig.rs1 (w : LdConfig) : Word :=
  (w.scale ++ 0#27 ++ w.stateId ++ BitVec.ofBool w.shrunk ++ 1#2 : BitVec (32 + 27 + 2 + 1 + 2))

/-- `rs1` of `CONFIG_ST`: the constructor `ST1` of R103. -/
def StConfig.rs1 (w : StConfig) : Word :=
  (w.pool.ocols ++ w.pool.orows ++ w.pool.pocols ++ w.pool.porows ++ w.pool.outDim ++ 0#12 ++ w.pool.lpad ++
    w.pool.upad ++ w.pool.size ++ w.pool.stride ++ w.act ++ 2#2 :
    BitVec (8 + 8 + 8 + 8 + 8 + 12 + 2 + 2 + 2 + 2 + 2 + 2))

/-- `rs2` of `CONFIG_ST`: the constructor `ST2` of R103. -/
def StConfig.rs2 (w : StConfig) : Word := (w.scale ++ w.stride : BitVec (32 + 32))

/-- `rs1` of `LOOP_WS_CONFIG_BOUNDS`: the constructor `BOUNDS` of R103. -/
def LoopBounds.rs1 (b : LoopBounds) : Word := (0#16 ++ b.padK ++ b.padJ ++ b.padI : BitVec (16 + 16 + 16 + 16))

/-- `rs2` of `LOOP_WS_CONFIG_BOUNDS`. -/
def LoopBounds.rs2 (b : LoopBounds) : Word := (0#16 ++ b.tilesK ++ b.tilesJ ++ b.tilesI : BitVec (16 + 16 + 16 + 16))

/-- `rs1` of `LOOP_WS`: the constructor `LWF` of R103. -/
def LoopFlags.rs1 (f : LoopFlags) : Word :=
  (0#61 ++ BitVec.ofBool f.lowD ++ BitVec.ofBool f.fullC ++ BitVec.ofBool f.exAccumulate : BitVec (61 + 1 + 1 + 1))

/-- The command of an instruction (R91, R104); reserved bits and ignored operands are 0 (R96). -/
def encode : Instr → Command
  | .configEx w => ⟨0, w.rs1, w.rs2⟩
  | .configLd w => ⟨0, w.rs1, w.stride⟩
  | .configSt w => ⟨0, w.rs1, w.rs2⟩
  | .mvin2 addr d => ⟨1, addr, d.encode⟩
  | .mvin addr d => ⟨2, addr, d.encode⟩
  | .mvout addr d => ⟨3, addr, d.encode⟩
  | .computePreloaded a bd => ⟨4, a.encode, bd.encode⟩
  | .computeAccumulated a bd => ⟨5, a.encode, bd.encode⟩
  | .preload src dst => ⟨6, src.encode, dst.encode⟩
  | .flush => ⟨7, 0, 0⟩
  | .loopWs f => ⟨8, f.rs1, 0⟩
  | .loopWsConfigBounds b => ⟨9, b.rs1, b.rs2⟩
  | .loopWsConfigAddrsAb a b => ⟨10, a, b⟩
  | .loopWsConfigAddrsDc d c => ⟨11, d, c⟩
  | .loopWsConfigStridesAb a b => ⟨12, a, b⟩
  | .loopWsConfigStridesDc d c => ⟨13, d, c⟩
  | .mvin3 addr d => ⟨14, addr, d.encode⟩
  | .fence => ⟨127, 0, 0⟩

/-- The command word of an instruction (R90). -/
def encodeWord (i : Instr) : CommandWord := (encode i).toWord

/-! ## The dispatcher's table hook -/

/-- What the "get primitive instructions" hook of R325 returns: the funct values the block takes, with the mnemonics of
R91. It changes no state. -/
def primitiveInstructions : List (BitVec 7 × String) :=
  [(0, "CONFIG_EX"), (0, "CONFIG_LD"), (0, "CONFIG_ST"), (1, "MVIN2"), (2, "MVIN"), (3, "MVOUT"),
   (4, "COMPUTE_PRELOADED"), (5, "COMPUTE_ACCUMULATED"), (6, "PRELOAD"), (7, "FLUSH"), (8, "LOOP_WS"),
   (9, "LOOP_WS_CONFIG_BOUNDS"), (10, "LOOP_WS_CONFIG_ADDRS_AB"), (11, "LOOP_WS_CONFIG_ADDRS_DC"),
   (12, "LOOP_WS_CONFIG_STRIDES_AB"), (13, "LOOP_WS_CONFIG_STRIDES_DC"), (14, "MVIN3"), (127, "FENCE")]

end Sys2Proof
end

