-- ==== Sys2Proof/Machine/Fetch.lean ====
section
/-!
DEFINITION. Machine/Fetch.lean: how the block comes by its next command. It has no program counter and fetches nothing
(R21): the host presents commands in program order, and between two of them it may run the reset hook or store to DRAM
(R74, R75, R340). `State.host` lists the host's actions still to come.
-/

namespace Sys2Proof.Machine

/-- What the next host action means to the block. -/
inductive Fetched where
  /-- nothing is presented: the block is idle and holds all its state (R326, R342) -/
  | idle
  /-- a command is presented while the fault latch is set: it is not taken (R306, R308) -/
  | notTaken (e : FatalError)
  /-- the action was carried out without running an instruction -/
  | acted (s : State)
  /-- a command was taken and decoded; the state no longer lists it -/
  | run (i : Instr) (s : State)
  deriving DecidableEq, Repr

/-- The error of a command word that selects no command (R98, R227). -/
def decodeErrorOf (e : DecodeError) : Error :=
  match e with
  | .unknownFunct => .unknownInstruction
  | .reservedSubcommand => .fatal (.configurationViolation .reservedSubcommand)

/-- A command the block takes: decoded, or rejected with the error its rejection raises (R97, R98, R227). -/
def takeCommand (c : Command) (s : State) : Fetched :=
  match decode c with
  | .ok i => .run i s
  | .error e => .acted (s.takeError (decodeErrorOf e))

/-- A command is looked at only while the block is Running (R97, R306). -/
def presentCommand (c : Command) (s : State) : Fetched :=
  match s.status with
  | .faulted e => .notTaken e
  | .running => takeCommand c s

/-- The next host action, taken off the list. -/
def fetch (s : State) : Fetched :=
  match s.host with
  | [] => .idle
  | .command c :: rest => presentCommand c (s.withHost rest)
  | .resetHook :: rest => .acted (s.withHost rest).takeReset
  | .store addr v :: rest => .acted ((s.withHost rest).putByte addr.toNat v)

/-- The command of a table row's bits, presented next, before the host's other actions. -/
def presentTableWord (s : State) (nbits w : Nat) : State :=
  s.withHost (.command (Command.ofTable nbits w) :: s.host)

end Sys2Proof.Machine
end

