-- ==== Sys2Proof/Machine/Step.lean ====
section
/-!
DEFINITION. Machine/Step.lean: one step is one action of the host, carried out in full (R74): a whole command, the
reset hook, a store to DRAM, or nothing. All of its parts are defined in Machine/Fetch.lean and in exec.
-/

namespace Sys2Proof.Machine

/-- One step of the machine. -/
def step (s : State) : Host.Outcome State Fault Refusal :=
  match fetch s with
  | .idle => .next s
  | .notTaken e => .fault (.blockFaulted e)
  | .acted s' => .next s'
  | .run i s' => exec i s'

/-- The state with the given table row's instruction as the next command the host presents. -/
def State.withFetchWord (s : State) (nbits w : Nat) : State := presentTableWord s nbits w

end Sys2Proof.Machine
end

