-- ==== Sys2Proof/Safety.lean ====
section
/-!
DEFINITION. Safety.lean: the words the claims are made in. The consistency of a state (what holds at reset and in every
state a step leads to), what it is to run a list of commands without an error, and, independent of the loops of the
meanings, the values the rules give: a little-endian DRAM value, the logical operand matrices, the max over a pooling
window, the list of primitive commands `LOOP_WS` stands for.
-/

namespace Sys2Proof.Machine

/-! ## Consistent states -/

/-- Every listed cell lies inside `rows` rows of `dim` columns and is a signed integer of n bits, not 0; keys rise
(R23, R24, R25). -/
def Bank.fits (b : Bank) (n rows dim : Nat) : Bool :=
  sparseWf 0 b && b.all fun cell => decide (cell.1 < rows * dim) && fitsIn n cell.2

/-- DRAM is in its canonical form and lists 64-bit addresses only (R60, R62). -/
def Memory.inSpace (m : Memory) : Bool := Memory.wf m && m.all fun cell => decide (cell.1 < 2 ^ 64)

/-- What the configuration commands never let a configuration hold otherwise: shifts below ACC_BITS (R30 to R32), finite
scales (R33, R37), no forbidden transpose triple (R34, R222), no empty window with pooling on (R40, R226). -/
def Cfg.legal (p : Params) (c : Cfg) : Bool :=
  !shiftTooLarge p c.sysShift && !shiftTooLarge p c.accShift && !shiftTooLarge p c.relu6Shift &&
  !scaleNotFinite c.accScale &&
  !scaleNotFinite c.load0.scale && !scaleNotFinite c.load1.scale && !scaleNotFinite c.load2.scale &&
  !transposeForbidden c.dataflow c.aTranspose c.bTranspose && !poolWindowEmpty c.pool

/-- The extent of a recorded tile that is not null is at most DIM by DIM (R42). -/
def TileRef.fits (p : Params) (t : TileRef) : Bool :=
  t.isNull || (decide (t.rows.toNat ≤ p.dim) && decide (t.cols.toNat ≤ p.dim))

/-- The invariant of the block. -/
def State.consistent (s : State) : Bool :=
  s.params.legal && Memory.inSpace s.dram &&
  Bank.fits s.sp s.params.elemBits s.params.spRows s.params.dim &&
  Bank.fits s.acc s.params.accBits s.params.accRows s.params.dim &&
  Bank.fits s.pe s.params.accBits s.params.dim s.params.dim &&
  s.cfg.legal s.params &&
  s.pre.fits s.params && (s.pre.isNull || !s.pre.toAcc) && s.out.fits s.params

/-! ## Safe runs -/

/-- The instructions of a list in program order, each whole, ending at the first that reports an error or stops
(R74, R75). -/
def runProgram : List Instr → State → Host.Outcome State Fault Refusal
  | [], s => .next s
  | i :: rest, s =>
      match exec i s with
      | .next t => if t.report = none then runProgram rest t else .next t
      | .fault f => .fault f
      | .refused r => .refused r

/-- A safe run: every instruction completes and none reports an error. -/
def runsSafely (program : List Instr) (s : State) : Prop := ∃ t, runProgram program s = .next t ∧ t.report = none

/-- The three move-in commands by their load state (R142, R143, R144). -/
def mvinOf (k : Fin 3) (addr : Word) (target : AddrOperand) : Instr :=
  match k with
  | 0 => .mvin addr target
  | 1 => .mvin2 addr target
  | 2 => .mvin3 addr target

/-- The two compute commands by their flag `do_preload` (R170). -/
def computeOf (doPreload : Bool) (a bd : AddrOperand) : Instr :=
  if doPreload then .computePreloaded a bd else .computeAccumulated a bd

/-- `s'` is `s` after a command without error, apart from DRAM, the banks, PE and the preload record: these may differ,
nothing else does. -/
def onlyDataChanged (s s' : State) : Prop :=
  s' = (((((s.withReport none).withDram s'.dram).withSp s'.sp).withAcc s'.acc).withPe s'.pe).withPreload s'.pre s'.out

/-! ## DRAM -/

/-- Every byte of the n bytes at an address is admitted by the platform (R65). -/
def reachable (p : Params) (addr : Word) (n : Nat) : Prop := ∀ b < n, dramAdmit p (byteAddress addr b) = true

/-- The n-byte little-endian unsigned value at a DRAM address (R63). -/
def State.wordAt (s : State) (addr : Word) (n : Nat) : Nat :=
  ∑ b ∈ Finset.range n, (s.byteAt (byteAddress addr b)).toNat * 2 ^ (8 * b)

/-- Byte b of a pattern, least significant first (R64). -/
def byteOf (v b : Nat) : Byte := BitVec.ofNat 8 (v / 2 ^ (8 * b))

/-! ## The data mover -/

/-- Every bank row a transfer of the declared extent touches lies in the bank (R66). -/
def transferInRange (p : Params) (d : AddrOperand) : Prop :=
  ∀ r < d.nrows, ∀ c < d.ncols, transferRow p d r c < extentOf p d.isAcc

/-- Iteration (r, c) of a nest of two loops runs before iteration (r', c') (R76). -/
def runsBefore (r c r' c' : Nat) : Prop := r < r' ∨ r = r' ∧ c < c'

/-- The DRAM address of source element (r, c) of a move-in whose elements are n bytes long (R140). -/
def sourceAddress (s : State) (k : Fin 3) (addr : Word) (n r c : Nat) : Word :=
  dramAddress (addr.toNat + r * (s.cfg.load k).stride.toNat + c * n)

/-- Source element (r, c) of a move-in whose elements are n bytes long: 0 for the null DRAM address (R141), else the
signed n-byte value in DRAM (R140). -/
def sourceElement (s : State) (k : Fin 3) (addr : Word) (n r c : Nat) : Int :=
  if addr = 0 then 0 else sextFrom (8 * n) (s.wordAt (sourceAddress s k addr n r c) n)

/-- Source element (r, c) at the element size the move-in takes (R140). -/
def sourceValue (s : State) (k : Fin 3) (addr : Word) (d : AddrOperand) (r c : Nat) : Int :=
  sourceElement s k addr (moveInBytes s.params (s.cfg.load k) d) r c

/-- Every DRAM byte of the elements of a move-in, n bytes each, is admitted; a move-in from the null DRAM address
touches none (R141). -/
def sourceReachable (s : State) (k : Fin 3) (addr : Word) (d : AddrOperand) (n : Nat) : Prop :=
  addr ≠ 0 → ∀ r < d.nrows, ∀ c < d.ncols, reachable s.params (sourceAddress s k addr n r c) n

/-- The same at the element size the move-in takes. -/
def moveInReachable (s : State) (k : Fin 3) (addr : Word) (d : AddrOperand) : Prop :=
  sourceReachable s k addr d (moveInBytes s.params (s.cfg.load k) d)

/-- What the target cell of element (r, c) holds after a move-in that reaches it: the scaled and saturated value, or its
wrapped sum with the old contents (R140). -/
def movedValue (s : State) (k : Fin 3) (addr : Word) (d : AddrOperand) (r c : Nat) : Int :=
  let scale := (s.cfg.load k).scale
  if d.isAcc then
    if d.accumulate then
      wrapTo s.params.accBits (s.accAt (transferRow s.params d r c) (transferCol s.params c) +
        scaleSat s.params.accBits (sourceValue s k addr d r c) scale)
    else scaleSat s.params.accBits (sourceValue s k addr d r c) scale
  else scaleSat s.params.elemBits (sourceValue s k addr d r c) scale

/-- Cell (row, col) of the target bank is the one of some element of the transfer. -/
def isTarget (p : Params) (d : AddrOperand) (r c row col : Nat) : Prop :=
  row = transferRow p d r c ∧ col = transferCol p c

/-- The DRAM address of byte b of output element (r, c) of a move-out (R145, R64). -/
def moveOutByte (s : State) (addr : Word) (d : AddrOperand) (r c b : Nat) : Nat :=
  byteAddress (moveOutAddress s addr d r c) b

/-- The value a bank holds for element (r, c) of a transfer. -/
def transferCell (s : State) (d : AddrOperand) (r c : Nat) : Int :=
  if d.isAcc then s.accAt (transferRow s.params d r c) (transferCol s.params c)
  else s.spAt (transferRow s.params d r c) (transferCol s.params c)

/-- Every DRAM byte of a move-out is admitted. -/
def moveOutReachable (s : State) (addr : Word) (d : AddrOperand) : Prop :=
  ∀ r < d.nrows, ∀ c < d.ncols, reachable s.params (moveOutAddress s addr d r c) (moveOutBytes s.params d)

/-- The image value at a window position of the pooling path, 0 outside the image (R146). -/
def windowValue (s : State) (d : AddrOperand) (ch : Nat) (orow ocol : Int) : Int :=
  if 0 ≤ orow ∧ 0 ≤ ocol ∧ orow < s.cfg.pool.orows.toNat ∧ ocol < s.cfg.pool.ocols.toNat then
    let row := d.base + orow.toNat * s.cfg.pool.ocols.toNat + ocol.toNat
    if d.isAcc then accReadout s.params s.cfg (s.accAt row ch) else s.spAt row ch
  else 0

/-- Input row of window row `w` of output row `o` (R146). -/
def windowRow (g : Pooling) (o w : Nat) : Int := (o * g.stride.toNat : Int) + w - g.upad.toNat

/-- Input column of window column `w` of output column `o` (R146). -/
def windowCol (g : Pooling) (o w : Nat) : Int := (o * g.stride.toNat : Int) + w - g.lpad.toNat

/-- `m` is the maximum over the window of output position (porow, pocol) in channel ch (R146). -/
def isWindowMax (s : State) (d : AddrOperand) (porow pocol ch : Nat) (m : Int) : Prop :=
  (∀ wr < s.cfg.pool.size.toNat, ∀ wc < s.cfg.pool.size.toNat,
    windowValue s d ch (windowRow s.cfg.pool porow wr) (windowCol s.cfg.pool pocol wc) ≤ m) ∧
  ∃ wr < s.cfg.pool.size.toNat, ∃ wc < s.cfg.pool.size.toNat,
    windowValue s d ch (windowRow s.cfg.pool porow wr) (windowCol s.cfg.pool pocol wc) = m

/-- Every bank row that the window of one output position reads lies in the bank (R66, R146): the rows of its positions
that are inside the image. -/
def windowInRange (s : State) (d : AddrOperand) (porow pocol : Nat) : Prop :=
  ∀ wr < s.cfg.pool.size.toNat, ∀ wc < s.cfg.pool.size.toNat,
    0 ≤ windowRow s.cfg.pool porow wr → 0 ≤ windowCol s.cfg.pool pocol wc →
    windowRow s.cfg.pool porow wr < s.cfg.pool.orows.toNat →
    windowCol s.cfg.pool pocol wc < s.cfg.pool.ocols.toNat →
    d.base + (windowRow s.cfg.pool porow wr).toNat * s.cfg.pool.ocols.toNat +
      (windowCol s.cfg.pool pocol wc).toNat < extentOf s.params d.isAcc

/-- Every bank row the pooling path reads lies in the bank; with no channel it reads none (R66, R146). -/
def windowsInRange (s : State) (d : AddrOperand) : Prop :=
  d.ncols ≠ 0 → ∀ porow < s.cfg.pool.porows.toNat, ∀ pocol < s.cfg.pool.pocols.toNat, windowInRange s d porow pocol

/-- Every DRAM byte of a pooled move-out is admitted. -/
def pooledReachable (s : State) (addr : Word) (d : AddrOperand) : Prop :=
  ∀ porow < s.cfg.pool.porows.toNat, ∀ pocol < s.cfg.pool.pocols.toNat, ∀ ch < d.ncols,
    reachable s.params (poolAddress s addr porow pocol ch) s.params.elemBytes

/-! ## The compute engine -/

/-- Entry (i, k) of the logical A matrix (R174). -/
def entryA (s : State) (a : AddrOperand) (i k : Nat) : Int :=
  let r := if s.cfg.aTranspose then k else i
  let c := if s.cfg.aTranspose then i else k
  if a.isNull = false ∧ r < a.nrows ∧ c < a.ncols then s.spAt (a.base + s.cfg.aStride.toNat * r) c else 0

/-- Entry (k, j) of the logical B matrix, OS dataflow (R174). -/
def entryB (s : State) (b : AddrOperand) (k j : Nat) : Int :=
  let r := if s.cfg.bTranspose then j else k
  let c := if s.cfg.bTranspose then k else j
  if b.isNull = false ∧ r < b.nrows ∧ c < b.ncols then s.spAt (b.base + r) c else 0

/-- Entry (i, j) of the bias D, WS dataflow (R174). -/
def entryD (s : State) (b : AddrOperand) (i j : Nat) : Int :=
  if b.isNull = false ∧ i < b.nrows ∧ j < b.ncols then s.spAt (b.base + i) j else 0

/-- What the preload step puts into `PE[i][j]` (R173). -/
def tileEntry (s : State) (i j : Nat) : Int :=
  let swap := s.cfg.dataflow == .ws && s.cfg.bTranspose
  let r := if swap then j else i
  let c := if swap then i else j
  if s.pre.isNull = false ∧ r < s.pre.rows.toNat ∧ c < s.pre.cols.toNat then s.spAt (s.pre.base + r) c else 0

/-- `PE[i][j]` when the multiply-accumulate starts: the tile's entry after a preload step, else what it held. -/
def startPe (s : State) (doPreload : Bool) (i j : Nat) : Int :=
  if doPreload then tileEntry s i j else s.peAt i j

/-- The result of an OS compute at (i, j) (R175). -/
def osResult (s : State) (doPreload : Bool) (a b : AddrOperand) (i j : Nat) : Int :=
  wrapTo s.params.accBits
    (startPe s doPreload i j + ∑ k ∈ Finset.range s.params.dim, entryA s a i k * entryB s b k j)

/-- The result of a WS compute at (i, j) (R178). -/
def wsResult (s : State) (doPreload : Bool) (a d : AddrOperand) (i j : Nat) : Int :=
  wrapTo s.params.accBits
    (entryD s d i j + ∑ k ∈ Finset.range s.params.dim, entryA s a i k * startPe s doPreload k j)

/-- The scratchpad rows of an operand with stored rows `pitch` apart are in range (R66); an empty or null operand
touches no bank. -/
def operandInRange (p : Params) (o : AddrOperand) (pitch : Nat) : Prop :=
  o.isNull = false → o.ncols ≠ 0 → ∀ r < o.nrows, o.base + pitch * r < p.spRows

/-- The rows of the tile to preload are in range (R66, R173). -/
def tileInRange (s : State) : Prop :=
  s.pre.isNull = false → s.pre.cols.toNat ≠ 0 → ∀ r < s.pre.rows.toNat, s.pre.base + r < s.params.spRows

/-- Entry (i, k) of the logical A matrix touches no bank, or a scratchpad row that exists (R66, R174). -/
def entryAInRange (s : State) (a : AddrOperand) (i k : Nat) : Prop :=
  let r := if s.cfg.aTranspose then k else i
  let c := if s.cfg.aTranspose then i else k
  a.isNull = false → r < a.nrows → c < a.ncols → a.base + s.cfg.aStride.toNat * r < s.params.spRows

/-- Entry (k, j) of the logical B matrix touches no bank, or a scratchpad row that exists (R66, R174). -/
def entryBInRange (s : State) (b : AddrOperand) (k j : Nat) : Prop :=
  let r := if s.cfg.bTranspose then j else k
  let c := if s.cfg.bTranspose then k else j
  b.isNull = false → r < b.nrows → c < b.ncols → b.base + r < s.params.spRows

/-- Every operand read of cell (i, j) of an OS compute is in range (R175). -/
def osCellInRange (s : State) (a b : AddrOperand) (i j : Nat) : Prop :=
  ∀ k < s.params.dim, entryAInRange s a i k ∧ entryBInRange s b k j

/-- The tile read of cell (i, j) of the preload step touches no bank, or a scratchpad row that exists (R66, R173). -/
def tileEntryInRange (s : State) (i j : Nat) : Prop :=
  let swap := s.cfg.dataflow == .ws && s.cfg.bTranspose
  let r := if swap then j else i
  let c := if swap then i else j
  s.pre.isNull = false → r < s.pre.rows.toNat → c < s.pre.cols.toNat → s.pre.base + r < s.params.spRows

/-- The rows of the recorded destination are in range (R66, R179). -/
def destinationInRange (s : State) : Prop :=
  s.out.isNull = false → s.out.cols.toNat ≠ 0 →
    ∀ i < s.out.rows.toNat, s.out.base + i < extentOf s.params s.out.toAcc

/-- Cell (row, col) belongs to the recorded destination (R179, R183). -/
def inDestination (s : State) (row col : Nat) : Prop :=
  s.out.isNull = false ∧ s.out.base ≤ row ∧ row < s.out.base + s.out.rows.toNat ∧ col < s.out.cols.toNat

/-- The result write of R179 into the cells that `dest` says, from the state `s` before it to `t` after it, with result
matrix `res`: each of these cells in the scratchpad holds the quantized result, each in the accumulator the raw word or
its wrapped sum with the old contents, and every other cell of both banks is as before. -/
def resultWrittenTo (s t : State) (res : Nat → Nat → Int) (dest : Nat → Nat → Prop) : Prop :=
  (∀ row, ∀ col < s.params.dim,
    (s.out.toAcc = false → dest row col →
      t.spAt row col = sysQuantize s.params s.cfg (res (row - s.out.base) col)) ∧
    (s.out.toAcc = true → s.out.accumulate = false → dest row col →
      t.accAt row col = res (row - s.out.base) col) ∧
    (s.out.toAcc = true → s.out.accumulate = true → dest row col →
      t.accAt row col = wrapTo s.params.accBits (s.accAt row col + res (row - s.out.base) col)) ∧
    (¬ (s.out.toAcc = false ∧ dest row col) → t.spAt row col = s.spAt row col) ∧
    (¬ (s.out.toAcc = true ∧ dest row col) → t.accAt row col = s.accAt row col))

/-- The whole result write: into every cell of the recorded destination (R179). -/
def resultWritten (s t : State) (res : Nat → Nat → Int) : Prop := resultWrittenTo s t res (inDestination s)

/-- The cells a result write reaches before it leaves the bank: the destination cells whose row exists. Its rows are
written in increasing order, so these come first (R179, R307). -/
def inDestinationAndBank (s : State) (row col : Nat) : Prop :=
  inDestination s row col ∧ row < extentOf s.params s.out.toAcc

/-! ## The sequencer -/

/-- The bias moves of phase 1 of `LOOP_WS` (R258). -/
def loopBiasProgram (s : State) (f : LoopFlags) : List Instr :=
  if s.lw.d = 0 then []
  else
    (List.range s.lw.bounds.tilesI.toNat).flatMap fun i =>
      (List.range s.lw.bounds.tilesJ.toNat).map fun j =>
        .mvin3 (tileAddress s s.lw.d s.lw.dStride i j (sizeofD s f))
          (.accw (cTileRow s i j) (rowsI s i) (colsJ s j))

/-- The primitive commands of iteration (k, j, i) of phase 2 of `LOOP_WS` (R258). -/
def loopIteration (s : State) (f : LoopFlags) (k j i : Nat) : List Instr :=
  (if j = 0 then
    [.mvin (tileAddress s s.lw.a s.lw.aStride i k s.params.elemBytes)
      (.spad (aTileRow s i k) (rowsI s i) (dimK s k))]
   else []) ++
  (if i = 0 then
    [.mvin2 (tileAddress s s.lw.b s.lw.bStride k j s.params.elemBytes)
      (.spad (bTileRow s k j) (dimK s k) (colsJ s j))]
   else []) ++
  [.preload
    (if i = 0 then .spad (bTileRow s k j) (dimK s k) (colsJ s j) else .nulla (dimK s k) (colsJ s j))
    (if s.lw.d = 0 ∧ f.exAccumulate = false ∧ k = 0 then .accw (cTileRow s i j) (rowsI s i) (colsJ s j)
     else .acca (cTileRow s i j) (rowsI s i) (colsJ s j)),
   computeOf (i == 0) (.spad (aTileRow s i k) (rowsI s i) (dimK s k)) (.nulla s.params.dim s.params.dim)] ++
  (if s.lw.c ≠ 0 ∧ k + 1 = s.lw.bounds.tilesK.toNat then
    [.mvout (tileAddress s s.lw.c s.lw.cStride i j (sizeofC s f))
      (if f.fullC then .accf (cTileRow s i j) (rowsI s i) (colsJ s j)
       else .accw (cTileRow s i j) (rowsI s i) (colsJ s j))]
   else [])

/-- The list of primitive commands `LOOP_WS` performs: the bias, then k outer, j middle, i inner (R258). -/
def loopProgram (s : State) (f : LoopFlags) : List Instr :=
  loopBiasProgram s f ++
  (List.range s.lw.bounds.tilesK.toNat).flatMap fun k =>
    (List.range s.lw.bounds.tilesJ.toNat).flatMap fun j =>
      (List.range s.lw.bounds.tilesI.toNat).flatMap fun i => loopIteration s f k j i

/-- The three checks of `LOOP_WS` pass (R258). -/
def loopAccepted (s : State) : Prop :=
  s.cfg.dataflow = .ws ∧ s.cfg.aTranspose = false ∧ s.cfg.bTranspose = false ∧
  s.lw.bounds.padI.toNat ≤ s.params.dim ∧ s.lw.bounds.padJ.toNat ≤ s.params.dim ∧
  s.lw.bounds.padK.toNat ≤ s.params.dim ∧
  (s.lw.bounds.tilesI.toNat * s.lw.bounds.tilesK.toNat + s.lw.bounds.tilesK.toNat * s.lw.bounds.tilesJ.toNat) *
    s.params.dim ≤ s.params.spRows / 2 ∧
  s.lw.bounds.tilesI.toNat * s.lw.bounds.tilesJ.toNat * s.params.dim ≤ s.params.accRows / 2

end Sys2Proof.Machine
end

