-- ==== Sys2Proof/WellFormed.lean ====
section
/-!
DEFINITION. WellFormed.lean: the checks a command must pass that depend on its own fields and the implementation
parameters alone. Every term of `Instr` can be encoded (a field has exactly its width), so a term that fails a check
here is a command software must not issue: it decodes, and raises a ConfigurationViolation (R99, R126, R302), but for
`LOOP_WS_CONFIG_BOUNDS`, whose padding over DIM is raised by the `LOOP_WS` that reads it (R258). The checks that need
the configuration (a row count while pooling is off, the sequencer's) are made by the meanings (assumption log 15).
-/

namespace Sys2Proof

/-- The bank operand of a move-in: not null, at most DIM rows (R126, R140). -/
def AddrOperand.moveInTarget (p : Params) (o : AddrOperand) : Bool := !o.isNull && decide (o.nrows ≤ p.dim)

/-- An operand fed to the array, or the preload source: null, or in the scratchpad with both counts at most DIM
(R126, R171, R172). -/
def AddrOperand.arrayOperand (p : Params) (o : AddrOperand) : Bool := !o.inAccumulator && !o.overCounts p

/-- A command that passes every check on its own fields. -/
def Instr.wellFormed (p : Params) : Instr → Bool
  | .configEx w =>
      !reservedActivation w.act &&
      !(shiftTooLarge p w.accShift || shiftTooLarge p w.sysShift || shiftTooLarge p w.relu6Shift) &&
      !transposeForbidden w.dataflow w.aTranspose w.bTranspose
  | .configLd w => w.stateId != 3#2 && !scaleNotFinite w.scale
  | .configSt w => !reservedActivation w.act && !scaleNotFinite w.scale && !poolWindowEmpty w.pool
  | .mvin2 _ d => d.moveInTarget p
  | .mvin _ d => d.moveInTarget p
  | .mvout addr d => addr != 0 && !d.isNull
  | .computePreloaded a bd => a.arrayOperand p && bd.arrayOperand p
  | .computeAccumulated a bd => a.arrayOperand p && bd.arrayOperand p
  | .preload src dst => src.arrayOperand p && !dst.overCounts p
  | .flush => true
  | .loopWs _ => true
  | .loopWsConfigBounds b => decide (b.padI.toNat ≤ p.dim ∧ b.padJ.toNat ≤ p.dim ∧ b.padK.toNat ≤ p.dim)
  | .loopWsConfigAddrsAb _ _ => true
  | .loopWsConfigAddrsDc _ _ => true
  | .loopWsConfigStridesAb _ _ => true
  | .loopWsConfigStridesDc _ _ => true
  | .mvin3 _ d => d.moveInTarget p
  | .fence => true

end Sys2Proof
end

