-- ==== Sys2Proof/Certificates/Slice0/Obligations.lean ====
section
/-!
DEFINITION. Certificates/Slice0/Obligations.lean: the statements for the provers, in the order of the spec's files.
A hypothesis `s.params.legal` says that the implementation parameters obey the table of R7; `s.consistent` is the
invariant of `Safety.lean`, itself stated to hold at reset and to be kept by every step.
-/

section Statements

open Sys2Proof Sys2Proof.Machine

/-! ## Encoding (30_encoding.md, 40_address_codec.md) -/

/-- Decoding the command word of an instruction gives it back, every operand at every value (R90, R91, R95, R104). -/
def Obligations.DecodeEncodeRoundTrip : Prop :=
  ∀ i : Instr, decode (Command.ofWord (encodeWord i)) = .ok i

/-- The command word holds funct, rs1 and rs2 at bits 134:128, 127:64 and 63:0, and nothing else (R90). -/
def Obligations.CommandWordHoldsThreeFields : Prop :=
  (∀ w : CommandWord, (Command.ofWord w).toWord = w) ∧ (∀ c : Command, Command.ofWord c.toWord = c) ∧
  (∀ c : Command, c.toWord.toNat = c.funct.toNat * 2 ^ 128 + c.rs1.toNat * 2 ^ 64 + c.rs2.toNat)

/-- The address codec: encoding and decoding are inverse both ways, and an encoded operand is the spec's union of shifted
fields (R122). -/
def Obligations.AddressCodecInverse : Prop :=
  (∀ o : AddrOperand, AddrOperand.decode o.encode = o) ∧
  (∀ op : Word, (AddrOperand.decode op).encode = op) ∧
  (∀ o : AddrOperand, o.encode =
    (o.rows.setWidth 64 <<< 48) ||| (o.cols.setWidth 64 <<< 32) ||| ((BitVec.ofBool o.isAcc).setWidth 64 <<< 31) |||
    ((BitVec.ofBool o.accumulate).setWidth 64 <<< 30) ||| ((BitVec.ofBool o.full).setWidth 64 <<< 29) |||
    o.row.setWidth 64)

/-- An operand is null exactly when bits 31:0 are all ones, whatever its counts; it then decodes with the three flags
set and the greatest row (R123). -/
def Obligations.NullIsAddressPartAllOnes : Prop :=
  ∀ op : Word,
    ((AddrOperand.decode op).isNull = true ↔ op.extractLsb' 0 32 = 0xFFFFFFFF) ∧
    ((AddrOperand.decode op).isNull = true →
      (AddrOperand.decode op).isAcc = true ∧ (AddrOperand.decode op).accumulate = true ∧
      (AddrOperand.decode op).full = true ∧ (AddrOperand.decode op).base = 2 ^ 29 - 1)

/-- The command words that select no command are exactly funct 15 to 126, and funct 0 with `rs1[1:0] = 3`
(R91, R95, R98). -/
def Obligations.DecodeRejectsExactly : Prop :=
  ∀ c : Command,
    (decode c = .error .unknownFunct ↔ 15 ≤ c.funct.toNat ∧ c.funct.toNat ≤ 126) ∧
    (decode c = .error .reservedSubcommand ↔ c.funct = 0 ∧ c.rs1.extractLsb' 0 2 = 3)

/-- Decoding follows the funct map: an accepted word has the funct of its instruction's row and, for funct 0, its
selector; and two words that agree in these are both accepted or both rejected (R91, R95, R97). -/
def Obligations.DecodeFollowsFunctMap : Prop :=
  (∀ (c : Command) (i : Instr), decode c = .ok i →
    c.funct = (encode i).funct ∧ (c.funct = 0 → c.rs1.extractLsb' 0 2 = (encode i).rs1.extractLsb' 0 2)) ∧
  (∀ c c' : Command, c.funct = c'.funct → (c.funct = 0 → c.rs1.extractLsb' 0 2 = c'.rs1.extractLsb' 0 2) →
    ((∃ i, decode c = .ok i) ↔ ∃ i, decode c' = .ok i))

/-- Operand bits that no field uses are ignored: changing any of them changes nothing of what a command decodes to
(R96, R104). -/
def Obligations.ReservedBitsIgnored : Prop :=
  ∀ rs1 rs2 x y : Word,
    (rs1.extractLsb' 0 2 = 0 → decode ⟨0, rs1 ^^^ (x &&& 0xFCE0), rs2⟩ = decode ⟨0, rs1, rs2⟩) ∧
    (rs1.extractLsb' 0 2 = 1 → decode ⟨0, rs1 ^^^ (x &&& 0xFFFFFFE0), rs2⟩ = decode ⟨0, rs1, rs2⟩) ∧
    (rs1.extractLsb' 0 2 = 2 → decode ⟨0, rs1 ^^^ (x &&& 0xFFF000), rs2⟩ = decode ⟨0, rs1, rs2⟩) ∧
    decode ⟨9, rs1 ^^^ (x &&& 0xFFFF000000000000), rs2 ^^^ (y &&& 0xFFFF000000000000)⟩ = decode ⟨9, rs1, rs2⟩ ∧
    decode ⟨8, rs1 ^^^ (x &&& 0xFFFFFFFFFFFFFFF8), y⟩ = decode ⟨8, rs1, rs2⟩ ∧
    decode ⟨7, x, y⟩ = decode ⟨7, rs1, rs2⟩ ∧ decode ⟨127, x, y⟩ = decode ⟨127, rs1, rs2⟩

/-- Command words written out from the spec's encodings decode to the commands they stand for: the words of the examples
of R142, R144, R145, R221, R224, R225, R171 and R251, and an `ACCF` operand of `MVOUT` by the layout of R120. -/
def Obligations.WrittenWordsDecode : Prop :=
  decode ⟨2, 0x1000, 0x0001001000000000⟩ = .ok (.mvin 0x1000 ⟨1, 16, false, false, false, 0⟩) ∧
  decode ⟨14, 0x3000, 0x00010002C0000004⟩ = .ok (.mvin3 0x3000 ⟨1, 2, true, true, false, 4⟩) ∧
  decode ⟨3, 0x5000, 0x0001000280000002⟩ = .ok (.mvout 0x5000 ⟨1, 2, true, false, false, 2⟩) ∧
  decode ⟨3, 0x5000, 0x00010002A0000002⟩ = .ok (.mvout 0x5000 ⟨1, 2, true, false, true, 2⟩) ∧
  decode ⟨0, 0x0000000000010014, 0x0000000100000004⟩ = .ok (.configEx ⟨.ws, 2, false, false, 1, 0, 4, 1⟩) ∧
  decode ⟨0, 0x3F80000000000009, 0x40⟩ = .ok (.configLd ⟨false, 1, 0x3F800000, 64⟩) ∧
  decode ⟨0, 0x04040202020000A2, 0x3F80000000000010⟩ =
    .ok (.configSt ⟨0, ⟨2, 2, 0, 0, 2, 2, 2, 4, 4⟩, 16, 0x3F800000⟩) ∧
  decode ⟨6, 0x00100010FFFFFFFF, 0x0010001000000030⟩ =
    .ok (.preload ⟨16, 16, true, true, true, 0x1FFFFFFF⟩ ⟨16, 16, false, false, false, 48⟩) ∧
  decode ⟨9, 0x00000008000C0008, 0x0000000200020003⟩ = .ok (.loopWsConfigBounds ⟨8, 12, 8, 3, 2, 2⟩)

/-- The table the host learns the funct values from lists exactly the funct values that select a command (R91, R325). -/
def Obligations.PrimitiveTableIsTheFunctMap : Prop :=
  ∀ f : BitVec 7, (∃ m, (f, m) ∈ primitiveInstructions) ↔ ∀ rs1 rs2, decode ⟨f, rs1, rs2⟩ ≠ .error .unknownFunct

/-! ## Steps, reset and errors (10_state.md, 60_exceptions.md, 70_reset_and_hazards.md) -/

/-- A step with a command presented, while the block is Running, is the decoded instruction's meaning on the state that
no longer lists the command (R21, R74, R97). -/
def Obligations.StepRunsDecodedCommand : Prop :=
  ∀ (s : State) (c : Command) (rest : List HostAction) (i : Instr),
    s.host = .command c :: rest → s.status = .running → decode c = .ok i → step s = exec i (s.withHost rest)

/-- `UnknownInstruction`: no state of the block changes, the block stays Running, the error is reported; no command that
is recognised reports it, and every error a recognised command reports is fatal (R301). -/
def Obligations.UnknownInstructionChangesNothing : Prop :=
  (∀ (s : State) (c : Command) (rest : List HostAction),
    s.host = .command c :: rest → s.status = .running → 15 ≤ c.funct.toNat → c.funct.toNat ≤ 126 →
    step s = .next ((s.withHost rest).withReport (some .unknownInstruction))) ∧
  (∀ (i : Instr) (s t : State) (e : Error), exec i s = .next t → t.report = some e →
    e ≠ .unknownInstruction ∧ ∃ f, t.status = .faulted f)

/-- Funct 0 with `rs1[1:0] = 3` is the fatal `ReservedSubcommand`, and changes nothing but the fault latch (R227). -/
def Obligations.ReservedSubcommandIsFatal : Prop :=
  ∀ (s : State) (c : Command) (rest : List HostAction),
    s.host = .command c :: rest → s.status = .running → c.funct = 0 → c.rs1.extractLsb' 0 2 = 3 →
    step s = .next (((s.withHost rest).withStatus (.faulted (.configurationViolation .reservedSubcommand))).withReport
      (some (.fatal (.configurationViolation .reservedSubcommand))))

/-- A command either completes with nothing reported and the latch as it was, or reports a fatal error and sets the latch
to it; a Faulted block takes no command, and the reset hook makes it Running (R300, R306). -/
def Obligations.FatalErrorsLatch : Prop :=
  (∀ (i : Instr) (s t : State), exec i s = .next t →
    (t.report = none ∧ t.status = s.status) ∨ ∃ e, t.report = some (.fatal e) ∧ t.status = .faulted e) ∧
  (∀ (s : State) (c : Command) (rest : List HostAction) (e : FatalError),
    s.host = .command c :: rest → s.status = .faulted e → step s = .fault (.blockFaulted e)) ∧
  (∀ (s : State) (rest : List HostAction), s.host = .resetHook :: rest →
    ∃ t, step s = .next t ∧ t.status = .running ∧ t.report = none)

/-- The fault latch: set by a fatal error to its kind and reason, never cleared by a command, cleared by a step only by the
reset hook; while it is set no command is accepted; it is Running at reset (R41). -/
def Obligations.OnlyResetClearsLatch : Prop :=
  (∀ (i : Instr) (s t : State) (e : FatalError), exec i s = .next t → t.report = some (.fatal e) →
    t.status = .faulted e) ∧
  (∀ (i : Instr) (s t : State) (e : FatalError), exec i s = .next t → s.status = .faulted e →
    ∃ e', t.status = .faulted e') ∧
  (∀ (s t : State) (e : FatalError), step s = .next t → s.status = .faulted e →
    t.status = .faulted e ∨ ∃ rest, s.host = .resetHook :: rest) ∧
  (∀ (s : State) (c : Command) (rest : List HostAction) (e : FatalError),
    s.host = .command c :: rest → s.status = .faulted e → step s = .fault (.blockFaulted e)) ∧
  State.reset.status = .running

/-- The reset hook, Running or Faulted, puts every state variable of the block at the value of the table of R44, and
leaves DRAM; the block is created in the same state (R340). The strides are stated where `DIM * ELEM_BYTES` fits the
field: where it does not, the spec gives no value (log 16). -/
def Obligations.ResetHookRestoresEverything : Prop :=
  ∀ (s : State) (rest : List HostAction), s.host = .resetHook :: rest →
    ∃ t, step s = .next t ∧ t.host = rest ∧ t.params = s.params ∧ t.dram = s.dram ∧ t.report = none ∧
      (∀ r c, t.spAt r c = 0) ∧ (∀ r c, t.accAt r c = 0) ∧ (∀ i j, t.peAt i j = 0) ∧
      t.cfg.dataflow = .os ∧ t.cfg.sysAct = .identity ∧ t.cfg.accAct = .identity ∧
      t.cfg.sysShift = 0 ∧ t.cfg.accShift = 0 ∧ t.cfg.relu6Shift = 0 ∧ t.cfg.accScale = 0x3F800000 ∧
      t.cfg.aTranspose = false ∧ t.cfg.bTranspose = false ∧ t.cfg.aStride = 1 ∧
      (∀ k, (t.cfg.load k).scale = 0x3F800000 ∧ (t.cfg.load k).shrunk = false ∧
        (s.params.dim * s.params.elemBytes < 2 ^ 64 →
          (t.cfg.load k).stride.toNat = s.params.dim * s.params.elemBytes)) ∧
      (s.params.dim * s.params.elemBytes < 2 ^ 32 →
        t.cfg.storeStride.toNat = s.params.dim * s.params.elemBytes) ∧
      t.cfg.pool = ⟨0, 0, 0, 0, 0, 0, 0, 0, 0⟩ ∧ t.status = .running ∧
      t.pre = ⟨0xFFFFFFFF, 0, 0⟩ ∧ t.out = ⟨0xFFFFFFFF, 0, 0⟩ ∧ t.lw = ⟨⟨0, 0, 0, 0, 0, 0⟩, 0, 0, 0, 0, 0, 0, 0, 0⟩ ∧
      (s.params = State.reset.params → t = (State.reset.withHost rest).withDram s.dram)

/-- The model's choice of log 2, from R75 and R326: a store of the host changes one DRAM byte and nothing of the block,
and with nothing presented the block holds all its state. -/
def Obligations.HostStoreAndIdle : Prop :=
  (∀ (s : State) (addr : Word) (v : Byte) (rest : List HostAction), s.host = .store addr v :: rest →
    ∃ t, step s = .next t ∧ t = (s.withHost rest).withDram t.dram ∧ t.byteAt addr.toNat = v ∧
      ∀ x, x ≠ addr.toNat → t.byteAt x = s.byteAt x) ∧
  (∀ s : State, s.host = [] → step s = .next s)

/-- A ConfigurationViolation of any command but `LOOP_WS` is precise: all state but the latch (and the report) is as
before the command. So is one of the three checks `LOOP_WS` makes before its first primitive; one raised by a primitive
inside `LOOP_WS` keeps what the earlier ones did, and is not spoken of here (R307, R309). -/
def Obligations.ConfigurationViolationsArePrecise : Prop :=
  (∀ (i : Instr) (s t : State) (reason : ConfigReason), (∀ f, i ≠ .loopWs f) → exec i s = .next t →
    t.report = some (.fatal (.configurationViolation reason)) →
    t = (s.withStatus (.faulted (.configurationViolation reason))).withReport
      (some (.fatal (.configurationViolation reason)))) ∧
  (∀ (f : LoopFlags) (s : State), ¬ loopAccepted s → ∃ reason, exec (.loopWs f) s =
    .next ((s.withStatus (.faulted (.configurationViolation reason))).withReport
      (some (.fatal (.configurationViolation reason)))))

/-- Every command ends in a next state where the platform admits every DRAM address; otherwise the only other outcome is
the fault of a refused address (R65, R74). -/
def Obligations.CommandsAlwaysEnd : Prop :=
  ∀ (i : Instr) (s : State),
    ((∀ addr, dramAdmit s.params addr = true) → ∃ t, exec i s = .next t) ∧
    ((∃ t, exec i s = .next t) ∨ ∃ addr, exec i s = .fault (.dramRefused addr) ∧ dramAdmit s.params addr = false)

/-- Who writes what: DRAM only `MVOUT` and `LOOP_WS`; the scratchpad and the accumulator only the move-ins, the computes
and `LOOP_WS`; `PE` only the computes and `LOOP_WS`; the configuration only `CONFIG_*`; the preload record only
`PRELOAD` and `LOOP_WS`; the tiling record only `LOOP_WS_CONFIG_*`; the parameters and the host's list none. -/
def Obligations.CommandsWriteOnlyTheirState : Prop :=
  ∀ (i : Instr) (s t : State), exec i s = .next t →
    t.params = s.params ∧ t.host = s.host ∧
    ((∀ a d, i ≠ .mvout a d) → (∀ f, i ≠ .loopWs f) → t.dram = s.dram) ∧
    ((∀ k a d, i ≠ mvinOf k a d) → (∀ p a b, i ≠ computeOf p a b) → (∀ f, i ≠ .loopWs f) →
      t.sp = s.sp ∧ t.acc = s.acc) ∧
    ((∀ p a b, i ≠ computeOf p a b) → (∀ f, i ≠ .loopWs f) → t.pe = s.pe) ∧
    ((∀ w, i ≠ .configEx w) → (∀ w, i ≠ .configLd w) → (∀ w, i ≠ .configSt w) → t.cfg = s.cfg) ∧
    ((∀ x y, i ≠ .preload x y) → (∀ f, i ≠ .loopWs f) → t.pre = s.pre ∧ t.out = s.out) ∧
    ((∀ b, i ≠ .loopWsConfigBounds b) → (∀ a b, i ≠ .loopWsConfigAddrsAb a b) →
      (∀ d c, i ≠ .loopWsConfigAddrsDc d c) → (∀ a b, i ≠ .loopWsConfigStridesAb a b) →
      (∀ d c, i ≠ .loopWsConfigStridesDc d c) → t.lw = s.lw)

/-- The state after reset is consistent: every bound the spec puts on a state variable holds of its reset value, and DRAM
is in its canonical form (R44; the parameters' values and the empty DRAM are the model's, logs 1 and 3). -/
def Obligations.ResetIsConsistent : Prop := State.reset.consistent = true

/-- Every step keeps the state consistent: bank cells stay in range, shifts below ACC_BITS, scales finite, the transpose
triple allowed, pooling windows not empty, the preload record within its limits, DRAM in its canonical form
(R23 to R25, R30 to R34, R37, R40, R42, R222, R226). -/
def Obligations.StepKeepsConsistent : Prop :=
  ∀ s t : State, s.consistent = true → step s = .next t → t.consistent = true

/-! ## DRAM (20_memory.md) -/

/-- `MemRead` is the little-endian value of the bytes at the address and after it, modulo 2^64; they are read in
increasing order, so that of several refused bytes the first is met (R63, R65). -/
def Obligations.MemReadLittleEndian : Prop :=
  ∀ (s : State) (addr : Word) (n : Nat),
    (reachable s.params addr n → s.memRead addr n = .ok (s.wordAt addr n)) ∧
    (∀ b < n, reachable s.params addr b → dramAdmit s.params (byteAddress addr b) = false →
      s.memRead addr n = .error (.stuck (byteAddress addr b)))

/-- `MemWrite` puts byte b of the pattern at `(addr + b) mod 2^64` and changes no other byte and nothing else; the bytes
are written in increasing order, so that those before the first refused one are written (R64, R65). -/
def Obligations.MemWriteLittleEndian : Prop :=
  ∀ (s : State) (addr : Word) (n v : Nat), n ≤ 2 ^ 64 →
    (reachable s.params addr n → ∃ t, s.memWrite addr n v = .done t ∧ t = s.withDram t.dram ∧
      (∀ b < n, t.byteAt (byteAddress addr b) = byteOf v b) ∧
      (∀ x, (∀ b < n, x ≠ byteAddress addr b) → t.byteAt x = s.byteAt x)) ∧
    (∀ b < n, reachable s.params addr b → dramAdmit s.params (byteAddress addr b) = false →
      ∃ t, s.memWrite addr n v = .stop (.stuck (byteAddress addr b)) t ∧ t = s.withDram t.dram ∧
        (∀ e < b, t.byteAt (byteAddress addr e) = byteOf v e) ∧
        (∀ x, (∀ e < b, x ≠ byteAddress addr e) → t.byteAt x = s.byteAt x))

/-- A value written whole and read back narrower yields its bytes in increasing address order, least significant
first (R68). -/
def Obligations.MixedWidthReadBack : Prop :=
  ∀ (s t : State) (addr : Word) (n m e v : Nat), n ≤ 2 ^ 64 → e * m + m ≤ n → reachable s.params addr n →
    s.memWrite addr n v = .done t →
    t.memRead (addr + BitVec.ofNat 64 (e * m)) m = .ok (v / 2 ^ (8 * (e * m)) % 2 ^ (8 * m))

/-- A DRAM byte the platform refuses ends the command with no further step: a move-in of at least one element whose first
row is in range and whose first byte is refused (R65). -/
def Obligations.RefusedAddressIsStuck : Prop :=
  ∀ (k : Fin 3) (addr : Word) (d : AddrOperand) (s : State),
    s.params.legal = true → d.isNull = false → d.nrows ≤ s.params.dim → 0 < d.nrows → 0 < d.ncols → addr ≠ 0 →
    d.base < extentOf s.params d.isAcc → dramAdmit s.params addr.toNat = false →
    exec (mvinOf k addr d) s = .fault (.dramRefused addr.toNat)

/-! ## The data mover (41_data_mover.md) -/

/-- `MVIN`, `MVIN2`, `MVIN3` into the scratchpad complete: element (r, c) of the extent, ELEM_BYTES in DRAM whatever the
shrunk flag, is at its row and column with the scaled, saturated value; every other cell and everything else is unchanged
(R38, R140, R142, R143, R144). -/
def Obligations.MoveInToScratchpad : Prop :=
  ∀ (k : Fin 3) (addr : Word) (d : AddrOperand) (s : State),
    s.params.legal = true → d.isNull = false → d.isAcc = false → d.nrows ≤ s.params.dim →
    transferInRange s.params d → sourceReachable s k addr d s.params.elemBytes →
    ∃ t, exec (mvinOf k addr d) s = .next t ∧ t = (s.withReport none).withSp t.sp ∧
      (∀ r < d.nrows, ∀ c < d.ncols, t.spAt (d.base + r + c / s.params.dim * s.params.dim) (c % s.params.dim) =
        satTo s.params.elemBits (scaleRNE (sourceElement s k addr s.params.elemBytes r c) (s.cfg.load k).scale)) ∧
      (∀ row, ∀ col < s.params.dim, (∀ r < d.nrows, ∀ c < d.ncols, ¬ isTarget s.params d r c row col) →
        t.spAt row col = s.spAt row col)

/-- The same into the accumulator, overwriting or accumulating with wrap: an element is `n` bytes in DRAM, ACC_BYTES where
the load state is not shrunk and ELEM_BYTES where it is (R38, R140, R142, R143, R144). -/
def Obligations.MoveInToAccumulator : Prop :=
  ∀ (k : Fin 3) (addr : Word) (d : AddrOperand) (s : State) (n : Nat),
    s.params.legal = true → d.isNull = false → d.isAcc = true → d.nrows ≤ s.params.dim →
    ((s.cfg.load k).shrunk = false ∧ n = s.params.accBytes) ∨ ((s.cfg.load k).shrunk = true ∧ n = s.params.elemBytes) →
    transferInRange s.params d → sourceReachable s k addr d n →
    ∃ t, exec (mvinOf k addr d) s = .next t ∧ t = (s.withReport none).withAcc t.acc ∧
      (∀ r < d.nrows, ∀ c < d.ncols,
        (d.accumulate = false →
          t.accAt (d.base + r + c / s.params.dim * s.params.dim) (c % s.params.dim) =
            satTo s.params.accBits (scaleRNE (sourceElement s k addr n r c) (s.cfg.load k).scale)) ∧
        (d.accumulate = true →
          t.accAt (d.base + r + c / s.params.dim * s.params.dim) (c % s.params.dim) =
            wrapTo s.params.accBits (s.accAt (d.base + r + c / s.params.dim * s.params.dim) (c % s.params.dim) +
              satTo s.params.accBits (scaleRNE (sourceElement s k addr n r c) (s.cfg.load k).scale)))) ∧
      (∀ row, ∀ col < s.params.dim, (∀ r < d.nrows, ∀ c < d.ncols, ¬ isTarget s.params d r c row col) →
        t.accAt row col = s.accAt row col)

/-- The null DRAM address: whatever the platform refuses, a move-in from 0 completes, clears the cells it overwrites, and
leaves the accumulator as it was where it accumulates; DRAM is not touched. A move-out to 0 is an error (R141). -/
def Obligations.MoveInFromNullAddress : Prop :=
  ∀ (k : Fin 3) (d : AddrOperand) (s : State),
    s.consistent = true → d.isNull = false → d.nrows ≤ s.params.dim → transferInRange s.params d →
    ∃ t, exec (mvinOf k 0 d) s = .next t ∧ t = ((s.withReport none).withSp t.sp).withAcc t.acc ∧
      (∀ r < d.nrows, ∀ c < d.ncols,
        transferCell t d r c = if d.isAcc = true ∧ d.accumulate = true then transferCell s d r c else 0) ∧
      (∀ row, ∀ col < s.params.dim, (∀ r < d.nrows, ∀ c < d.ncols, ¬ isTarget s.params d r c row col) →
        t.spAt row col = s.spAt row col ∧ t.accAt row col = s.accAt row col) ∧
      (d.isAcc = true → t.sp = s.sp) ∧ (d.isAcc = false → t.acc = s.acc) ∧
      exec (.mvout 0 d) s = .next (s.takeError (.fatal (.configurationViolation .nullOperand)))

/-- The operand checks of a move-in, in the order tested (R140, R142). -/
def Obligations.MoveInRejections : Prop :=
  ∀ (k : Fin 3) (addr : Word) (d : AddrOperand) (s : State),
    (d.isNull = true → exec (mvinOf k addr d) s =
      .next (s.takeError (.fatal (.configurationViolation .nullOperand)))) ∧
    (d.isNull = false → s.params.dim < d.nrows → exec (mvinOf k addr d) s =
      .next (s.takeError (.fatal (.configurationViolation .countRange))))

/-- A move-in that reaches a row outside the bank raises `OutOfRange` there: the cells of all earlier iterations are
written, no other cell is (R66, R140, R307). -/
def Obligations.MoveInOutOfRange : Prop :=
  ∀ (k : Fin 3) (addr : Word) (d : AddrOperand) (s : State) (r₀ c₀ : Nat),
    s.params.legal = true → d.isNull = false → d.nrows ≤ s.params.dim → r₀ < d.nrows → c₀ < d.ncols →
    extentOf s.params d.isAcc ≤ transferRow s.params d r₀ c₀ →
    (∀ r < d.nrows, ∀ c < d.ncols, runsBefore r c r₀ c₀ → transferRow s.params d r c < extentOf s.params d.isAcc) →
    moveInReachable s k addr d →
    ∃ t, exec (mvinOf k addr d) s = .next t ∧
      t.report = some (.fatal (.outOfRange (if d.isAcc then .accumulatorRow else .scratchpadRow))) ∧
      t.status = .faulted (.outOfRange (if d.isAcc then .accumulatorRow else .scratchpadRow)) ∧
      t = (((s.withReport t.report).withStatus t.status).withSp t.sp).withAcc t.acc ∧
      (∀ r < d.nrows, ∀ c < d.ncols, runsBefore r c r₀ c₀ → transferCell t d r c = movedValue s k addr d r c) ∧
      (∀ row, ∀ col < s.params.dim,
        (∀ r < d.nrows, ∀ c < d.ncols, runsBefore r c r₀ c₀ → ¬ isTarget s.params d r c row col) →
        t.spAt row col = s.spAt row col ∧ t.accAt row col = s.accAt row col) ∧
      (d.isAcc = true → t.sp = s.sp) ∧ (d.isAcc = false → t.acc = s.acc)

/-- `MVOUT` without pooling completes: byte b of output element (r, c) is at its address, unless a later byte of the same
move-out falls on it; every other DRAM byte and everything else is unchanged (R145, R76). -/
def Obligations.MoveOutWritesExtent : Prop :=
  ∀ (addr : Word) (d : AddrOperand) (s : State),
    s.params.legal = true → d.isNull = false → addr ≠ 0 → s.cfg.pool.stride = 0 → d.nrows ≤ s.params.dim →
    transferInRange s.params d → moveOutReachable s addr d →
    ∃ t, exec (.mvout addr d) s = .next t ∧ t = (s.withReport none).withDram t.dram ∧
      (∀ r < d.nrows, ∀ c < d.ncols, ∀ b < moveOutBytes s.params d,
        (∀ r' < d.nrows, ∀ c' < d.ncols, ∀ b' < moveOutBytes s.params d,
          runsBefore r c r' c' ∨ (r = r' ∧ c = c' ∧ b < b') →
          moveOutByte s addr d r' c' b' ≠ moveOutByte s addr d r c b) →
        t.byteAt (moveOutByte s addr d r c b) =
          byteOf (if d.isAcc then
              (if d.full then bitsOf s.params.accBits (transferCell s d r c)
               else bitsOf s.params.elemBits (accReadout s.params s.cfg (transferCell s d r c)))
            else bitsOf s.params.elemBits (transferCell s d r c)) b) ∧
      (∀ x, (∀ r < d.nrows, ∀ c < d.ncols, ∀ b < moveOutBytes s.params d, x ≠ moveOutByte s addr d r c b) →
        t.byteAt x = s.byteAt x)

/-- The checks of `MVOUT`, in the order tested, with pooling off and on (R145, R146). -/
def Obligations.MoveOutRejections : Prop :=
  ∀ (addr : Word) (d : AddrOperand) (s : State),
    (d.isNull = true ∨ addr = 0 → exec (.mvout addr d) s =
      .next (s.takeError (.fatal (.configurationViolation .nullOperand)))) ∧
    (d.isNull = false → addr ≠ 0 → s.cfg.pool.stride = 0 → s.params.dim < d.nrows → exec (.mvout addr d) s =
      .next (s.takeError (.fatal (.configurationViolation .countRange)))) ∧
    (d.isNull = false → addr ≠ 0 → s.cfg.pool.stride ≠ 0 → s.params.dim < d.ncols → exec (.mvout addr d) s =
      .next (s.takeError (.fatal (.configurationViolation .countRange)))) ∧
    (d.isNull = false → addr ≠ 0 → s.cfg.pool.stride ≠ 0 → d.ncols ≤ s.params.dim → d.isAcc = true → d.full = true →
      exec (.mvout addr d) s = .next (s.takeError (.fatal (.configurationViolation .fullWithPooling))))

/-- A move-out that reaches a row outside the bank raises `OutOfRange` there, after the earlier elements have been written
to DRAM; no other byte is. Without pooling, at the first element whose row does not exist; with pooling, at the first
output position whose window reads one (R145, R146, R307). -/
def Obligations.MoveOutOutOfRange : Prop :=
  (∀ (addr : Word) (d : AddrOperand) (s : State) (r₀ c₀ : Nat),
    s.params.legal = true → d.isNull = false → addr ≠ 0 → s.cfg.pool.stride = 0 → d.nrows ≤ s.params.dim →
    r₀ < d.nrows → c₀ < d.ncols → extentOf s.params d.isAcc ≤ transferRow s.params d r₀ c₀ →
    (∀ r < d.nrows, ∀ c < d.ncols, runsBefore r c r₀ c₀ → transferRow s.params d r c < extentOf s.params d.isAcc) →
    moveOutReachable s addr d →
    ∃ t, exec (.mvout addr d) s = .next t ∧
      t.report = some (.fatal (.outOfRange (if d.isAcc then .accumulatorRow else .scratchpadRow))) ∧
      t.status = .faulted (.outOfRange (if d.isAcc then .accumulatorRow else .scratchpadRow)) ∧
      t = ((s.withReport t.report).withStatus t.status).withDram t.dram ∧
      (∀ r < d.nrows, ∀ c < d.ncols, ∀ b < moveOutBytes s.params d, runsBefore r c r₀ c₀ →
        (∀ r' < d.nrows, ∀ c' < d.ncols, ∀ b' < moveOutBytes s.params d, runsBefore r' c' r₀ c₀ →
          runsBefore r c r' c' ∨ (r = r' ∧ c = c' ∧ b < b') →
          moveOutByte s addr d r' c' b' ≠ moveOutByte s addr d r c b) →
        t.byteAt (moveOutByte s addr d r c b) = byteOf (moveOutPattern s d (transferCell s d r c)) b) ∧
      (∀ x, (∀ r < d.nrows, ∀ c < d.ncols, ∀ b < moveOutBytes s.params d, runsBefore r c r₀ c₀ →
          x ≠ moveOutByte s addr d r c b) →
        t.byteAt x = s.byteAt x)) ∧
  (∀ (addr : Word) (d : AddrOperand) (s : State) (pr₀ pc₀ : Nat),
    s.consistent = true → d.isNull = false → addr ≠ 0 → s.cfg.pool.stride ≠ 0 → d.ncols ≤ s.params.dim →
    (d.isAcc && d.full) = false → 0 < d.ncols →
    pr₀ < s.cfg.pool.porows.toNat → pc₀ < s.cfg.pool.pocols.toNat → ¬ windowInRange s d pr₀ pc₀ →
    (∀ pr < s.cfg.pool.porows.toNat, ∀ pc < s.cfg.pool.pocols.toNat, runsBefore pr pc pr₀ pc₀ →
      windowInRange s d pr pc) →
    pooledReachable s addr d →
    ∃ t, exec (.mvout addr d) s = .next t ∧
      t.report = some (.fatal (.outOfRange (if d.isAcc then .accumulatorRow else .scratchpadRow))) ∧
      t.status = .faulted (.outOfRange (if d.isAcc then .accumulatorRow else .scratchpadRow)) ∧
      t = ((s.withReport t.report).withStatus t.status).withDram t.dram ∧
      (∀ pr < s.cfg.pool.porows.toNat, ∀ pc < s.cfg.pool.pocols.toNat, ∀ ch < d.ncols, runsBefore pr pc pr₀ pc₀ →
        ∃ m, isWindowMax s d pr pc ch m ∧
          ∀ b < s.params.elemBytes,
            (∀ pr' < s.cfg.pool.porows.toNat, ∀ pc' < s.cfg.pool.pocols.toNat, ∀ ch' < d.ncols,
              ∀ b' < s.params.elemBytes, runsBefore pr' pc' pr₀ pc₀ →
              runsBefore pr pc pr' pc' ∨ (pr = pr' ∧ pc = pc' ∧ runsBefore ch b ch' b') →
              byteAddress (poolAddress s addr pr' pc' ch') b' ≠ byteAddress (poolAddress s addr pr pc ch) b) →
            t.byteAt (byteAddress (poolAddress s addr pr pc ch) b) = byteOf (bitsOf s.params.elemBits m) b) ∧
      (∀ x, (∀ pr < s.cfg.pool.porows.toNat, ∀ pc < s.cfg.pool.pocols.toNat, ∀ ch < d.ncols,
          ∀ b < s.params.elemBytes, runsBefore pr pc pr₀ pc₀ → x ≠ byteAddress (poolAddress s addr pr pc ch) b) →
        t.byteAt x = s.byteAt x))

/-- `MVOUT` with pooling completes: each output position holds, channel by channel, the maximum over its window, unless a
later byte of the same move-out falls on it; every other DRAM byte and everything else is unchanged (R146). -/
def Obligations.PooledMoveOutWritesMaxima : Prop :=
  ∀ (addr : Word) (d : AddrOperand) (s : State),
    s.consistent = true → d.isNull = false → addr ≠ 0 → s.cfg.pool.stride ≠ 0 → d.ncols ≤ s.params.dim →
    (d.isAcc && d.full) = false → windowsInRange s d → pooledReachable s addr d →
    ∃ t, exec (.mvout addr d) s = .next t ∧ t = (s.withReport none).withDram t.dram ∧
      (∀ pr < s.cfg.pool.porows.toNat, ∀ pc < s.cfg.pool.pocols.toNat, ∀ ch < d.ncols,
        ∃ m, isWindowMax s d pr pc ch m ∧
          ∀ b < s.params.elemBytes,
            (∀ pr' < s.cfg.pool.porows.toNat, ∀ pc' < s.cfg.pool.pocols.toNat, ∀ ch' < d.ncols,
              ∀ b' < s.params.elemBytes,
              runsBefore pr pc pr' pc' ∨ (pr = pr' ∧ pc = pc' ∧ runsBefore ch b ch' b') →
              byteAddress (poolAddress s addr pr' pc' ch') b' ≠ byteAddress (poolAddress s addr pr pc ch) b) →
            t.byteAt (byteAddress (poolAddress s addr pr pc ch) b) = byteOf (bitsOf s.params.elemBits m) b) ∧
      (∀ x, (∀ pr < s.cfg.pool.porows.toNat, ∀ pc < s.cfg.pool.pocols.toNat, ∀ ch < d.ncols,
          ∀ b < s.params.elemBytes, x ≠ byteAddress (poolAddress s addr pr pc ch) b) →
        t.byteAt x = s.byteAt x)

/-- Round trip: with scale 1.0, pooling off and one stride that no row overruns, a move-in to the scratchpad followed by a
move-out of the same operand copies every byte of the tile (R147). -/
def Obligations.MoveInMoveOutRoundTrip : Prop :=
  ∀ (k : Fin 3) (a b : Word) (d : AddrOperand) (s : State),
    s.params.legal = true → d.isNull = false → d.isAcc = false → d.nrows ≤ s.params.dim →
    transferInRange s.params d → a ≠ 0 → b ≠ 0 →
    (s.cfg.load k).scale = 0x3F800000 → s.cfg.pool.stride = 0 →
    (s.cfg.load k).stride.toNat = s.cfg.storeStride.toNat →
    d.ncols * s.params.elemBytes ≤ s.cfg.storeStride.toNat →
    moveInReachable s k a d → moveOutReachable s b d →
    ∃ t, runProgram [mvinOf k a d, .mvout b d] s = .next t ∧ t.report = none ∧
      ∀ r < d.nrows, ∀ c < d.ncols, ∀ e < s.params.elemBytes,
        t.byteAt (b + BitVec.ofNat 64 (r * s.cfg.storeStride.toNat + c * s.params.elemBytes + e)).toNat =
        s.byteAt (a + BitVec.ofNat 64 (r * s.cfg.storeStride.toNat + c * s.params.elemBytes + e)).toNat

/-! ## The compute engine (42_compute_engine.md) -/

/-- `PRELOAD` (funct 6) records the six fields and changes nothing else; its rejections, in the order tested (R171). -/
def Obligations.PreloadRecords : Prop :=
  ∀ (src dst : AddrOperand) (s : State),
    decode ⟨6, src.encode, dst.encode⟩ = .ok (.preload src dst) ∧
    (src.isNull = false → src.isAcc = true → exec (.preload src dst) s =
      .next (s.takeError (.fatal (.configurationViolation .preloadFromAccumulator)))) ∧
    (src.inAccumulator = false →
      (src.isNull = false ∧ (s.params.dim < src.nrows ∨ s.params.dim < src.ncols)) ∨
        (dst.isNull = false ∧ (s.params.dim < dst.nrows ∨ s.params.dim < dst.ncols)) →
      exec (.preload src dst) s = .next (s.takeError (.fatal (.configurationViolation .countRange)))) ∧
    (src.isNull = true ∨ (src.isAcc = false ∧ src.nrows ≤ s.params.dim ∧ src.ncols ≤ s.params.dim) →
      dst.isNull = true ∨ (dst.nrows ≤ s.params.dim ∧ dst.ncols ≤ s.params.dim) →
      exec (.preload src dst) s = .next ((s.withReport none).withPreload
        ⟨src.encode.extractLsb' 0 32, src.rows, src.cols⟩ ⟨dst.encode.extractLsb' 0 32, dst.rows, dst.cols⟩))

/-- The operand checks of the two compute commands, in the order tested (R172). -/
def Obligations.ComputeRejections : Prop :=
  ∀ (doPreload : Bool) (a b : AddrOperand) (s : State),
    ((a.isNull = false ∧ a.isAcc = true) ∨ (b.isNull = false ∧ b.isAcc = true) → exec (computeOf doPreload a b) s =
      .next (s.takeError (.fatal (.configurationViolation .operandInAccumulator)))) ∧
    ((a.isNull = true ∨ a.isAcc = false) → (b.isNull = true ∨ b.isAcc = false) →
      (a.isNull = false ∧ (s.params.dim < a.nrows ∨ s.params.dim < a.ncols)) ∨
        (b.isNull = false ∧ (s.params.dim < b.nrows ∨ s.params.dim < b.ncols)) →
      exec (computeOf doPreload a b) s = .next (s.takeError (.fatal (.configurationViolation .countRange))))

/-- `COMPUTE_PRELOADED` and `COMPUTE_ACCUMULATED` in OS dataflow complete: `PE` holds the wrapped sum of its start value
and the products, the result is written to the recorded destination, nothing else changes (R173 to R177, R179). -/
def Obligations.ComputeOutputStationary : Prop :=
  ∀ (doPreload : Bool) (a b : AddrOperand) (s : State),
    s.consistent = true → s.cfg.dataflow = .os → a.arrayOperand s.params = true → b.arrayOperand s.params = true →
    (doPreload = true → tileInRange s) → operandInRange s.params a s.cfg.aStride.toNat →
    operandInRange s.params b 1 → destinationInRange s →
    ∃ t, exec (computeOf doPreload a b) s = .next t ∧
      t = (((s.withReport none).withSp t.sp).withAcc t.acc).withPe t.pe ∧
      (∀ i < s.params.dim, ∀ j < s.params.dim, t.peAt i j = osResult s doPreload a b i j) ∧
      resultWritten s t (osResult s doPreload a b)

/-- The same in WS dataflow: `PE` holds the weights, the preloaded tile or what it held, and the result is the wrapped sum
of the bias and the products (R173, R174, R176 to R179). -/
def Obligations.ComputeWeightStationary : Prop :=
  ∀ (doPreload : Bool) (a d : AddrOperand) (s : State),
    s.consistent = true → s.cfg.dataflow = .ws → a.arrayOperand s.params = true → d.arrayOperand s.params = true →
    (doPreload = true → tileInRange s) → operandInRange s.params a s.cfg.aStride.toNat →
    operandInRange s.params d 1 → destinationInRange s →
    ∃ t, exec (computeOf doPreload a d) s = .next t ∧
      t = (((s.withReport none).withSp t.sp).withAcc t.acc).withPe t.pe ∧
      (∀ i < s.params.dim, ∀ j < s.params.dim, t.peAt i j = startPe s doPreload i j) ∧
      resultWritten s t (wsResult s doPreload a d)

/-- The weights are never mutated by a WS compute: `COMPUTE_ACCUMULATED` in WS dataflow leaves `PE` as it was, also when
it ends in an error (R25, R177, R178). -/
def Obligations.WsComputeKeepsWeights : Prop :=
  ∀ (a d : AddrOperand) (s t : State), s.cfg.dataflow = .ws → exec (.computeAccumulated a d) s = .next t → t.pe = s.pe

/-- A WS compute with an operand row outside the scratchpad raises `OutOfRange`, leaves `PE` as the preload step set it,
and writes no destination cell (R174, R307). -/
def Obligations.WsOperandOutOfRange : Prop :=
  ∀ (doPreload : Bool) (a d : AddrOperand) (s : State),
    s.consistent = true → s.cfg.dataflow = .ws → a.arrayOperand s.params = true → d.arrayOperand s.params = true →
    (doPreload = true → tileInRange s) →
    ¬ (operandInRange s.params a s.cfg.aStride.toNat ∧ operandInRange s.params d 1) →
    ∃ t, exec (computeOf doPreload a d) s = .next t ∧ t.report = some (.fatal (.outOfRange .scratchpadRow)) ∧
      t = ((s.withReport t.report).withStatus (.faulted (.outOfRange .scratchpadRow))).withPe t.pe ∧
      ∀ i < s.params.dim, ∀ j < s.params.dim, t.peAt i j = startPe s doPreload i j

/-- An OS compute with an operand row outside the scratchpad raises `OutOfRange` at the first cell (i₀, j₀) of the array
that reads one: the cells before it hold their results, every other cell of `PE` what the preload step left, and nothing
else changes (R174, R175, R307). -/
def Obligations.OsOperandOutOfRange : Prop :=
  ∀ (doPreload : Bool) (a b : AddrOperand) (s : State),
    s.consistent = true → s.cfg.dataflow = .os → a.arrayOperand s.params = true → b.arrayOperand s.params = true →
    (doPreload = true → tileInRange s) →
    ¬ (operandInRange s.params a s.cfg.aStride.toNat ∧ operandInRange s.params b 1) →
    ∃ t, exec (computeOf doPreload a b) s = .next t ∧ t.report = some (.fatal (.outOfRange .scratchpadRow)) ∧
      t = ((s.withReport t.report).withStatus (.faulted (.outOfRange .scratchpadRow))).withPe t.pe ∧
      ∃ i₀ < s.params.dim, ∃ j₀ < s.params.dim, ¬ osCellInRange s a b i₀ j₀ ∧
        ∀ i < s.params.dim, ∀ j < s.params.dim,
          (runsBefore i j i₀ j₀ → osCellInRange s a b i j ∧ t.peAt i j = osResult s doPreload a b i j) ∧
          (¬ runsBefore i j i₀ j₀ → t.peAt i j = startPe s doPreload i j)

/-- `COMPUTE_PRELOADED` with a row of the recorded tile outside the scratchpad raises `OutOfRange` in the preload step, in
both dataflows, at the first cell (i₀, j₀) of the array that reads one: the cells before it are preloaded, every other
cell of `PE` is as it was, and nothing else changes (R173, R307). -/
def Obligations.PreloadTileOutOfRange : Prop :=
  ∀ (a bd : AddrOperand) (s : State),
    s.consistent = true → a.arrayOperand s.params = true → bd.arrayOperand s.params = true → ¬ tileInRange s →
    ∃ t, exec (.computePreloaded a bd) s = .next t ∧ t.report = some (.fatal (.outOfRange .scratchpadRow)) ∧
      t = ((s.withReport t.report).withStatus (.faulted (.outOfRange .scratchpadRow))).withPe t.pe ∧
      ∃ i₀ < s.params.dim, ∃ j₀ < s.params.dim, ¬ tileEntryInRange s i₀ j₀ ∧
        ∀ i < s.params.dim, ∀ j < s.params.dim,
          (runsBefore i j i₀ j₀ → tileEntryInRange s i j ∧ t.peAt i j = tileEntry s i j) ∧
          (¬ runsBefore i j i₀ j₀ → t.peAt i j = s.peAt i j)

/-- A compute, all of whose reads are in range, with a destination row outside its bank raises `OutOfRange` in the result
write: `PE` is as after the multiply-accumulate, the destination cells whose row exists are written, and nothing else
changes (R179, R307). -/
def Obligations.ResultWriteOutOfRange : Prop :=
  ∀ (doPreload : Bool) (a bd : AddrOperand) (s : State),
    s.consistent = true → a.arrayOperand s.params = true → bd.arrayOperand s.params = true →
    (doPreload = true → tileInRange s) → operandInRange s.params a s.cfg.aStride.toNat →
    operandInRange s.params bd 1 → ¬ destinationInRange s →
    ∃ t, exec (computeOf doPreload a bd) s = .next t ∧
      t.report = some (.fatal (.outOfRange (if s.out.toAcc then .accumulatorRow else .scratchpadRow))) ∧
      t.status = .faulted (.outOfRange (if s.out.toAcc then .accumulatorRow else .scratchpadRow)) ∧
      t = ((((s.withReport t.report).withStatus t.status).withSp t.sp).withAcc t.acc).withPe t.pe ∧
      (s.cfg.dataflow = .os →
        (∀ i < s.params.dim, ∀ j < s.params.dim, t.peAt i j = osResult s doPreload a bd i j) ∧
        resultWrittenTo s t (osResult s doPreload a bd) (inDestinationAndBank s)) ∧
      (s.cfg.dataflow = .ws →
        (∀ i < s.params.dim, ∀ j < s.params.dim, t.peAt i j = startPe s doPreload i j) ∧
        resultWrittenTo s t (wsResult s doPreload a bd) (inDestinationAndBank s))

/-- Dataflow equivalence: without transposition, with shift 0 and no activation, `PRELOAD D, dest; COMPUTE_PRELOADED A, B`
in OS and `PRELOAD B, dest; COMPUTE_PRELOADED A, D` in WS leave the same banks, and both write the saturated wrapped
`D + A*B` to a scratchpad destination, or the unsaturated word to an overwriting accumulator destination (R181). -/
def Obligations.DataflowEquivalence : Prop :=
  ∀ (a b d dst : AddrOperand) (s : State),
    s.consistent = true → s.cfg.aTranspose = false → s.cfg.bTranspose = false → s.cfg.sysShift = 0 →
    s.cfg.sysAct = .identity →
    a.arrayOperand s.params = true → b.arrayOperand s.params = true → d.arrayOperand s.params = true →
    dst.isNull = false → dst.nrows ≤ s.params.dim → dst.ncols ≤ s.params.dim →
    operandInRange s.params a s.cfg.aStride.toNat → operandInRange s.params b 1 → operandInRange s.params d 1 →
    (dst.ncols ≠ 0 → ∀ i < dst.nrows, dst.base + i < extentOf s.params dst.isAcc) →
    ∃ t u,
      runProgram [.preload d dst, .computePreloaded a b] (s.withCfg { s.cfg with dataflow := .os }) = .next t ∧
      runProgram [.preload b dst, .computePreloaded a d] (s.withCfg { s.cfg with dataflow := .ws }) = .next u ∧
      t.report = none ∧ u.report = none ∧ t.sp = u.sp ∧ t.acc = u.acc ∧
      ∀ i < dst.nrows, ∀ j < dst.ncols,
        (dst.isAcc = false → t.spAt (dst.base + i) j =
          satTo s.params.elemBits (wrapTo s.params.accBits
            (entryD s d i j + ∑ k ∈ Finset.range s.params.dim, entryA s a i k * entryB s b k j))) ∧
        (dst.isAcc = true → dst.accumulate = false → t.accAt (dst.base + i) j =
          wrapTo s.params.accBits
            (entryD s d i j + ∑ k ∈ Finset.range s.params.dim, entryA s a i k * entryB s b k j))

/-! ## The quantizer (43_quantizer.md) -/

/-- `RoundShift(x, n)` is x / 2^n rounded to the nearest integer, a tie going to the even neighbour (R200). -/
def Obligations.RoundShiftNearestEven : Prop :=
  ∀ (x : Int) (n : Nat),
    2 * |roundShift x n * 2 ^ n - x| ≤ 2 ^ n ∧
    (2 * |roundShift x n * 2 ^ n - x| = 2 ^ n → roundShift x n % 2 = 0) ∧ roundShift x 0 = x ∧
    (1 ≤ n → roundShift x n = x / 2 ^ n +
      if x / 2 ^ (n - 1) % 2 = 1 ∧ (x % 2 ^ (n - 1) ≠ 0 ∨ x / 2 ^ n % 2 = 1) then 1 else 0)

/-- The rounding-saturating shift is the rounded shift clamped to the narrow range; it lies in that range, and equals the
shifted value where that is exact and in range (R201, R202). -/
def Obligations.RoundingSaturatingShiftClamps : Prop :=
  ∀ (p : Params) (v q : Int) (n : Nat), p.legal = true →
    roundingSaturatingShift p v n =
      min (max (roundShift v n) (-(2 : Int) ^ (p.elemBits - 1))) ((2 : Int) ^ (p.elemBits - 1) - 1) ∧
    minOf p.elemBits ≤ roundingSaturatingShift p v n ∧ roundingSaturatingShift p v n ≤ maxOf p.elemBits ∧
    (v = q * 2 ^ n → minOf p.elemBits ≤ q → q ≤ maxOf p.elemBits → roundingSaturatingShift p v n = q)

/-- The three activations and their bounds; a narrow value stays narrow (R203). -/
def Obligations.ActivationBounds : Prop :=
  ∀ (p : Params) (act : Activation) (sh : Nat) (x : Int), p.legal = true →
    activate .identity sh x = x ∧ activate .relu sh x = max x 0 ∧ 0 ≤ activate .relu sh x ∧
    activate .relu6 sh x = min (max x 0) (6 * 2 ^ sh) ∧ 0 ≤ activate .relu6 sh x ∧ activate .relu6 sh x ≤ 6 * 2 ^ sh ∧
    (fitsIn p.elemBits x = true → fitsIn p.elemBits (activate act sh x) = true)

/-- `ScaleRNE`: with the significand m and the exponent e that R204 reads from the bits of the pattern, the exact product
P rounded once to the nearest integer, ties to even; and its four consequences (R204, R205). -/
def Obligations.ScaleIsExactProductRoundedOnce : Prop :=
  (∀ (x : Int) (p : Half),
    let exp : Nat := (p.extractLsb' 23 8).toNat
    let frac : Nat := (p.extractLsb' 0 23).toNat
    let m : Int := if exp = 0 then frac else 2 ^ 23 + frac
    let e : Int := if exp = 0 then -149 else exp - 150
    let P : Int := (if p.getLsbD 31 then -1 else 1) * m * x
    (0 ≤ e → scaleRNE x p = P * 2 ^ e.toNat) ∧
    (e < 0 →
      scaleRNE x p = roundShift P (-e).toNat ∧
      2 * |scaleRNE x p * 2 ^ (-e).toNat - P| ≤ 2 ^ (-e).toNat ∧
      (2 * |scaleRNE x p * 2 ^ (-e).toNat - P| = 2 ^ (-e).toNat → scaleRNE x p % 2 = 0))) ∧
  (∀ x, scaleRNE x 0x3F800000 = x) ∧ (∀ x, scaleRNE x 0 = 0 ∧ scaleRNE x 0x80000000 = 0) ∧
  (∀ p, scaleRNE 0 p = 0) ∧ (∀ x, scaleRNE x 0xBF800000 = -x)

/-- The two pipelines: on the system side shift, clamp and activation, with no scale; on the accumulator side shift, scale,
one clamp, then the activation, which is the shift alone at scale 1.0 and the scale alone at shift 0 (R207, R208). -/
def Obligations.PipelinesRecoverEachFunction : Prop :=
  ∀ (p : Params) (cfg : Cfg) (w : Int), p.legal = true →
    fitsIn p.elemBits (sysQuantize p cfg w) = true ∧ fitsIn p.elemBits (accReadout p cfg w) = true ∧
    sysQuantize p cfg w =
      activate cfg.sysAct cfg.relu6Shift.toNat (roundingSaturatingShift p w cfg.sysShift.toNat) ∧
    |roundShift w cfg.accShift.toNat| ≤ |w| ∧
    accReadout p cfg w = activate cfg.accAct cfg.relu6Shift.toNat
      (satTo p.elemBits (scaleRNE (roundShift w cfg.accShift.toNat) cfg.accScale)) ∧
    (cfg.accScale = 0x3F800000 → accReadout p cfg w =
      activate cfg.accAct cfg.relu6Shift.toNat (roundingSaturatingShift p w cfg.accShift.toNat)) ∧
    (cfg.accShift = 0 → accReadout p cfg w =
      activate cfg.accAct cfg.relu6Shift.toNat (scaleSat p.elemBits w cfg.accScale))

/-- The number forms: `wrap_N` is the one N-bit signed integer congruent modulo 2^N; `sext_N` undoes `bits_N` (R10). -/
def Obligations.NumberForms : Prop :=
  ∀ (n : Nat) (x y : Int), 1 ≤ n →
    minOf n ≤ wrapTo n x ∧ wrapTo n x ≤ maxOf n ∧ (2 : Int) ^ n ∣ x - wrapTo n x ∧
    (minOf n ≤ y → y ≤ maxOf n → (2 : Int) ^ n ∣ x - y → y = wrapTo n x) ∧
    (minOf n ≤ x → x ≤ maxOf n → sextFrom n (bitsOf n x) = x)

/-! ## The configuration commands (44_config.md) -/

/-- `CONFIG_EX` (funct 0, selector 0): its operand fields, its three rejections in the order tested, and the eight fields
it writes (R221, R222). -/
def Obligations.ConfigExWritesEightFields : Prop :=
  (∀ rs1 rs2 : Word, rs1.extractLsb' 0 2 = 0 → decode ⟨0, rs1, rs2⟩ = .ok (.configEx
    ⟨if rs1.getLsbD 2 then .ws else .os, rs1.extractLsb' 3 2, rs1.getLsbD 8, rs1.getLsbD 9, rs1.extractLsb' 16 16,
      rs1.extractLsb' 32 32, rs2.extractLsb' 0 32, rs2.extractLsb' 32 32⟩)) ∧
  ∀ (w : ExConfig) (s : State),
    (w.act = 3 → exec (.configEx w) s =
      .next (s.takeError (.fatal (.configurationViolation .reservedActivation)))) ∧
    (w.act ≠ 3 →
      s.params.accBits ≤ w.accShift.toNat ∨ s.params.accBits ≤ w.sysShift.toNat ∨
        s.params.accBits ≤ w.relu6Shift.toNat →
      exec (.configEx w) s = .next (s.takeError (.fatal (.configurationViolation .shiftRange)))) ∧
    (w.act ≠ 3 → w.accShift.toNat < s.params.accBits → w.sysShift.toNat < s.params.accBits →
      w.relu6Shift.toNat < s.params.accBits →
      (w.dataflow = .os ∧ w.aTranspose = false ∧ w.bTranspose = true) ∨
        (w.dataflow = .ws ∧ w.aTranspose = true ∧ w.bTranspose = true) →
      exec (.configEx w) s = .next (s.takeError (.fatal (.configurationViolation .transposeCombination)))) ∧
    (∀ act, (w.act = 0 ∧ act = .identity) ∨ (w.act = 1 ∧ act = .relu) ∨ (w.act = 2 ∧ act = .relu6) →
      w.accShift.toNat < s.params.accBits → w.sysShift.toNat < s.params.accBits →
      w.relu6Shift.toNat < s.params.accBits →
      ¬ ((w.dataflow = .os ∧ w.aTranspose = false ∧ w.bTranspose = true) ∨
        (w.dataflow = .ws ∧ w.aTranspose = true ∧ w.bTranspose = true)) →
      exec (.configEx w) s = .next ((s.withReport none).withCfg
        { s.cfg with dataflow := w.dataflow, sysAct := act, aTranspose := w.aTranspose, bTranspose := w.bTranspose,
                     aStride := w.aStride, accShift := w.accShift, sysShift := w.sysShift,
                     relu6Shift := w.relu6Shift }))

/-- `CONFIG_LD` (funct 0, selector 1): its operand fields, its two rejections, and the load state it writes; the other two
load states and all else stay (R224). -/
def Obligations.ConfigLdWritesOneLoadState : Prop :=
  (∀ rs1 rs2 : Word, rs1.extractLsb' 0 2 = 1 → decode ⟨0, rs1, rs2⟩ = .ok (.configLd
    ⟨rs1.getLsbD 2, rs1.extractLsb' 3 2, rs1.extractLsb' 32 32, rs2⟩)) ∧
  ∀ (w : LdConfig) (s : State),
    (w.stateId = 3 → exec (.configLd w) s =
      .next (s.takeError (.fatal (.configurationViolation .reservedStateId)))) ∧
    (w.stateId ≠ 3 → w.scale.extractLsb' 23 8 = 255 → exec (.configLd w) s =
      .next (s.takeError (.fatal (.configurationViolation .scaleNotFinite)))) ∧
    (w.scale.extractLsb' 23 8 ≠ 255 →
      (w.stateId = 0 → exec (.configLd w) s =
        .next ((s.withReport none).withCfg { s.cfg with load0 := ⟨w.stride, w.scale, w.shrunk⟩ })) ∧
      (w.stateId = 1 → exec (.configLd w) s =
        .next ((s.withReport none).withCfg { s.cfg with load1 := ⟨w.stride, w.scale, w.shrunk⟩ })) ∧
      (w.stateId = 2 → exec (.configLd w) s =
        .next ((s.withReport none).withCfg { s.cfg with load2 := ⟨w.stride, w.scale, w.shrunk⟩ })))

/-- `CONFIG_ST` (funct 0, selector 2): its operand fields, its three rejections in the order tested, and the twelve fields
it writes (R225, R226). -/
def Obligations.ConfigStWritesStoreFields : Prop :=
  (∀ rs1 rs2 : Word, rs1.extractLsb' 0 2 = 2 → decode ⟨0, rs1, rs2⟩ = .ok (.configSt
    ⟨rs1.extractLsb' 2 2,
      ⟨rs1.extractLsb' 4 2, rs1.extractLsb' 6 2, rs1.extractLsb' 8 2, rs1.extractLsb' 10 2, rs1.extractLsb' 24 8,
        rs1.extractLsb' 32 8, rs1.extractLsb' 40 8, rs1.extractLsb' 48 8, rs1.extractLsb' 56 8⟩,
      rs2.extractLsb' 0 32, rs2.extractLsb' 32 32⟩)) ∧
  ∀ (w : StConfig) (s : State),
    (w.act = 3 → exec (.configSt w) s =
      .next (s.takeError (.fatal (.configurationViolation .reservedActivation)))) ∧
    (w.act ≠ 3 → w.scale.extractLsb' 23 8 = 255 → exec (.configSt w) s =
      .next (s.takeError (.fatal (.configurationViolation .scaleNotFinite)))) ∧
    (w.act ≠ 3 → w.scale.extractLsb' 23 8 ≠ 255 → w.pool.stride ≠ 0 → w.pool.size = 0 → exec (.configSt w) s =
      .next (s.takeError (.fatal (.configurationViolation .poolGeometry)))) ∧
    (∀ act, (w.act = 0 ∧ act = .identity) ∨ (w.act = 1 ∧ act = .relu) ∨ (w.act = 2 ∧ act = .relu6) →
      w.scale.extractLsb' 23 8 ≠ 255 → w.pool.stride = 0 ∨ w.pool.size ≠ 0 →
      exec (.configSt w) s = .next ((s.withReport none).withCfg
        { s.cfg with accAct := act, pool := w.pool, storeStride := w.stride, accScale := w.scale }))

/-! ## The sequencer (45_tiling.md) and the no-ops (46_flush_fence.md) -/

/-- The five `LOOP_WS_CONFIG_*` commands (funct 9 to 13) complete in every state, write the fields they carry and nothing
else (R251, R252, R253, R254, R255). -/
def Obligations.TilingCommandsWriteTheirFields : Prop :=
  (∀ rs1 rs2 : Word,
    decode ⟨9, rs1, rs2⟩ = .ok (.loopWsConfigBounds
      ⟨rs1.extractLsb' 0 16, rs1.extractLsb' 16 16, rs1.extractLsb' 32 16,
        rs2.extractLsb' 0 16, rs2.extractLsb' 16 16, rs2.extractLsb' 32 16⟩) ∧
    decode ⟨10, rs1, rs2⟩ = .ok (.loopWsConfigAddrsAb rs1 rs2) ∧
    decode ⟨11, rs1, rs2⟩ = .ok (.loopWsConfigAddrsDc rs1 rs2) ∧
    decode ⟨12, rs1, rs2⟩ = .ok (.loopWsConfigStridesAb rs1 rs2) ∧
    decode ⟨13, rs1, rs2⟩ = .ok (.loopWsConfigStridesDc rs1 rs2)) ∧
  ∀ s : State,
    (∀ b, exec (.loopWsConfigBounds b) s = .next ((s.withReport none).withLw { s.lw with bounds := b })) ∧
    (∀ a b, exec (.loopWsConfigAddrsAb a b) s = .next ((s.withReport none).withLw { s.lw with a := a, b := b })) ∧
    (∀ d c, exec (.loopWsConfigAddrsDc d c) s = .next ((s.withReport none).withLw { s.lw with d := d, c := c })) ∧
    (∀ a b, exec (.loopWsConfigStridesAb a b) s =
      .next ((s.withReport none).withLw { s.lw with aStride := a, bStride := b })) ∧
    (∀ d c, exec (.loopWsConfigStridesDc d c) s =
      .next ((s.withReport none).withLw { s.lw with dStride := d, cStride := c }))

/-- `FLUSH` (funct 7) and `FENCE` (funct 127) ignore their operands, complete in every state and change no state of the
block (R280, R281). -/
def Obligations.FlushAndFenceDoNothing : Prop :=
  (∀ rs1 rs2 : Word, decode ⟨7, rs1, rs2⟩ = .ok .flush ∧ decode ⟨127, rs1, rs2⟩ = .ok .fence) ∧
  ∀ s : State, exec .flush s = .next (s.withReport none) ∧ exec .fence s = .next (s.withReport none)

/-- The three checks of `LOOP_WS`, in the order tested (R258). -/
def Obligations.LoopWsRejections : Prop :=
  ∀ (f : LoopFlags) (s : State),
    (s.cfg.dataflow = .os ∨ s.cfg.aTranspose = true ∨ s.cfg.bTranspose = true → exec (.loopWs f) s =
      .next (s.takeError (.fatal (.configurationViolation .loopNeedsWS)))) ∧
    (s.cfg.dataflow = .ws → s.cfg.aTranspose = false → s.cfg.bTranspose = false →
      s.params.dim < s.lw.bounds.padI.toNat ∨ s.params.dim < s.lw.bounds.padJ.toNat ∨
        s.params.dim < s.lw.bounds.padK.toNat →
      exec (.loopWs f) s = .next (s.takeError (.fatal (.configurationViolation .countRange)))) ∧
    (s.cfg.dataflow = .ws → s.cfg.aTranspose = false → s.cfg.bTranspose = false →
      s.lw.bounds.padI.toNat ≤ s.params.dim → s.lw.bounds.padJ.toNat ≤ s.params.dim →
      s.lw.bounds.padK.toNat ≤ s.params.dim →
      s.params.spRows / 2 < (s.lw.bounds.tilesI.toNat * s.lw.bounds.tilesK.toNat +
          s.lw.bounds.tilesK.toNat * s.lw.bounds.tilesJ.toNat) * s.params.dim ∨
        s.params.accRows / 2 < s.lw.bounds.tilesI.toNat * s.lw.bounds.tilesJ.toNat * s.params.dim →
      exec (.loopWs f) s = .next (s.takeError (.fatal (.configurationViolation .tileBounds))))

/-- `LOOP_WS`, its checks passed, does exactly what the host would have done by sending the primitive commands of its two
phases one after another, an error or a refused address among them included (R258). -/
def Obligations.LoopWsIsItsProgram : Prop :=
  ∀ (f : LoopFlags) (s : State), loopAccepted s →
    exec (.loopWs f) s = runProgram (loopProgram s f) (s.withReport none)

/-- `LOOP_WS` completes where its checks pass, the A rows it reads are in range, and, with an output, pooling is off and no
tile of C starts at address 0: it is its program, run without error; configuration and tiling record stay, the scratchpad
changes only in the A and B regions, the accumulator only in the C region, DRAM only in the bytes of C (R256, R258). -/
def Obligations.LoopWsCompletes : Prop :=
  ∀ (f : LoopFlags) (s : State), s.consistent = true → loopAccepted s →
    (∀ addr, dramAdmit s.params addr = true) →
    (∀ i < s.lw.bounds.tilesI.toNat, ∀ k < s.lw.bounds.tilesK.toNat, dimK s k ≠ 0 → ∀ r < rowsI s i,
      aTileRow s i k + s.cfg.aStride.toNat * r < s.params.spRows) →
    (s.lw.c ≠ 0 → s.cfg.pool.stride = 0 ∧
      ∀ i < s.lw.bounds.tilesI.toNat, ∀ j < s.lw.bounds.tilesJ.toNat,
        tileAddress s s.lw.c s.lw.cStride i j (sizeofC s f) ≠ 0) →
    ∃ t, exec (.loopWs f) s = .next t ∧ runProgram (loopProgram s f) (s.withReport none) = .next t ∧
      t.report = none ∧ onlyDataChanged s t ∧
      (∀ row, ∀ col < s.params.dim,
        s.lw.bounds.tilesI.toNat * s.lw.bounds.tilesK.toNat * s.params.dim ≤ row →
        row < s.params.spRows / 2 - s.lw.bounds.tilesK.toNat * s.lw.bounds.tilesJ.toNat * s.params.dim ∨
          s.params.spRows / 2 ≤ row →
        t.spAt row col = s.spAt row col) ∧
      (∀ row, ∀ col < s.params.dim, s.lw.bounds.tilesI.toNat * s.lw.bounds.tilesJ.toNat * s.params.dim ≤ row →
        t.accAt row col = s.accAt row col) ∧
      (∀ x, (s.lw.c ≠ 0 → ∀ i < s.lw.bounds.tilesI.toNat, ∀ j < s.lw.bounds.tilesJ.toNat,
          ∀ r < rowsI s i, ∀ c < colsJ s j, ∀ b < sizeofC s f,
          x ≠ byteAddress (dramAddress ((tileAddress s s.lw.c s.lw.cStride i j (sizeofC s f)).toNat +
            r * s.cfg.storeStride.toNat + c * sizeofC s f)) b) →
        t.byteAt x = s.byteAt x)

/-- With no tile in I or in J, or none in K and no bias, an accepted `LOOP_WS` changes nothing (R258). -/
def Obligations.LoopWsWithoutTilesDoesNothing : Prop :=
  ∀ (f : LoopFlags) (s : State), loopAccepted s →
    s.lw.bounds.tilesI = 0 ∨ s.lw.bounds.tilesJ = 0 ∨ (s.lw.bounds.tilesK = 0 ∧ s.lw.d = 0) →
    exec (.loopWs f) s = .next (s.withReport none)

end Statements
end

