-- ==== Sys2Proof/Laws/Loops.lean ====
section
/-!
SUPPORT. Laws/Loops.lean: the loops of the pseudocode as loops over a list of items, so that a nest of loops is one
loop; the laws that carry a property through a loop, and that turn a loop of writes into one list of writes.
-/

namespace Sys2Proof.Machine

/-! ## Results -/

/-- The state a procedure ended in, stopped or not. -/
def Res.state : Res → State
  | .done s => s
  | .stop _ s => s

@[simp] theorem Res.state_done (s : State) : (Res.done s).state = s := rfl
@[simp] theorem Res.state_stop (w : Stop) (s : State) : (Res.stop w s).state = s := rfl
@[simp] theorem Res.andThen_done (s : State) (f : State → Res) : (Res.done s).andThen f = f s := rfl
@[simp] theorem Res.andThen_stop (w : Stop) (s : State) (f : State → Res) : (Res.stop w s).andThen f = .stop w s := rfl

@[simp] theorem Res.andThen_done_right (r : Res) : r.andThen .done = r := by cases r <;> rfl

theorem Res.andThen_assoc (r : Res) (f g : State → Res) :
    (r.andThen f).andThen g = r.andThen fun s => (f s).andThen g := by cases r <;> rfl

@[simp] theorem check_false (reason : ConfigReason) (s : State) (rest : Res) : check false reason s rest = rest := rfl
@[simp] theorem check_true (reason : ConfigReason) (s : State) (rest : Res) :
    check true reason s rest = .stop (Stop.violation reason) s := rfl

/-- Everything a check can do: nothing, or the violation with the state as it was. -/
theorem check_eq (bad : Bool) (reason : ConfigReason) (s : State) (rest : Res) :
    (bad = false ∧ check bad reason s rest = rest) ∨
      (bad = true ∧ check bad reason s rest = .stop (Stop.violation reason) s) := by
  cases bad <;> simp

/-- A property of the state before a check, and of what follows it, holds after. -/
theorem check_keeps {P : State → Prop} {bad : Bool} {reason : ConfigReason} {s : State} {rest : Res} (hs : P s)
    (hr : P rest.state) : P (check bad reason s rest).state := by
  cases bad
  · exact hr
  · exact hs

theorem Res.andThen_keeps {P : State → Prop} {r : Res} {f : State → Res} (hr : P r.state)
    (hf : ∀ s, P s → P (f s).state) : P (r.andThen f).state := by
  cases r with
  | done s => exact hf s hr
  | stop w s => exact hr

/-! ## Loops over a list of items -/

/-- The body for each item in turn, ending at the first stop. -/
def runAll {ι : Type} (body : ι → State → Res) : List ι → State → Res
  | [], s => .done s
  | x :: xs, s => (body x s).andThen (runAll body xs)

@[simp] theorem runAll_nil {ι : Type} (body : ι → State → Res) (s : State) : runAll body [] s = .done s := rfl
@[simp] theorem runAll_cons {ι : Type} (body : ι → State → Res) (x : ι) (xs : List ι) (s : State) :
    runAll body (x :: xs) s = (body x s).andThen (runAll body xs) := rfl

theorem runAll_append {ι : Type} (body : ι → State → Res) (xs ys : List ι) (s : State) :
    runAll body (xs ++ ys) s = (runAll body xs s).andThen (runAll body ys) := by
  induction xs generalizing s with
  | nil => rfl
  | cons x t ih =>
    simp only [List.cons_append, runAll_cons, Res.andThen_assoc]
    congr 1
    funext s'
    exact ih s'

theorem forFrom_eq_runAll (body : Nat → State → Res) (n i : Nat) (s : State) :
    forFrom body n i s = runAll body (List.range' i n) s := by
  induction n generalizing i s with
  | zero => rfl
  | succ n ih =>
    rw [List.range'_succ, runAll_cons, forFrom]
    cases body i s with
    | done s' => exact ih (i + 1) s'
    | stop w s' => rfl

/-- A loop of the pseudocode is a loop over the list of its indices. -/
theorem forRange_eq_runAll (n : Nat) (body : Nat → State → Res) (s : State) :
    forRange n body s = runAll body (List.range n) s := by
  rw [forRange, forFrom_eq_runAll, List.range_eq_range']

theorem runAll_congr {ι : Type} {body body' : ι → State → Res} {xs : List ι}
    (h : ∀ x ∈ xs, ∀ s, body x s = body' x s) (s : State) : runAll body xs s = runAll body' xs s := by
  induction xs generalizing s with
  | nil => rfl
  | cons x t ih =>
    rw [runAll_cons, runAll_cons, h x List.mem_cons_self]
    cases body' x s with
    | done s' => exact ih (fun y hy => h y (List.mem_cons_of_mem _ hy)) s'
    | stop w s' => rfl

theorem runAll_map {ι κ : Type} (g : κ → ι) (body : ι → State → Res) (xs : List κ) (s : State) :
    runAll body (xs.map g) s = runAll (fun x => body (g x)) xs s := by
  induction xs generalizing s with
  | nil => rfl
  | cons x t ih =>
    rw [List.map_cons, runAll_cons, runAll_cons]
    congr 1
    funext s'
    exact ih s'

theorem runAll_flatMap {ι κ : Type} (g : κ → List ι) (body : ι → State → Res) (xs : List κ) (s : State) :
    runAll body (xs.flatMap g) s = runAll (fun x => runAll body (g x)) xs s := by
  induction xs generalizing s with
  | nil => rfl
  | cons x t ih =>
    rw [List.flatMap_cons, runAll_append, runAll_cons]
    congr 1
    funext s'
    exact ih s'

/-- The index pairs of a nest of two loops, in the order they run. -/
def pairsOf (n m : Nat) : List (Nat × Nat) := (List.range n).flatMap fun r => (List.range m).map fun c => (r, c)

@[simp] theorem mem_pairsOf {n m : Nat} {x : Nat × Nat} : x ∈ pairsOf n m ↔ x.1 < n ∧ x.2 < m := by
  obtain ⟨r, c⟩ := x
  simp [pairsOf]

theorem nodup_pairsOf (n m : Nat) : (pairsOf n m).Nodup := by
  unfold pairsOf
  rw [List.nodup_flatMap]
  refine ⟨fun r _ => List.nodup_range.map (fun a b h => by simpa using h), ?_⟩
  refine List.nodup_range.imp ?_
  intro a b hab x hx hy
  simp only [List.mem_map] at hx hy
  obtain ⟨c, -, rfl⟩ := hx
  obtain ⟨c', -, h⟩ := hy
  exact hab (congrArg Prod.fst h).symm

/-- A nest of two loops is one loop over the index pairs. -/
theorem forRange_nest (n m : Nat) (body : Nat → Nat → State → Res) (s : State) :
    forRange n (fun r => forRange m (fun c => body r c)) s = runAll (fun x => body x.1 x.2) (pairsOf n m) s := by
  rw [pairsOf, runAll_flatMap, forRange_eq_runAll]
  refine runAll_congr (fun r _ s => ?_) s
  rw [runAll_map, forRange_eq_runAll]

/-- A property every iteration keeps holds after the loop, stopped or not. -/
theorem runAll_keeps {ι : Type} {P : State → Prop} {body : ι → State → Res} {xs : List ι}
    (hb : ∀ x ∈ xs, ∀ s, P s → P (body x s).state) {s : State} (hs : P s) : P (runAll body xs s).state := by
  induction xs generalizing s with
  | nil => exact hs
  | cons x t ih =>
    rw [runAll_cons]
    exact Res.andThen_keeps (hb x List.mem_cons_self s hs)
      (fun s' hs' => ih (fun y hy => hb y (List.mem_cons_of_mem _ hy)) hs')

theorem forRange_keeps {P : State → Prop} {n : Nat} {body : Nat → State → Res}
    (hb : ∀ i < n, ∀ s, P s → P (body i s).state) {s : State} (hs : P s) : P (forRange n body s).state := by
  rw [forRange_eq_runAll]
  exact runAll_keeps (fun i hi => hb i (List.mem_range.mp hi)) hs

/-- A loop in which every iteration ends normally, in a state with a property the next one needs, ends normally. -/
theorem runAll_done {ι : Type} {P : State → Prop} {body : ι → State → Res} {xs : List ι}
    (hb : ∀ x ∈ xs, ∀ s, P s → ∃ t, body x s = .done t ∧ P t) {s : State} (hs : P s) :
    ∃ t, runAll body xs s = .done t ∧ P t := by
  induction xs generalizing s with
  | nil => exact ⟨s, rfl, hs⟩
  | cons x t ih =>
    obtain ⟨u, hu, hp⟩ := hb x List.mem_cons_self s hs
    obtain ⟨v, hv, hq⟩ := ih (fun y hy => hb y (List.mem_cons_of_mem _ hy)) hp
    exact ⟨v, by rw [runAll_cons, hu]; exact hv, hq⟩

/-- A loop whose items before x end normally, and which stops at x, stops there. -/
theorem runAll_stop_at {ι : Type} {body : ι → State → Res} {before after : List ι} {x : ι} {s t u : State} {w : Stop}
    (hb : runAll body before s = .done t) (hx : body x t = .stop w u) :
    runAll body (before ++ x :: after) s = .stop w u := by
  rw [runAll_append, hb, Res.andThen_done, runAll_cons, hx, Res.andThen_stop]

/-- A list with an item that lacks a property has a first one. -/
theorem exists_first {ι : Type} {P : ι → Prop} {xs : List ι} (h : ¬ ∀ x ∈ xs, P x) :
    ∃ before x after, xs = before ++ x :: after ∧ (∀ y ∈ before, P y) ∧ ¬ P x := by
  induction xs with
  | nil => simp at h
  | cons x t ih =>
    by_cases hx : P x
    · obtain ⟨before, y, after, e, hb, hy⟩ := ih fun ht => h fun z hz => by
        rcases List.mem_cons.mp hz with rfl | hz
        · exact hx
        · exact ht z hz
      exact ⟨x :: before, y, after, by rw [e]; rfl, fun z hz => by
        rcases List.mem_cons.mp hz with rfl | hz
        · exact hx
        · exact hb z hz, hy⟩
    · exact ⟨[], x, t, rfl, by simp, hx⟩

/-- Only the property of stopping with a reason of some kind: a stop of a loop is a stop of some iteration. -/
theorem runAll_stops {ι : Type} {Q : Stop → Prop} {body : ι → State → Res} {xs : List ι}
    (hb : ∀ x ∈ xs, ∀ s w t, body x s = .stop w t → Q w) {s t : State} {w : Stop} (h : runAll body xs s = .stop w t) :
    Q w := by
  induction xs generalizing s with
  | nil => cases h
  | cons x xs ih =>
    rw [runAll_cons] at h
    cases hx : body x s with
    | done s' =>
      rw [hx] at h
      exact ih (fun y hy => hb y (List.mem_cons_of_mem _ hy)) h
    | stop w' s' =>
      rw [hx] at h
      cases h
      exact hb x List.mem_cons_self _ _ _ hx

/-! ## Loops over a value -/

/-- The body for each item in turn over a value, ending at the first stop. -/
def foldAll {ι α : Type} (body : ι → α → Except Stop α) : List ι → α → Except Stop α
  | [], a => .ok a
  | x :: xs, a =>
      match body x a with
      | .ok a' => foldAll body xs a'
      | .error w => .error w

theorem foldFrom_eq_foldAll {α : Type} (body : Nat → α → Except Stop α) (n i : Nat) (a : α) :
    foldFrom body n i a = foldAll body (List.range' i n) a := by
  induction n generalizing i a with
  | zero => rfl
  | succ n ih =>
    rw [List.range'_succ, foldFrom, foldAll]
    cases body i a with
    | ok a' => exact ih (i + 1) a'
    | error w => rfl

theorem foldRange_eq_foldAll {α : Type} (n : Nat) (body : Nat → α → Except Stop α) (a : α) :
    foldRange n body a = foldAll body (List.range n) a := by
  rw [foldRange, foldFrom_eq_foldAll, List.range_eq_range']

/-- A loop over a value in which no iteration stops is a fold. -/
theorem foldAll_ok {ι α : Type} {body : ι → α → Except Stop α} {g : α → ι → α} {xs : List ι}
    (h : ∀ x ∈ xs, ∀ a, body x a = .ok (g a x)) (a : α) : foldAll body xs a = .ok (xs.foldl g a) := by
  induction xs generalizing a with
  | nil => rfl
  | cons x t ih =>
    rw [foldAll, h x List.mem_cons_self]
    exact ih (fun y hy => h y (List.mem_cons_of_mem _ hy)) _

theorem foldRange_ok {α : Type} {n : Nat} {body : Nat → α → Except Stop α} {g : α → Nat → α}
    (h : ∀ i < n, ∀ a, body i a = .ok (g a i)) (a : α) : foldRange n body a = .ok ((List.range n).foldl g a) := by
  rw [foldRange_eq_foldAll]
  exact foldAll_ok (fun i hi => h i (List.mem_range.mp hi)) a

/-- A loop over a value in which one iteration stops, and no iteration stops for another reason, stops. -/
theorem foldAll_error {ι α : Type} {body : ι → α → Except Stop α} {xs : List ι} {w : Stop}
    (h : ∀ x ∈ xs, ∀ a, (∃ a', body x a = .ok a') ∨ body x a = .error w)
    (hw : ∃ x ∈ xs, ∀ a, body x a = .error w) (a : α) : foldAll body xs a = .error w := by
  induction xs generalizing a with
  | nil => simp at hw
  | cons x t ih =>
    rw [foldAll]
    rcases h x List.mem_cons_self a with ⟨a', e⟩ | e
    · rw [e]
      refine ih (fun y hy => h y (List.mem_cons_of_mem _ hy)) ?_ a'
      obtain ⟨y, hy, hyw⟩ := hw
      rcases List.mem_cons.mp hy with rfl | hy
      · rw [hyw] at e; cases e
      · exact ⟨y, hy, hyw⟩
    · rw [e]

theorem foldRange_error {α : Type} {n : Nat} {body : Nat → α → Except Stop α} {w : Stop}
    (h : ∀ i < n, ∀ a, (∃ a', body i a = .ok a') ∨ body i a = .error w)
    (hw : ∃ i < n, ∀ a, body i a = .error w) (a : α) : foldRange n body a = .error w := by
  rw [foldRange_eq_foldAll]
  obtain ⟨i, hi, hiw⟩ := hw
  exact foldAll_error (fun i hi => h i (List.mem_range.mp hi)) ⟨i, List.mem_range.mpr hi, hiw⟩ a

/-- A loop over a value no iteration of which stops for another reason. -/
theorem foldRange_okOr {α : Type} {n : Nat} {body : Nat → α → Except Stop α} {w : Stop}
    (h : ∀ i < n, ∀ a, (∃ a', body i a = .ok a') ∨ body i a = .error w) (a : α) :
    (∃ a', foldRange n body a = .ok a') ∨ foldRange n body a = .error w := by
  rw [foldRange_eq_foldAll]
  have : ∀ xs : List Nat, (∀ i ∈ xs, i < n) → ∀ a,
      (∃ a', foldAll body xs a = .ok a') ∨ foldAll body xs a = .error w := by
    intro xs
    induction xs with
    | nil => exact fun _ a => .inl ⟨a, rfl⟩
    | cons x t ih =>
      intro hx a
      rw [foldAll]
      rcases h x (hx x List.mem_cons_self) a with ⟨a', e⟩ | e <;> rw [e]
      · exact ih (fun i hi => hx i (List.mem_cons_of_mem _ hi)) a'
      · exact .inr rfl
  exact this _ (fun i hi => List.mem_range.mp hi) a

/-- A stop of a loop over a value is a stop of some iteration. -/
theorem foldAll_stops {ι α : Type} {Q : Stop → Prop} {body : ι → α → Except Stop α} {xs : List ι}
    (hb : ∀ x ∈ xs, ∀ a w, body x a = .error w → Q w) {a : α} {w : Stop} (h : foldAll body xs a = .error w) : Q w := by
  induction xs generalizing a with
  | nil => cases h
  | cons x xs ih =>
    rw [foldAll] at h
    cases hx : body x a with
    | ok a' =>
      rw [hx] at h
      exact ih (fun y hy => hb y (List.mem_cons_of_mem _ hy)) h
    | error w' =>
      rw [hx] at h
      cases h
      exact hb x List.mem_cons_self _ _ hx

/-- A property every iteration keeps holds of the value a loop gives. -/
theorem foldAll_keeps {ι α : Type} {P : α → Prop} {body : ι → α → Except Stop α} {xs : List ι}
    (hb : ∀ x ∈ xs, ∀ a a', P a → body x a = .ok a' → P a') {a a' : α} (ha : P a) (h : foldAll body xs a = .ok a') :
    P a' := by
  induction xs generalizing a with
  | nil => cases h; exact ha
  | cons x xs ih =>
    rw [foldAll] at h
    cases hx : body x a with
    | ok a'' =>
      rw [hx] at h
      exact ih (fun y hy => hb y (List.mem_cons_of_mem _ hy)) (hb x List.mem_cons_self _ _ ha hx) h
    | error w' => rw [hx] at h; cases h

end Sys2Proof.Machine
end

