-- ==== Sys2Proof/Laws/Sparse.lean ====
section
/-!
SUPPORT. Laws/Sparse.lean: the laws of the canonical lists: a read after a write, on every list; every write keeps the
canonical form; what a write does to the pairs of a list.
-/

namespace Sys2Proof.Machine

variable {α : Type} [DecidableEq α] (d : α)

omit [DecidableEq α] in
@[simp] theorem sparseGet_nil (k : Nat) : sparseGet d ([] : List (Nat × α)) k = d := rfl

omit [DecidableEq α] in
theorem sparseGet_erase (m : List (Nat × α)) (k k' : Nat) :
    sparseGet d (sparseErase m k) k' = if k' = k then d else sparseGet d m k' := by
  induction m with
  | nil => simp [sparseErase]
  | cons x t ih =>
    obtain ⟨a, w⟩ := x
    by_cases h : a = k
    · subst h
      by_cases h' : k' = a
      · subst h'; simp [sparseErase, ih]
      · have : ¬ a = k' := fun e => h' e.symm
        simp [sparseErase, sparseGet, ih, h', this]
    · by_cases h' : k' = k
      · subst h'; simp [sparseErase, sparseGet, ih, h]
      · simp [sparseErase, sparseGet, ih, h, h']

theorem sparseGet_put (m : List (Nat × α)) (k k' : Nat) (v : α) :
    sparseGet d (sparsePut d m k v) k' = if k' = k then v else sparseGet d m k' := by
  unfold sparsePut
  by_cases hv : v = d
  · simp [hv, sparseGet_erase]
  · by_cases h' : k' = k
    · simp [hv, h', sparseGet]
    · have : ¬ k = k' := fun e => h' e.symm
      simp [hv, h', this, sparseGet]

/-- A read after a write, on every list. -/
@[simp] theorem sparseGet_set (m : List (Nat × α)) (k k' : Nat) (v : α) :
    sparseGet d (sparseSet d m k v) k' = if k' = k then v else sparseGet d m k' := by
  induction m with
  | nil => simp [sparseSet, sparseGet_put]
  | cons x t ih =>
    obtain ⟨a, w⟩ := x
    unfold sparseSet
    split
    · rename_i h
      by_cases h' : k' = k
      · subst h'; simp [sparseGet, ih, show ¬ a = k' by omega]
      · by_cases h'' : a = k' <;> simp [sparseGet, ih, h', h'']
    · split
      · rename_i h
        subst h
        by_cases h' : k' = a
        · simp [sparseGet_put, h']
        · have : ¬ a = k' := fun e => h' e.symm
          simp [sparseGet_put, sparseGet, h', this]
      · simp [sparseGet_put]

/-! ## The canonical form -/

theorem sparseWfAbove_weaken {k k' : Nat} (h : k' ≤ k) {m : List (Nat × α)} (hm : sparseWfAbove d k m = true) :
    sparseWfAbove d k' m = true := by
  cases m with
  | nil => rfl
  | cons x t =>
    simp only [sparseWfAbove, Bool.and_eq_true, decide_eq_true_eq] at hm ⊢
    exact ⟨⟨by omega, hm.1.2⟩, hm.2⟩

theorem sparseErase_eq_self {k : Nat} {m : List (Nat × α)} (hm : sparseWfAbove d k m = true) :
    sparseErase m k = m := by
  induction m generalizing k with
  | nil => rfl
  | cons x t ih =>
    obtain ⟨a, w⟩ := x
    simp only [sparseWfAbove, Bool.and_eq_true, decide_eq_true_eq] at hm
    have h2 := sparseWfAbove_weaken d (Nat.le_of_lt hm.1.1) hm.2
    simp [sparseErase, show ¬ a = k by omega, ih h2]

theorem sparsePut_wfAbove {b k : Nat} (hb : b < k) {m : List (Nat × α)} (hm : sparseWfAbove d k m = true) (v : α) :
    sparseWfAbove d b (sparsePut d m k v) = true := by
  unfold sparsePut
  split
  · rw [sparseErase_eq_self d hm]
    exact sparseWfAbove_weaken d (Nat.le_of_lt hb) hm
  · rename_i hv
    simp [sparseWfAbove, hb, hv, hm]

theorem sparseSet_wfAbove {b k : Nat} (hb : b < k) {m : List (Nat × α)} (hm : sparseWfAbove d b m = true) (v : α) :
    sparseWfAbove d b (sparseSet d m k v) = true := by
  induction m generalizing b with
  | nil => exact sparsePut_wfAbove d hb rfl v
  | cons x t ih =>
    obtain ⟨a, w⟩ := x
    have hm' := hm
    simp only [sparseWfAbove, Bool.and_eq_true, decide_eq_true_eq] at hm
    unfold sparseSet
    split
    · rename_i h
      simp [sparseWfAbove, hm.1.1, hm.1.2, ih h hm.2]
    · split
      · rename_i h; subst h
        exact sparsePut_wfAbove d hb hm.2 v
      · have : k < a := by omega
        refine sparsePut_wfAbove d hb ?_ v
        simp [sparseWfAbove, this, hm.1.2, hm.2]

theorem sparsePut_wf {k : Nat} {m : List (Nat × α)} (hm : sparseWfAbove d k m = true) (v : α) :
    sparseWf d (sparsePut d m k v) = true := by
  unfold sparsePut
  split
  · rw [sparseErase_eq_self d hm]
    cases m with
    | nil => rfl
    | cons x t =>
      simp only [sparseWfAbove, sparseWf, Bool.and_eq_true, decide_eq_true_eq] at hm ⊢
      exact ⟨hm.1.2, hm.2⟩
  · rename_i hv
    simp [sparseWf, hv, hm]

/-- Every write keeps the canonical form. -/
theorem sparseSet_wf {m : List (Nat × α)} (hm : sparseWf d m = true) (k : Nat) (v : α) :
    sparseWf d (sparseSet d m k v) = true := by
  cases m with
  | nil => exact sparsePut_wf d rfl v
  | cons x t =>
    obtain ⟨a, w⟩ := x
    simp only [sparseWf, Bool.and_eq_true, decide_eq_true_eq] at hm
    unfold sparseSet
    split
    · rename_i h
      simp [sparseWf, hm.1, sparseSet_wfAbove d h hm.2]
    · split
      · rename_i h; subst h
        exact sparsePut_wf d hm.2 v
      · have : k < a := by omega
        refine sparsePut_wf d ?_ v
        simp [sparseWfAbove, this, hm.1, hm.2]

/-! ## What a write does to the pairs of a list -/

omit [DecidableEq α] in
theorem mem_sparseErase {m : List (Nat × α)} {k : Nat} {x : Nat × α} (h : x ∈ sparseErase m k) : x ∈ m := by
  induction m with
  | nil => exact h
  | cons y t ih =>
    obtain ⟨a, w⟩ := y
    unfold sparseErase at h
    split at h
    · exact List.mem_cons_of_mem _ (ih h)
    · rcases List.mem_cons.mp h with h | h
      · exact h ▸ List.mem_cons_self
      · exact List.mem_cons_of_mem _ (ih h)

theorem mem_sparsePut {m : List (Nat × α)} {k : Nat} {v : α} {x : Nat × α} (h : x ∈ sparsePut d m k v) :
    x = (k, v) ∨ x ∈ m := by
  unfold sparsePut at h
  split at h
  · exact .inr (mem_sparseErase h)
  · exact List.mem_cons.mp h

/-- A pair of a written list is the pair written or was there before. -/
theorem mem_sparseSet {m : List (Nat × α)} {k : Nat} {v : α} {x : Nat × α} (h : x ∈ sparseSet d m k v) :
    x = (k, v) ∨ x ∈ m := by
  induction m with
  | nil => exact mem_sparsePut d h
  | cons y t ih =>
    obtain ⟨a, w⟩ := y
    unfold sparseSet at h
    split at h
    · rcases List.mem_cons.mp h with h | h
      · exact .inr (h ▸ List.mem_cons_self)
      · exact (ih h).imp id (List.mem_cons_of_mem _)
    · split at h
      · exact (mem_sparsePut d h).imp id (List.mem_cons_of_mem _)
      · exact mem_sparsePut d h

omit [DecidableEq α] in
/-- A value read from a list whose pairs all satisfy `P` satisfies it, if the default does. -/
theorem sparseGet_induction {P : α → Prop} {m : List (Nat × α)} (hd : P d) (hm : ∀ x ∈ m, P x.2) (k : Nat) :
    P (sparseGet d m k) := by
  induction m with
  | nil => exact hd
  | cons y t ih =>
    obtain ⟨a, w⟩ := y
    unfold sparseGet
    split
    · exact hm _ List.mem_cons_self
    · exact ih fun x hx => hm x (List.mem_cons_of_mem _ hx)

/-! ## Many writes -/

/-- Write the value `val x (old value)` under the key of each item, one item after another. -/
def sparseSetAll {ι : Type} (key : ι → Nat) (val : ι → α → α) (xs : List ι) (m : List (Nat × α)) : List (Nat × α) :=
  xs.foldl (fun m x => sparseSet d m (key x) (val x (sparseGet d m (key x)))) m

variable {ι : Type} {key : ι → Nat} {val : ι → α → α}

@[simp] theorem sparseSetAll_nil (m : List (Nat × α)) : sparseSetAll d key val [] m = m := rfl

@[simp] theorem sparseSetAll_cons (x : ι) (xs : List ι) (m : List (Nat × α)) :
    sparseSetAll d key val (x :: xs) m =
      sparseSetAll d key val xs (sparseSet d m (key x) (val x (sparseGet d m (key x)))) := rfl

theorem sparseSetAll_wf {xs : List ι} {m : List (Nat × α)} (hm : sparseWf d m = true) :
    sparseWf d (sparseSetAll d key val xs m) = true := by
  induction xs generalizing m with
  | nil => exact hm
  | cons x t ih => exact ih (sparseSet_wf d hm _ _)

/-- A key that no item has keeps its value. -/
theorem sparseGet_setAll_other {xs : List ι} {k : Nat} (h : ∀ x ∈ xs, key x ≠ k) (m : List (Nat × α)) :
    sparseGet d (sparseSetAll d key val xs m) k = sparseGet d m k := by
  induction xs generalizing m with
  | nil => rfl
  | cons x t ih =>
    rw [sparseSetAll_cons, ih (fun y hy => h y (List.mem_cons_of_mem _ hy)), sparseGet_set,
      if_neg (fun e => h x List.mem_cons_self e.symm)]

/-- With distinct keys, each item's key holds what the item makes of the value that was there before. -/
theorem sparseGet_setAll {xs : List ι} (hnd : (xs.map key).Nodup) {x : ι} (hx : x ∈ xs) (m : List (Nat × α)) :
    sparseGet d (sparseSetAll d key val xs m) (key x) = val x (sparseGet d m (key x)) := by
  induction xs generalizing m with
  | nil => cases hx
  | cons y t ih =>
    rw [List.map_cons, List.nodup_cons] at hnd
    have hy : ∀ z ∈ t, key z ≠ key y := fun z hz e => hnd.1 (e ▸ List.mem_map_of_mem hz)
    rw [sparseSetAll_cons]
    rcases List.mem_cons.mp hx with rfl | hx
    · rw [sparseGet_setAll_other d hy, sparseGet_set, if_pos rfl]
    · rw [ih hnd.2 hx, sparseGet_set, if_neg (fun e => hy x hx e)]

/-- When the values do not depend on what was there before, the last item of a key wins. -/
theorem sparseGet_setAll_last {before after : List ι} {x : ι} (h : ∀ y ∈ after, key y ≠ key x) (m : List (Nat × α)) :
    ∃ old, sparseGet d (sparseSetAll d key val (before ++ x :: after) m) (key x) = val x old := by
  refine ⟨sparseGet d (sparseSetAll d key val before m) (key x), ?_⟩
  have : sparseSetAll d key val (before ++ x :: after) m =
      sparseSetAll d key val (x :: after) (sparseSetAll d key val before m) := by
    simp [sparseSetAll, List.foldl_append]
  rw [this, sparseSetAll_cons, sparseGet_setAll_other d h, sparseGet_set, if_pos rfl]

/-- In a list of items in a strict order, an item that no later item's key hides is what its key holds. -/
theorem sparseGet_setAll_unhidden {before : ι → ι → Prop} {xs : List ι} (ho : xs.Pairwise before) {x : ι} (hx : x ∈ xs)
    (hl : ∀ y ∈ xs, before x y → key y ≠ key x) (m : List (Nat × α)) :
    ∃ old, sparseGet d (sparseSetAll d key val xs m) (key x) = val x old := by
  obtain ⟨as, bs, rfl⟩ := List.append_of_mem hx
  refine sparseGet_setAll_last d (fun y hy => hl y (by simp [hy]) ?_) m
  exact (List.pairwise_cons.mp (List.pairwise_append.mp ho).2.1).1 y hy

/-- A pair of the result is one of the pairs before or holds a value some item wrote. -/
theorem mem_sparseSetAll {P : Nat × α → Prop} {xs : List ι} {m : List (Nat × α)} (hm : ∀ y ∈ m, P y)
    (hx : ∀ x ∈ xs, ∀ old, P (key x, val x old)) : ∀ y ∈ sparseSetAll d key val xs m, P y := by
  induction xs generalizing m with
  | nil => exact hm
  | cons x t ih =>
    refine ih (fun y hy => ?_) (fun z hz => hx z (List.mem_cons_of_mem _ hz))
    rcases mem_sparseSet d hy with rfl | hy
    · exact hx x List.mem_cons_self _
    · exact hm y hy

end Sys2Proof.Machine
end

