-- ==== Sys2Proof/Laws/State.lean ====
section
/-!
SUPPORT. Laws/State.lean: one lemma per field per update, true by rfl, so that no proof unfolds a record update.
-/

namespace Sys2Proof.Machine

variable (s : State)

@[simp] theorem State.withHost_params (h : List HostAction) : (s.withHost h).params = s.params := rfl
@[simp] theorem State.withHost_host (h : List HostAction) : (s.withHost h).host = h := rfl
@[simp] theorem State.withHost_report (h : List HostAction) : (s.withHost h).report = s.report := rfl
@[simp] theorem State.withHost_dram (h : List HostAction) : (s.withHost h).dram = s.dram := rfl
@[simp] theorem State.withHost_sp (h : List HostAction) : (s.withHost h).sp = s.sp := rfl
@[simp] theorem State.withHost_acc (h : List HostAction) : (s.withHost h).acc = s.acc := rfl
@[simp] theorem State.withHost_pe (h : List HostAction) : (s.withHost h).pe = s.pe := rfl
@[simp] theorem State.withHost_cfg (h : List HostAction) : (s.withHost h).cfg = s.cfg := rfl
@[simp] theorem State.withHost_status (h : List HostAction) : (s.withHost h).status = s.status := rfl
@[simp] theorem State.withHost_pre (h : List HostAction) : (s.withHost h).pre = s.pre := rfl
@[simp] theorem State.withHost_out (h : List HostAction) : (s.withHost h).out = s.out := rfl
@[simp] theorem State.withHost_lw (h : List HostAction) : (s.withHost h).lw = s.lw := rfl

@[simp] theorem State.withReport_params (r : Option Error) : (s.withReport r).params = s.params := rfl
@[simp] theorem State.withReport_host (r : Option Error) : (s.withReport r).host = s.host := rfl
@[simp] theorem State.withReport_report (r : Option Error) : (s.withReport r).report = r := rfl
@[simp] theorem State.withReport_dram (r : Option Error) : (s.withReport r).dram = s.dram := rfl
@[simp] theorem State.withReport_sp (r : Option Error) : (s.withReport r).sp = s.sp := rfl
@[simp] theorem State.withReport_acc (r : Option Error) : (s.withReport r).acc = s.acc := rfl
@[simp] theorem State.withReport_pe (r : Option Error) : (s.withReport r).pe = s.pe := rfl
@[simp] theorem State.withReport_cfg (r : Option Error) : (s.withReport r).cfg = s.cfg := rfl
@[simp] theorem State.withReport_status (r : Option Error) : (s.withReport r).status = s.status := rfl
@[simp] theorem State.withReport_pre (r : Option Error) : (s.withReport r).pre = s.pre := rfl
@[simp] theorem State.withReport_out (r : Option Error) : (s.withReport r).out = s.out := rfl
@[simp] theorem State.withReport_lw (r : Option Error) : (s.withReport r).lw = s.lw := rfl

@[simp] theorem State.withDram_params (m : Memory) : (s.withDram m).params = s.params := rfl
@[simp] theorem State.withDram_host (m : Memory) : (s.withDram m).host = s.host := rfl
@[simp] theorem State.withDram_report (m : Memory) : (s.withDram m).report = s.report := rfl
@[simp] theorem State.withDram_dram (m : Memory) : (s.withDram m).dram = m := rfl
@[simp] theorem State.withDram_sp (m : Memory) : (s.withDram m).sp = s.sp := rfl
@[simp] theorem State.withDram_acc (m : Memory) : (s.withDram m).acc = s.acc := rfl
@[simp] theorem State.withDram_pe (m : Memory) : (s.withDram m).pe = s.pe := rfl
@[simp] theorem State.withDram_cfg (m : Memory) : (s.withDram m).cfg = s.cfg := rfl
@[simp] theorem State.withDram_status (m : Memory) : (s.withDram m).status = s.status := rfl
@[simp] theorem State.withDram_pre (m : Memory) : (s.withDram m).pre = s.pre := rfl
@[simp] theorem State.withDram_out (m : Memory) : (s.withDram m).out = s.out := rfl
@[simp] theorem State.withDram_lw (m : Memory) : (s.withDram m).lw = s.lw := rfl

@[simp] theorem State.withSp_params (b : Bank) : (s.withSp b).params = s.params := rfl
@[simp] theorem State.withSp_host (b : Bank) : (s.withSp b).host = s.host := rfl
@[simp] theorem State.withSp_report (b : Bank) : (s.withSp b).report = s.report := rfl
@[simp] theorem State.withSp_dram (b : Bank) : (s.withSp b).dram = s.dram := rfl
@[simp] theorem State.withSp_sp (b : Bank) : (s.withSp b).sp = b := rfl
@[simp] theorem State.withSp_acc (b : Bank) : (s.withSp b).acc = s.acc := rfl
@[simp] theorem State.withSp_pe (b : Bank) : (s.withSp b).pe = s.pe := rfl
@[simp] theorem State.withSp_cfg (b : Bank) : (s.withSp b).cfg = s.cfg := rfl
@[simp] theorem State.withSp_status (b : Bank) : (s.withSp b).status = s.status := rfl
@[simp] theorem State.withSp_pre (b : Bank) : (s.withSp b).pre = s.pre := rfl
@[simp] theorem State.withSp_out (b : Bank) : (s.withSp b).out = s.out := rfl
@[simp] theorem State.withSp_lw (b : Bank) : (s.withSp b).lw = s.lw := rfl

@[simp] theorem State.withAcc_params (b : Bank) : (s.withAcc b).params = s.params := rfl
@[simp] theorem State.withAcc_host (b : Bank) : (s.withAcc b).host = s.host := rfl
@[simp] theorem State.withAcc_report (b : Bank) : (s.withAcc b).report = s.report := rfl
@[simp] theorem State.withAcc_dram (b : Bank) : (s.withAcc b).dram = s.dram := rfl
@[simp] theorem State.withAcc_sp (b : Bank) : (s.withAcc b).sp = s.sp := rfl
@[simp] theorem State.withAcc_acc (b : Bank) : (s.withAcc b).acc = b := rfl
@[simp] theorem State.withAcc_pe (b : Bank) : (s.withAcc b).pe = s.pe := rfl
@[simp] theorem State.withAcc_cfg (b : Bank) : (s.withAcc b).cfg = s.cfg := rfl
@[simp] theorem State.withAcc_status (b : Bank) : (s.withAcc b).status = s.status := rfl
@[simp] theorem State.withAcc_pre (b : Bank) : (s.withAcc b).pre = s.pre := rfl
@[simp] theorem State.withAcc_out (b : Bank) : (s.withAcc b).out = s.out := rfl
@[simp] theorem State.withAcc_lw (b : Bank) : (s.withAcc b).lw = s.lw := rfl

@[simp] theorem State.withPe_params (b : Bank) : (s.withPe b).params = s.params := rfl
@[simp] theorem State.withPe_host (b : Bank) : (s.withPe b).host = s.host := rfl
@[simp] theorem State.withPe_report (b : Bank) : (s.withPe b).report = s.report := rfl
@[simp] theorem State.withPe_dram (b : Bank) : (s.withPe b).dram = s.dram := rfl
@[simp] theorem State.withPe_sp (b : Bank) : (s.withPe b).sp = s.sp := rfl
@[simp] theorem State.withPe_acc (b : Bank) : (s.withPe b).acc = s.acc := rfl
@[simp] theorem State.withPe_pe (b : Bank) : (s.withPe b).pe = b := rfl
@[simp] theorem State.withPe_cfg (b : Bank) : (s.withPe b).cfg = s.cfg := rfl
@[simp] theorem State.withPe_status (b : Bank) : (s.withPe b).status = s.status := rfl
@[simp] theorem State.withPe_pre (b : Bank) : (s.withPe b).pre = s.pre := rfl
@[simp] theorem State.withPe_out (b : Bank) : (s.withPe b).out = s.out := rfl
@[simp] theorem State.withPe_lw (b : Bank) : (s.withPe b).lw = s.lw := rfl

@[simp] theorem State.withCfg_params (c : Cfg) : (s.withCfg c).params = s.params := rfl
@[simp] theorem State.withCfg_host (c : Cfg) : (s.withCfg c).host = s.host := rfl
@[simp] theorem State.withCfg_report (c : Cfg) : (s.withCfg c).report = s.report := rfl
@[simp] theorem State.withCfg_dram (c : Cfg) : (s.withCfg c).dram = s.dram := rfl
@[simp] theorem State.withCfg_sp (c : Cfg) : (s.withCfg c).sp = s.sp := rfl
@[simp] theorem State.withCfg_acc (c : Cfg) : (s.withCfg c).acc = s.acc := rfl
@[simp] theorem State.withCfg_pe (c : Cfg) : (s.withCfg c).pe = s.pe := rfl
@[simp] theorem State.withCfg_cfg (c : Cfg) : (s.withCfg c).cfg = c := rfl
@[simp] theorem State.withCfg_status (c : Cfg) : (s.withCfg c).status = s.status := rfl
@[simp] theorem State.withCfg_pre (c : Cfg) : (s.withCfg c).pre = s.pre := rfl
@[simp] theorem State.withCfg_out (c : Cfg) : (s.withCfg c).out = s.out := rfl
@[simp] theorem State.withCfg_lw (c : Cfg) : (s.withCfg c).lw = s.lw := rfl

@[simp] theorem State.withStatus_params (st : Status) : (s.withStatus st).params = s.params := rfl
@[simp] theorem State.withStatus_host (st : Status) : (s.withStatus st).host = s.host := rfl
@[simp] theorem State.withStatus_report (st : Status) : (s.withStatus st).report = s.report := rfl
@[simp] theorem State.withStatus_dram (st : Status) : (s.withStatus st).dram = s.dram := rfl
@[simp] theorem State.withStatus_sp (st : Status) : (s.withStatus st).sp = s.sp := rfl
@[simp] theorem State.withStatus_acc (st : Status) : (s.withStatus st).acc = s.acc := rfl
@[simp] theorem State.withStatus_pe (st : Status) : (s.withStatus st).pe = s.pe := rfl
@[simp] theorem State.withStatus_cfg (st : Status) : (s.withStatus st).cfg = s.cfg := rfl
@[simp] theorem State.withStatus_status (st : Status) : (s.withStatus st).status = st := rfl
@[simp] theorem State.withStatus_pre (st : Status) : (s.withStatus st).pre = s.pre := rfl
@[simp] theorem State.withStatus_out (st : Status) : (s.withStatus st).out = s.out := rfl
@[simp] theorem State.withStatus_lw (st : Status) : (s.withStatus st).lw = s.lw := rfl

@[simp] theorem State.withPreload_params (x y : TileRef) : (s.withPreload x y).params = s.params := rfl
@[simp] theorem State.withPreload_host (x y : TileRef) : (s.withPreload x y).host = s.host := rfl
@[simp] theorem State.withPreload_report (x y : TileRef) : (s.withPreload x y).report = s.report := rfl
@[simp] theorem State.withPreload_dram (x y : TileRef) : (s.withPreload x y).dram = s.dram := rfl
@[simp] theorem State.withPreload_sp (x y : TileRef) : (s.withPreload x y).sp = s.sp := rfl
@[simp] theorem State.withPreload_acc (x y : TileRef) : (s.withPreload x y).acc = s.acc := rfl
@[simp] theorem State.withPreload_pe (x y : TileRef) : (s.withPreload x y).pe = s.pe := rfl
@[simp] theorem State.withPreload_cfg (x y : TileRef) : (s.withPreload x y).cfg = s.cfg := rfl
@[simp] theorem State.withPreload_status (x y : TileRef) : (s.withPreload x y).status = s.status := rfl
@[simp] theorem State.withPreload_pre (x y : TileRef) : (s.withPreload x y).pre = x := rfl
@[simp] theorem State.withPreload_out (x y : TileRef) : (s.withPreload x y).out = y := rfl
@[simp] theorem State.withPreload_lw (x y : TileRef) : (s.withPreload x y).lw = s.lw := rfl

@[simp] theorem State.withLw_params (l : TilingRecord) : (s.withLw l).params = s.params := rfl
@[simp] theorem State.withLw_host (l : TilingRecord) : (s.withLw l).host = s.host := rfl
@[simp] theorem State.withLw_report (l : TilingRecord) : (s.withLw l).report = s.report := rfl
@[simp] theorem State.withLw_dram (l : TilingRecord) : (s.withLw l).dram = s.dram := rfl
@[simp] theorem State.withLw_sp (l : TilingRecord) : (s.withLw l).sp = s.sp := rfl
@[simp] theorem State.withLw_acc (l : TilingRecord) : (s.withLw l).acc = s.acc := rfl
@[simp] theorem State.withLw_pe (l : TilingRecord) : (s.withLw l).pe = s.pe := rfl
@[simp] theorem State.withLw_cfg (l : TilingRecord) : (s.withLw l).cfg = s.cfg := rfl
@[simp] theorem State.withLw_status (l : TilingRecord) : (s.withLw l).status = s.status := rfl
@[simp] theorem State.withLw_pre (l : TilingRecord) : (s.withLw l).pre = s.pre := rfl
@[simp] theorem State.withLw_out (l : TilingRecord) : (s.withLw l).out = s.out := rfl
@[simp] theorem State.withLw_lw (l : TilingRecord) : (s.withLw l).lw = l := rfl

/-- Two states with the same fields are the same state. -/
theorem State.ext_fields {s t : State} (h1 : s.params = t.params) (h2 : s.host = t.host) (h3 : s.report = t.report)
    (h4 : s.dram = t.dram) (h5 : s.sp = t.sp) (h6 : s.acc = t.acc) (h7 : s.pe = t.pe) (h8 : s.cfg = t.cfg)
    (h9 : s.status = t.status) (h10 : s.pre = t.pre) (h11 : s.out = t.out) (h12 : s.lw = t.lw) : s = t := by
  cases s; cases t; simp_all

end Sys2Proof.Machine
end

