-- ==== Sys2Proof/Laws/Ops.lean ====
section
/-!
SUPPORT. Laws/Ops.lean: for each shared operation of Machine/Ops.lean, once, everything it can do.
-/

namespace Sys2Proof.Machine

/-! ## Cells -/

/-- Two cells inside DIM columns have one key only if they are one cell. -/
theorem cellKey_inj {dim r c r' c' : Nat} (hc : c < dim) (hc' : c' < dim) (h : r * dim + c = r' * dim + c') :
    r = r' ∧ c = c' := by
  have h1 : (r * dim + c) % dim = (r' * dim + c') % dim := by rw [h]
  rw [Nat.mul_comm r, Nat.mul_comm r', Nat.mul_add_mod, Nat.mul_add_mod, Nat.mod_eq_of_lt hc,
    Nat.mod_eq_of_lt hc'] at h1
  subst h1
  exact ⟨Nat.eq_of_mul_eq_mul_right (by omega) (Nat.add_right_cancel h), rfl⟩

theorem cellKey_lt {dim rows r c : Nat} (hr : r < rows) (hc : c < dim) : r * dim + c < rows * dim := by
  calc r * dim + c < r * dim + dim := by omega
    _ = (r + 1) * dim := by rw [Nat.add_mul, Nat.one_mul]
    _ ≤ rows * dim := Nat.mul_le_mul_right _ hr

/-- A read of a cell after a write of a cell. -/
theorem cellAt_putCell (p : Params) (b : Bank) (r r' v) {c c' : Nat} (hc : c < p.dim) (hc' : c' < p.dim) :
    cellAt p (putCell p b r c v) r' c' = if r' = r ∧ c' = c then v else cellAt p b r' c' := by
  unfold cellAt putCell
  rw [sparseGet_set]
  by_cases h : r' = r ∧ c' = c
  · rw [if_pos h, if_pos (by rw [h.1, h.2])]
  · rw [if_neg h, if_neg (fun e => h (cellKey_inj hc' hc e))]

theorem cellAt_putCell_self (p : Params) (b : Bank) (r c v) : cellAt p (putCell p b r c v) r c = v := by
  simp [cellAt, putCell]

@[simp] theorem State.putSp_eq (s : State) (r c v) : s.putSp r c v = s.withSp (putCell s.params s.sp r c v) := rfl
@[simp] theorem State.putAcc_eq (s : State) (r c v) : s.putAcc r c v = s.withAcc (putCell s.params s.acc r c v) := rfl
@[simp] theorem State.putPe_eq (s : State) (i j v) : s.putPe i j v = s.withPe (putCell s.params s.pe i j v) := rfl
@[simp] theorem State.putByte_eq (s : State) (a v) :
    s.putByte a v = s.withDram (sparseSet Config.unwrittenByte s.dram a v) := rfl

/-! ### Reads of one cell or byte through the field updates -/

@[simp] theorem State.withHost_spAt (s : State) (h : List HostAction) (r c : Nat) :
    (s.withHost h).spAt r c = s.spAt r c := rfl
@[simp] theorem State.withReport_spAt (s : State) (e : Option Error) (r c : Nat) :
    (s.withReport e).spAt r c = s.spAt r c := rfl
@[simp] theorem State.withDram_spAt (s : State) (m : Memory) (r c : Nat) :
    (s.withDram m).spAt r c = s.spAt r c := rfl
@[simp] theorem State.withSp_spAt (s : State) (b : Bank) (r c : Nat) :
    (s.withSp b).spAt r c = cellAt s.params b r c := rfl
@[simp] theorem State.withAcc_spAt (s : State) (b : Bank) (r c : Nat) :
    (s.withAcc b).spAt r c = s.spAt r c := rfl
@[simp] theorem State.withPe_spAt (s : State) (b : Bank) (r c : Nat) :
    (s.withPe b).spAt r c = s.spAt r c := rfl
@[simp] theorem State.withCfg_spAt (s : State) (g : Cfg) (r c : Nat) :
    (s.withCfg g).spAt r c = s.spAt r c := rfl
@[simp] theorem State.withStatus_spAt (s : State) (st : Status) (r c : Nat) :
    (s.withStatus st).spAt r c = s.spAt r c := rfl
@[simp] theorem State.withLw_spAt (s : State) (l : TilingRecord) (r c : Nat) :
    (s.withLw l).spAt r c = s.spAt r c := rfl
@[simp] theorem State.withPreload_spAt (s : State) (x y : TileRef) (r c : Nat) :
    (s.withPreload x y).spAt r c = s.spAt r c := rfl
@[simp] theorem State.withHost_accAt (s : State) (h : List HostAction) (r c : Nat) :
    (s.withHost h).accAt r c = s.accAt r c := rfl
@[simp] theorem State.withReport_accAt (s : State) (e : Option Error) (r c : Nat) :
    (s.withReport e).accAt r c = s.accAt r c := rfl
@[simp] theorem State.withDram_accAt (s : State) (m : Memory) (r c : Nat) :
    (s.withDram m).accAt r c = s.accAt r c := rfl
@[simp] theorem State.withSp_accAt (s : State) (b : Bank) (r c : Nat) :
    (s.withSp b).accAt r c = s.accAt r c := rfl
@[simp] theorem State.withAcc_accAt (s : State) (b : Bank) (r c : Nat) :
    (s.withAcc b).accAt r c = cellAt s.params b r c := rfl
@[simp] theorem State.withPe_accAt (s : State) (b : Bank) (r c : Nat) :
    (s.withPe b).accAt r c = s.accAt r c := rfl
@[simp] theorem State.withCfg_accAt (s : State) (g : Cfg) (r c : Nat) :
    (s.withCfg g).accAt r c = s.accAt r c := rfl
@[simp] theorem State.withStatus_accAt (s : State) (st : Status) (r c : Nat) :
    (s.withStatus st).accAt r c = s.accAt r c := rfl
@[simp] theorem State.withLw_accAt (s : State) (l : TilingRecord) (r c : Nat) :
    (s.withLw l).accAt r c = s.accAt r c := rfl
@[simp] theorem State.withPreload_accAt (s : State) (x y : TileRef) (r c : Nat) :
    (s.withPreload x y).accAt r c = s.accAt r c := rfl
@[simp] theorem State.withHost_peAt (s : State) (h : List HostAction) (i j : Nat) :
    (s.withHost h).peAt i j = s.peAt i j := rfl
@[simp] theorem State.withReport_peAt (s : State) (e : Option Error) (i j : Nat) :
    (s.withReport e).peAt i j = s.peAt i j := rfl
@[simp] theorem State.withDram_peAt (s : State) (m : Memory) (i j : Nat) :
    (s.withDram m).peAt i j = s.peAt i j := rfl
@[simp] theorem State.withSp_peAt (s : State) (b : Bank) (i j : Nat) :
    (s.withSp b).peAt i j = s.peAt i j := rfl
@[simp] theorem State.withAcc_peAt (s : State) (b : Bank) (i j : Nat) :
    (s.withAcc b).peAt i j = s.peAt i j := rfl
@[simp] theorem State.withPe_peAt (s : State) (b : Bank) (i j : Nat) :
    (s.withPe b).peAt i j = cellAt s.params b i j := rfl
@[simp] theorem State.withCfg_peAt (s : State) (g : Cfg) (i j : Nat) :
    (s.withCfg g).peAt i j = s.peAt i j := rfl
@[simp] theorem State.withStatus_peAt (s : State) (st : Status) (i j : Nat) :
    (s.withStatus st).peAt i j = s.peAt i j := rfl
@[simp] theorem State.withLw_peAt (s : State) (l : TilingRecord) (i j : Nat) :
    (s.withLw l).peAt i j = s.peAt i j := rfl
@[simp] theorem State.withPreload_peAt (s : State) (x y : TileRef) (i j : Nat) :
    (s.withPreload x y).peAt i j = s.peAt i j := rfl
@[simp] theorem State.withHost_byteAt (s : State) (h : List HostAction) (a : Nat) :
    (s.withHost h).byteAt a = s.byteAt a := rfl
@[simp] theorem State.withReport_byteAt (s : State) (e : Option Error) (a : Nat) :
    (s.withReport e).byteAt a = s.byteAt a := rfl
@[simp] theorem State.withDram_byteAt (s : State) (m : Memory) (a : Nat) :
    (s.withDram m).byteAt a = sparseGet Config.unwrittenByte m a := rfl
@[simp] theorem State.withSp_byteAt (s : State) (b : Bank) (a : Nat) :
    (s.withSp b).byteAt a = s.byteAt a := rfl
@[simp] theorem State.withAcc_byteAt (s : State) (b : Bank) (a : Nat) :
    (s.withAcc b).byteAt a = s.byteAt a := rfl
@[simp] theorem State.withPe_byteAt (s : State) (b : Bank) (a : Nat) :
    (s.withPe b).byteAt a = s.byteAt a := rfl
@[simp] theorem State.withCfg_byteAt (s : State) (g : Cfg) (a : Nat) :
    (s.withCfg g).byteAt a = s.byteAt a := rfl
@[simp] theorem State.withStatus_byteAt (s : State) (st : Status) (a : Nat) :
    (s.withStatus st).byteAt a = s.byteAt a := rfl
@[simp] theorem State.withLw_byteAt (s : State) (l : TilingRecord) (a : Nat) :
    (s.withLw l).byteAt a = s.byteAt a := rfl
@[simp] theorem State.withPreload_byteAt (s : State) (x y : TileRef) (a : Nat) :
    (s.withPreload x y).byteAt a = s.byteAt a := rfl

/-- A read of a cell inside the bank gives its value; outside it raises `OutOfRange` (R66). -/
theorem State.readCell_eq (s : State) (isAcc : Bool) (r c : Nat) :
    (r < extentOf s.params isAcc ∧ s.readCell isAcc r c = .ok (if isAcc then s.accAt r c else s.spAt r c)) ∨
    (extentOf s.params isAcc ≤ r ∧ s.readCell isAcc r c = .error (Stop.outOfRange (rowError isAcc))) := by
  unfold State.readCell
  by_cases h : extentOf s.params isAcc ≤ r
  · exact .inr ⟨h, if_pos h⟩
  · exact .inl ⟨by omega, if_neg h⟩

theorem State.readCell_ok {s : State} {isAcc : Bool} {r : Nat} (h : r < extentOf s.params isAcc) (c : Nat) :
    s.readCell isAcc r c = .ok (if isAcc then s.accAt r c else s.spAt r c) := if_neg (by omega)

/-- A write of a scratchpad cell: in range it puts the value, else `OutOfRange` with nothing changed (R66). -/
theorem State.writeSp_eq (s : State) (r c : Nat) (v : Int) :
    (r < s.params.spRows ∧ s.writeSp r c v = .done (s.putSp r c v)) ∨
    (s.params.spRows ≤ r ∧ s.writeSp r c v = .stop (Stop.outOfRange .scratchpadRow) s) := by
  unfold State.writeSp
  by_cases h : s.params.spRows ≤ r
  · exact .inr ⟨h, if_pos h⟩
  · exact .inl ⟨by omega, if_neg h⟩

theorem State.writeSp_done {s : State} {r : Nat} (h : r < s.params.spRows) (c : Nat) (v : Int) :
    s.writeSp r c v = .done (s.putSp r c v) := if_neg (Nat.not_le.mpr h)

/-- A write of an accumulator cell: in range it overwrites or adds with wrap, else `OutOfRange` with nothing changed. -/
theorem State.writeAcc_eq (s : State) (accumulate : Bool) (r c : Nat) (v : Int) :
    (r < s.params.accRows ∧ s.writeAcc accumulate r c v =
      .done (s.putAcc r c (if accumulate then wrapTo s.params.accBits (s.accAt r c + v) else v))) ∨
    (s.params.accRows ≤ r ∧ s.writeAcc accumulate r c v = .stop (Stop.outOfRange .accumulatorRow) s) := by
  unfold State.writeAcc
  by_cases h : s.params.accRows ≤ r
  · exact .inr ⟨h, if_pos h⟩
  · exact .inl ⟨by omega, if_neg h⟩

theorem State.writeAcc_done {s : State} {r : Nat} (h : r < s.params.accRows) (accumulate : Bool) (c : Nat) (v : Int) :
    s.writeAcc accumulate r c v =
      .done (s.putAcc r c (if accumulate then wrapTo s.params.accBits (s.accAt r c + v) else v)) :=
  if_neg (Nat.not_le.mpr h)

/-! ## Loops of writes -/

/-- A loop whose iterations each write one key of one list of the state is one list of writes. `put` puts a list into a
fixed state. -/
theorem runAll_sets {ι α : Type} [DecidableEq α] {d : α} {key : ι → Nat} {val : ι → α → α} {xs : List ι}
    {body : ι → State → Res} {put : List (Nat × α) → State}
    (h : ∀ x ∈ xs, ∀ m, body x (put m) = .done (put (sparseSet d m (key x) (val x (sparseGet d m (key x))))))
    (m : List (Nat × α)) : runAll body xs (put m) = .done (put (sparseSetAll d key val xs m)) := by
  induction xs generalizing m with
  | nil => rfl
  | cons x t ih =>
    rw [runAll_cons, h x List.mem_cons_self, Res.andThen_done, sparseSetAll_cons]
    exact ih (fun y hy => h y (List.mem_cons_of_mem _ hy)) _

/-! ## DRAM -/

@[simp] theorem State.readByte_admitted {s : State} {a : Nat} (h : dramAdmit s.params a = true) :
    s.readByte a = .ok (s.byteAt a) := if_pos h

theorem State.writeByte_admitted {s : State} {a : Nat} (h : dramAdmit s.params a = true) (v : Byte) :
    s.writeByte a v = .done (s.putByte a v) := if_pos h

/-- A read of one DRAM byte: its value, or no further step where the platform refuses the address (R62, R65). -/
theorem State.readByte_eq (s : State) (a : Nat) :
    (dramAdmit s.params a = true ∧ s.readByte a = .ok (s.byteAt a)) ∨
    (dramAdmit s.params a = false ∧ s.readByte a = .error (.stuck a)) := by
  unfold State.readByte
  cases dramAdmit s.params a <;> simp

/-- A write of one DRAM byte: the byte replaced, or no further step where the platform refuses the address. -/
theorem State.writeByte_eq (s : State) (a : Nat) (v : Byte) :
    (dramAdmit s.params a = true ∧ s.writeByte a v = .done (s.putByte a v)) ∨
    (dramAdmit s.params a = false ∧ s.writeByte a v = .stop (.stuck a) s) := by
  unfold State.writeByte
  cases dramAdmit s.params a <;> simp

/-- A read of a DRAM byte after a write of one. -/
theorem State.byteAt_putByte (s : State) (a a' : Nat) (v : Byte) :
    (s.putByte a v).byteAt a' = if a' = a then v else s.byteAt a' := by
  simp [State.byteAt]

/-- The addresses of the bytes of one access are distinct. -/
theorem byteAddress_inj {addr : Word} {b b' : Nat} (hb : b < 2 ^ 64) (hb' : b' < 2 ^ 64)
    (h : byteAddress addr b = byteAddress addr b') : b = b' := by
  unfold byteAddress at h
  have h1 : BitVec.ofNat 64 b = BitVec.ofNat 64 b' := by
    have := BitVec.eq_of_toNat_eq h
    simpa using this
  have h2 := congrArg BitVec.toNat h1
  rwa [BitVec.toNat_ofNat, BitVec.toNat_ofNat, Nat.mod_eq_of_lt hb, Nat.mod_eq_of_lt hb'] at h2

theorem byteAddress_lt (addr : Word) (b : Nat) : byteAddress addr b < 2 ^ 64 := (addr + BitVec.ofNat 64 b).isLt

/-- `MemWrite` where every byte is admitted: one write per byte, in increasing order (R64). -/
theorem State.memWrite_done {s : State} {addr : Word} {n : Nat} (h : reachable s.params addr n) (v : Nat) :
    s.memWrite addr n v =
      .done (s.withDram (sparseSetAll Config.unwrittenByte (byteAddress addr)
        (fun b _ => BitVec.ofNat 8 (v / 2 ^ (8 * b))) (List.range n) s.dram)) := by
  unfold State.memWrite
  rw [forRange_eq_runAll]
  have := runAll_sets (d := Config.unwrittenByte) (key := byteAddress addr)
    (val := fun b _ => BitVec.ofNat 8 (v / 2 ^ (8 * b))) (xs := List.range n)
    (body := fun b s => s.writeByte (byteAddress addr b) (BitVec.ofNat 8 (v / 2 ^ (8 * b))))
    (put := fun m => s.withDram m)
    (fun b hb m => by
      rw [State.writeByte_admitted (by simpa using h b (List.mem_range.mp hb))]
      simp [State.withDram]) s.dram
  exact this

/-! ## Ends of commands -/

@[simp] theorem Res.finish_done (s : State) : (Res.done s).finish = .next (s.withReport none) := rfl
@[simp] theorem Res.finish_raised (e : FatalError) (s : State) :
    (Res.stop (.raised e) s).finish = .next (s.takeError (.fatal e)) := rfl
@[simp] theorem Res.finish_stuck (a : Nat) (s : State) : (Res.stop (.stuck a) s).finish = .fault (.dramRefused a) := rfl
@[simp] theorem Res.finish_violation (r : ConfigReason) (s : State) :
    (Res.stop (Stop.violation r) s).finish = .next (s.takeError (.fatal (.configurationViolation r))) := rfl
@[simp] theorem Res.finish_outOfRange (w : BankRow) (s : State) :
    (Res.stop (Stop.outOfRange w) s).finish = .next (s.takeError (.fatal (.outOfRange w))) := rfl

/-- Everything the end of a command can answer. -/
theorem Res.finish_cases (r : Res) :
    (∃ s, r = .done s ∧ r.finish = .next (s.withReport none)) ∨
    (∃ e s, r = .stop (.raised e) s ∧ r.finish = .next (s.takeError (.fatal e))) ∨
    (∃ a s, r = .stop (.stuck a) s ∧ r.finish = .fault (.dramRefused a)) := by
  cases r with
  | done s => exact .inl ⟨s, rfl, rfl⟩
  | stop w s =>
    cases w with
    | raised e => exact .inr (.inl ⟨e, s, rfl, rfl⟩)
    | stuck a => exact .inr (.inr ⟨a, s, rfl, rfl⟩)

/-- Taking a fatal error sets the latch and the report and nothing else (R306). -/
@[simp] theorem State.takeError_fatal (s : State) (e : FatalError) :
    s.takeError (.fatal e) = (s.withStatus (.faulted e)).withReport (some (.fatal e)) := rfl

/-- `UnknownInstruction` changes no state of the block (R301). -/
@[simp] theorem State.takeError_unknown (s : State) :
    s.takeError .unknownInstruction = s.withReport (some .unknownInstruction) := rfl

/-- A field that taking an error leaves as it was: everything but the latch and the report. -/
theorem State.takeError_keeps (s : State) (e : Error) :
    (s.takeError e).params = s.params ∧ (s.takeError e).host = s.host ∧ (s.takeError e).dram = s.dram ∧
    (s.takeError e).sp = s.sp ∧ (s.takeError e).acc = s.acc ∧ (s.takeError e).pe = s.pe ∧
    (s.takeError e).cfg = s.cfg ∧ (s.takeError e).pre = s.pre ∧ (s.takeError e).out = s.out ∧
    (s.takeError e).lw = s.lw := by
  cases e <;> simp

/-! ## The canonical form of DRAM -/

theorem Memory.wf_set {m : Memory} (h : Memory.wf m = true) (a : Nat) (v : Byte) :
    Memory.wf (sparseSet Config.unwrittenByte m a v) = true := sparseSet_wf _ h a v

/-- A store of the host keeps the canonical form. -/
theorem State.putByte_wf {s : State} (h : Memory.wf s.dram = true) (a : Nat) (v : Byte) :
    Memory.wf (s.putByte a v).dram = true := Memory.wf_set h a v

/-- A write of one byte keeps the canonical form, also where it is refused. -/
theorem State.writeByte_wf {s : State} (h : Memory.wf s.dram = true) (a : Nat) (v : Byte) :
    Memory.wf (s.writeByte a v).state.dram = true := by
  rcases s.writeByte_eq a v with ⟨_, e⟩ | ⟨_, e⟩ <;> rw [e]
  · exact State.putByte_wf h a v
  · exact h

/-- `MemWrite` keeps the canonical form, also where it stops half way. -/
theorem State.memWrite_wf {s : State} (h : Memory.wf s.dram = true) (addr : Word) (n v : Nat) :
    Memory.wf (s.memWrite addr n v).state.dram = true :=
  forRange_keeps (P := fun s => Memory.wf s.dram = true) (fun _ _ _ hs => State.writeByte_wf hs _ _) h

/-- DRAM after reset is in the canonical form. -/
theorem State.reset_wf : Memory.wf State.reset.dram = true := rfl

/-- The reset hook keeps the canonical form: it leaves DRAM. -/
theorem State.takeReset_wf {s : State} (h : Memory.wf s.dram = true) : Memory.wf s.takeReset.dram = true := h

end Sys2Proof.Machine
end

