-- ==== Sys2Proof/Laws/Frames.lean ====
section
/-!
SUPPORT. Laws/Frames.lean: for each procedure of the data mover, the compute engine and the sequencer, once: which fields
of the state it can change, and why it can stop.
-/

namespace Sys2Proof.Machine

/-! ## Why a procedure stops -/

/-- A stop other than a ConfigurationViolation: `OutOfRange`, or an address the platform refuses. -/
def Stop.isAccess (p : Params) (w : Stop) : Prop :=
  (∃ b, w = Stop.outOfRange b) ∨ ∃ a, w = .stuck a ∧ dramAdmit p a = false

/-- A result that started with parameters `p` and, if stopped, stopped at an access. -/
def Res.stopsAtAccess (p : Params) (r : Res) : Prop := r.state.params = p ∧ ∀ w t, r = .stop w t → w.isAccess p

theorem Res.stopsAtAccess_done {p : Params} {s : State} (h : s.params = p) : (Res.done s).stopsAtAccess p :=
  ⟨h, fun _ _ e => nomatch e⟩

theorem Res.stopsAtAccess_stop {p : Params} {s : State} {w : Stop} (h : s.params = p) (hw : w.isAccess p) :
    (Res.stop w s).stopsAtAccess p := ⟨h, fun _ _ e => by cases e; exact hw⟩

theorem Res.stopsAtAccess_andThen {p : Params} {r : Res} {f : State → Res} (h : r.stopsAtAccess p)
    (hf : ∀ s, s.params = p → (f s).stopsAtAccess p) : (r.andThen f).stopsAtAccess p := by
  cases r with
  | done s => exact hf s h.1
  | stop w s => exact h

theorem runAll_stopsAtAccess {ι : Type} {p : Params} {body : ι → State → Res} {xs : List ι}
    (hb : ∀ x ∈ xs, ∀ s, s.params = p → (body x s).stopsAtAccess p) {s : State} (hs : s.params = p) :
    (runAll body xs s).stopsAtAccess p := by
  induction xs generalizing s with
  | nil => exact Res.stopsAtAccess_done hs
  | cons x t ih =>
    rw [runAll_cons]
    exact Res.stopsAtAccess_andThen (hb x List.mem_cons_self s hs)
      fun s' hs' => ih (fun y hy => hb y (List.mem_cons_of_mem _ hy)) hs'

theorem forRange_stopsAtAccess {p : Params} {n : Nat} {body : Nat → State → Res}
    (hb : ∀ i < n, ∀ s, s.params = p → (body i s).stopsAtAccess p) {s : State} (hs : s.params = p) :
    (forRange n body s).stopsAtAccess p := by
  rw [forRange_eq_runAll]
  exact runAll_stopsAtAccess (fun i hi => hb i (List.mem_range.mp hi)) hs

/-! ## Reads -/

theorem State.readCell_stop {s : State} {isAcc : Bool} {r c : Nat} {w : Stop} (h : s.readCell isAcc r c = .error w) :
    w.isAccess s.params := by
  rcases s.readCell_eq isAcc r c with ⟨_, e⟩ | ⟨_, e⟩ <;> rw [e] at h
  · cases h
  · cases h; exact .inl ⟨_, rfl⟩

theorem State.memRead_stop {s : State} {addr : Word} {n : Nat} {w : Stop} (h : s.memRead addr n = .error w) :
    w.isAccess s.params := by
  unfold State.memRead at h
  rw [foldRange_eq_foldAll] at h
  refine foldAll_stops (Q := fun w => w.isAccess s.params) (fun b _ a w hw => ?_) h
  rcases s.readByte_eq (byteAddress addr b) with ⟨_, e⟩ | ⟨hr, e⟩ <;> rw [e] at hw
  · cases hw
  · cases hw; exact .inr ⟨_, rfl, hr⟩

/-- `MemRead` where every byte is admitted: the sum over its bytes, in increasing order (R63). -/
theorem State.memRead_fold {s : State} {addr : Word} {n : Nat} (h : reachable s.params addr n) :
    s.memRead addr n =
      .ok ((List.range n).foldl (fun acc b => acc + (s.byteAt (byteAddress addr b)).toNat * 2 ^ (8 * b)) 0) := by
  unfold State.memRead
  exact foldRange_ok (fun b hb a => by rw [State.readByte_admitted (h b hb)]) 0

/-! ## The data mover -/

/-- The scratchpad and the accumulator may differ, nothing else does. -/
def banksOnly (s t : State) : Prop := t = (s.withSp t.sp).withAcc t.acc

theorem banksOnly_refl (s : State) : banksOnly s s := rfl
theorem banksOnly.withSp {s t : State} (h : banksOnly s t) (b : Bank) : banksOnly s (t.withSp b) := by
  unfold banksOnly at *; rw [h]; rfl
theorem banksOnly.withAcc {s t : State} (h : banksOnly s t) (b : Bank) : banksOnly s (t.withAcc b) := by
  unfold banksOnly at *; rw [h]; rfl
theorem banksOnly.params {s t : State} (h : banksOnly s t) : t.params = s.params := by rw [h]; rfl

theorem State.writeSp_banksOnly {s t : State} (h : banksOnly s t) (r c v) : banksOnly s (t.writeSp r c v).state := by
  rcases t.writeSp_eq r c v with ⟨_, e⟩ | ⟨_, e⟩ <;> rw [e]
  · exact h.withSp _
  · exact h

theorem State.writeAcc_banksOnly {s t : State} (h : banksOnly s t) (a r c v) :
    banksOnly s (t.writeAcc a r c v).state := by
  rcases t.writeAcc_eq a r c v with ⟨_, e⟩ | ⟨_, e⟩ <;> rw [e]
  · exact h.withAcc _
  · exact h

theorem State.writeSp_stopsAtAccess {p : Params} {s : State} (h : s.params = p) (r c v) :
    (s.writeSp r c v).stopsAtAccess p := by
  rcases s.writeSp_eq r c v with ⟨_, e⟩ | ⟨_, e⟩ <;> rw [e]
  · exact Res.stopsAtAccess_done h
  · exact Res.stopsAtAccess_stop h (.inl ⟨_, rfl⟩)

theorem State.writeAcc_stopsAtAccess {p : Params} {s : State} (h : s.params = p) (a r c v) :
    (s.writeAcc a r c v).stopsAtAccess p := by
  rcases s.writeAcc_eq a r c v with ⟨_, e⟩ | ⟨_, e⟩ <;> rw [e]
  · exact Res.stopsAtAccess_done h
  · exact Res.stopsAtAccess_stop h (.inl ⟨_, rfl⟩)

theorem moveInRaw_stop {s : State} {l : LoadState} {addr : Word} {d : AddrOperand} {r c : Nat} {w : Stop}
    (h : moveInRaw s l addr d r c = .error w) : w.isAccess s.params := by
  unfold moveInRaw at h
  split at h
  · cases h
  · split at h
    · cases h
    · cases h; exact State.memRead_stop ‹_›

/-- One element of a move-in changes at most the two banks. -/
theorem moveInCell_banksOnly {s t : State} (h : banksOnly s t) (k addr d r c) :
    banksOnly s (moveInCell k addr d r c t).state := by
  simp only [moveInCell]
  split
  · exact h
  · split
    · exact h
    · split
      · exact State.writeAcc_banksOnly h _ _ _ _
      · exact State.writeSp_banksOnly h _ _ _

theorem moveInCell_stopsAtAccess {p : Params} {s : State} (h : s.params = p) (k addr d r c) :
    (moveInCell k addr d r c s).stopsAtAccess p := by
  simp only [moveInCell]
  split
  · exact Res.stopsAtAccess_stop h (.inl ⟨_, rfl⟩)
  · split
    · exact Res.stopsAtAccess_stop h (h ▸ moveInRaw_stop ‹_›)
    · split
      · exact State.writeAcc_stopsAtAccess h _ _ _ _
      · exact State.writeSp_stopsAtAccess h _ _ _

/-- The loops of `MoveIn`. -/
def moveInLoop (k : Fin 3) (addr : Word) (d : AddrOperand) (s : State) : Res :=
  runAll (fun x => moveInCell k addr d x.1 x.2) (pairsOf d.nrows d.ncols) s

/-- `MoveIn` is its two checks and then its loop. -/
theorem moveIn_eq (k : Fin 3) (addr : Word) (d : AddrOperand) (s : State) :
    moveIn k addr d s = check d.isNull .nullOperand s
      (check (decide (s.params.dim < d.nrows)) .countRange s (moveInLoop k addr d s)) := by
  unfold moveIn moveInLoop
  rw [forRange_nest]

theorem moveInLoop_banksOnly {s t : State} (h : banksOnly s t) (k addr d) : banksOnly s (moveInLoop k addr d t).state :=
  runAll_keeps (P := banksOnly s) (fun x _ _ hs => moveInCell_banksOnly hs k addr d x.1 x.2) h

theorem moveInLoop_stopsAtAccess {p : Params} {s : State} (h : s.params = p) (k addr d) :
    (moveInLoop k addr d s).stopsAtAccess p :=
  runAll_stopsAtAccess (fun x _ _ hs => moveInCell_stopsAtAccess hs k addr d x.1 x.2) h

/-- A move-in changes at most the two banks, stopped or not. -/
theorem moveIn_banksOnly {s t : State} (h : banksOnly s t) (k addr d) : banksOnly s (moveIn k addr d t).state := by
  rw [moveIn_eq]
  exact check_keeps h (check_keeps h (moveInLoop_banksOnly h k addr d))

/-- DRAM may differ, nothing else does. -/
def dramOnly (s t : State) : Prop := t = s.withDram t.dram

theorem dramOnly_refl (s : State) : dramOnly s s := rfl
theorem dramOnly.withDram {s t : State} (h : dramOnly s t) (m : Memory) : dramOnly s (t.withDram m) := by
  unfold dramOnly at *; rw [h]; rfl
theorem dramOnly.params {s t : State} (h : dramOnly s t) : t.params = s.params := by rw [h]; rfl

theorem State.writeByte_dramOnly {s t : State} (h : dramOnly s t) (a v) : dramOnly s (t.writeByte a v).state := by
  rcases t.writeByte_eq a v with ⟨_, e⟩ | ⟨_, e⟩ <;> rw [e]
  · exact h.withDram _
  · exact h

theorem State.writeByte_stopsAtAccess {p : Params} {s : State} (h : s.params = p) (a v) :
    (s.writeByte a v).stopsAtAccess p := by
  rcases s.writeByte_eq a v with ⟨_, e⟩ | ⟨hr, e⟩ <;> rw [e]
  · exact Res.stopsAtAccess_done h
  · exact Res.stopsAtAccess_stop h (.inr ⟨_, rfl, h ▸ hr⟩)

theorem State.memWrite_dramOnly {s t : State} (h : dramOnly s t) (a n v) : dramOnly s (t.memWrite a n v).state :=
  forRange_keeps (P := dramOnly s) (fun _ _ _ hs => State.writeByte_dramOnly hs _ _) h

theorem State.memWrite_stopsAtAccess {p : Params} {s : State} (h : s.params = p) (a n v) :
    (s.memWrite a n v).stopsAtAccess p :=
  forRange_stopsAtAccess (fun _ _ _ hs => State.writeByte_stopsAtAccess hs _ _) h

theorem moveOutCell_dramOnly {s t : State} (h : dramOnly s t) (addr d r c) :
    dramOnly s (moveOutCell addr d r c t).state := by
  unfold moveOutCell
  split
  · exact h
  · exact State.memWrite_dramOnly h _ _ _

theorem moveOutCell_stopsAtAccess {p : Params} {s : State} (h : s.params = p) (addr d r c) :
    (moveOutCell addr d r c s).stopsAtAccess p := by
  unfold moveOutCell
  split
  · exact Res.stopsAtAccess_stop h (h ▸ State.readCell_stop ‹_›)
  · exact State.memWrite_stopsAtAccess h _ _ _

theorem poolElement_stop {s : State} {d : AddrOperand} {ch : Nat} {x y : Int} {w : Stop}
    (h : poolElement s d ch x y = .error w) : w.isAccess s.params := by
  simp only [poolElement] at h
  split at h
  · cases h
  · split at h
    · cases h; exact State.readCell_stop ‹_›
    · cases h

theorem poolMax_stop {s : State} {d : AddrOperand} {pr pc ch : Nat} {w : Stop} (h : poolMax s d pr pc ch = .error w) :
    w.isAccess s.params := by
  simp only [poolMax] at h
  rw [foldRange_eq_foldAll] at h
  refine foldAll_stops (Q := fun w => w.isAccess s.params) (fun wr _ a w hw => ?_) h
  rw [foldRange_eq_foldAll] at hw
  refine foldAll_stops (Q := fun w => w.isAccess s.params) (fun wc _ a w hw => ?_) hw
  split at hw
  · cases hw; exact poolElement_stop ‹_›
  · cases hw

theorem pooledCell_dramOnly {s t : State} (h : dramOnly s t) (addr d pr pc ch) :
    dramOnly s (pooledCell addr d pr pc ch t).state := by
  unfold pooledCell
  split
  · exact h
  · exact State.memWrite_dramOnly h _ _ _

theorem pooledCell_stopsAtAccess {p : Params} {s : State} (h : s.params = p) (addr d pr pc ch) :
    (pooledCell addr d pr pc ch s).stopsAtAccess p := by
  unfold pooledCell
  split
  · exact Res.stopsAtAccess_stop h (h ▸ poolMax_stop ‹_›)
  · exact State.memWrite_stopsAtAccess h _ _ _

/-- The loops of `MoveOut` without pooling. -/
def moveOutLoop (addr : Word) (d : AddrOperand) (s : State) : Res :=
  runAll (fun x => moveOutCell addr d x.1 x.2) (pairsOf d.nrows d.ncols) s

theorem plainMoveOut_eq (addr : Word) (d : AddrOperand) (s : State) :
    plainMoveOut addr d s = check (decide (s.params.dim < d.nrows)) .countRange s (moveOutLoop addr d s) := by
  unfold plainMoveOut moveOutLoop
  rw [forRange_nest]

/-- The index triples of the pooling loops, in the order they run. -/
def pooledItems (s : State) (d : AddrOperand) : List ((Nat × Nat) × Nat) :=
  (pairsOf s.cfg.pool.porows.toNat s.cfg.pool.pocols.toNat).flatMap fun x => (List.range d.ncols).map fun ch => (x, ch)

/-- The loops of the pooling path. -/
def pooledLoop (addr : Word) (d : AddrOperand) (s : State) : Res :=
  runAll (fun x => pooledCell addr d x.1.1 x.1.2 x.2) (pooledItems s d) s

theorem pooledMoveOut_eq (addr : Word) (d : AddrOperand) (s : State) :
    pooledMoveOut addr d s = check (decide (s.params.dim < d.ncols)) .countRange s
      (check (d.isAcc && d.full) .fullWithPooling s (pooledLoop addr d s)) := by
  unfold pooledMoveOut pooledLoop pooledItems
  rw [forRange_nest, runAll_flatMap]
  congr 3
  funext x s'
  rw [runAll_map, forRange_eq_runAll]

theorem moveOutLoop_dramOnly {s t : State} (h : dramOnly s t) (addr d) : dramOnly s (moveOutLoop addr d t).state :=
  runAll_keeps (P := dramOnly s) (fun x _ _ hs => moveOutCell_dramOnly hs addr d x.1 x.2) h

theorem moveOutLoop_stopsAtAccess {p : Params} {s : State} (h : s.params = p) (addr d) :
    (moveOutLoop addr d s).stopsAtAccess p :=
  runAll_stopsAtAccess (fun x _ _ hs => moveOutCell_stopsAtAccess hs addr d x.1 x.2) h

theorem pooledLoop_dramOnly {s t : State} (h : dramOnly s t) (addr d) : dramOnly s (pooledLoop addr d t).state :=
  runAll_keeps (P := dramOnly s) (fun x _ _ hs => pooledCell_dramOnly hs addr d x.1.1 x.1.2 x.2) h

theorem pooledLoop_stopsAtAccess {p : Params} {s : State} (h : s.params = p) (addr d) :
    (pooledLoop addr d s).stopsAtAccess p :=
  runAll_stopsAtAccess (fun x _ _ hs => pooledCell_stopsAtAccess hs addr d x.1.1 x.1.2 x.2) h

/-- A move-out changes at most DRAM, stopped or not. -/
theorem moveOut_dramOnly {s t : State} (h : dramOnly s t) (addr d) : dramOnly s (moveOut addr d t).state := by
  unfold moveOut
  refine check_keeps h (check_keeps h ?_)
  split
  · rw [plainMoveOut_eq]; exact check_keeps h (moveOutLoop_dramOnly h addr d)
  · rw [pooledMoveOut_eq]; exact check_keeps h (check_keeps h (pooledLoop_dramOnly h addr d))

/-! ## The compute engine -/

/-- The two banks and `PE` may differ, nothing else does. -/
def arrayOnly (s t : State) : Prop := t = ((s.withSp t.sp).withAcc t.acc).withPe t.pe

theorem arrayOnly_refl (s : State) : arrayOnly s s := rfl
theorem arrayOnly.withSp {s t : State} (h : arrayOnly s t) (b : Bank) : arrayOnly s (t.withSp b) := by
  unfold arrayOnly at *; rw [h]; rfl
theorem arrayOnly.withAcc {s t : State} (h : arrayOnly s t) (b : Bank) : arrayOnly s (t.withAcc b) := by
  unfold arrayOnly at *; rw [h]; rfl
theorem arrayOnly.withPe {s t : State} (h : arrayOnly s t) (b : Bank) : arrayOnly s (t.withPe b) := by
  unfold arrayOnly at *; rw [h]; rfl
theorem arrayOnly.params {s t : State} (h : arrayOnly s t) : t.params = s.params := by rw [h]; rfl
theorem arrayOnly.trans {s t u : State} (h : arrayOnly s t) (h' : arrayOnly t u) : arrayOnly s u := by
  unfold arrayOnly at *; rw [h', h]; rfl

theorem boundedRead_stop {s : State} {outside : Prop} [Decidable outside] {r c : Nat} {w : Stop}
    (h : (if outside then .ok 0 else s.readCell false r c) = .error w) : w.isAccess s.params := by
  split at h
  · cases h
  · exact State.readCell_stop h

theorem preloadValue_stop {s : State} {i j : Nat} {w : Stop} (h : preloadValue s i j = .error w) :
    w.isAccess s.params := by
  exact boundedRead_stop h

theorem aval_stop {s : State} {a : AddrOperand} {i k : Nat} {w : Stop} (h : aval s a i k = .error w) :
    w.isAccess s.params := by
  exact boundedRead_stop h

theorem bval_stop {s : State} {b : AddrOperand} {k j : Nat} {w : Stop} (h : bval s b k j = .error w) :
    w.isAccess s.params := by
  exact boundedRead_stop h

theorem dval_stop {s : State} {b : AddrOperand} {i j : Nat} {w : Stop} (h : dval s b i j = .error w) :
    w.isAccess s.params := by
  exact boundedRead_stop h

theorem macLink_stop {p q : Params} {acc : Int} {x y : Except Stop Int} {w : Stop} (h : macLink p acc x y = .error w)
    (hx : ∀ w, x = .error w → w.isAccess q) (hy : ∀ w, y = .error w → w.isAccess q) : w.isAccess q := by
  unfold macLink at h
  split at h
  · cases h; exact hx _ rfl
  · split at h
    · cases h; exact hy _ rfl
    · cases h

theorem macOsValue_stop {s : State} {a b : AddrOperand} {i j : Nat} {w : Stop} (h : macOsValue s a b i j = .error w) :
    w.isAccess s.params := by
  unfold macOsValue at h
  rw [foldRange_eq_foldAll] at h
  exact foldAll_stops (Q := fun w => w.isAccess s.params)
    (fun k _ acc w hw => macLink_stop hw (fun _ => aval_stop) (fun _ => bval_stop)) h

theorem macWsValue_stop {s : State} {a b : AddrOperand} {i j : Nat} {w : Stop} (h : macWsValue s a b i j = .error w) :
    w.isAccess s.params := by
  unfold macWsValue at h
  split at h
  · cases h; exact dval_stop ‹_›
  · rw [foldRange_eq_foldAll] at h
    exact foldAll_stops (Q := fun w => w.isAccess s.params)
      (fun k _ acc w hw => macLink_stop hw (fun _ => aval_stop) (fun _ e => by cases e)) h

theorem macWs_stop {s : State} {a b : AddrOperand} {w : Stop} (h : macWs a b s = .error w) : w.isAccess s.params := by
  unfold macWs at h
  rw [foldRange_eq_foldAll] at h
  refine foldAll_stops (Q := fun w => w.isAccess s.params) (fun i _ res w hw => ?_) h
  rw [foldRange_eq_foldAll] at hw
  refine foldAll_stops (Q := fun w => w.isAccess s.params) (fun j _ res w hw => ?_) hw
  split at hw
  · cases hw; exact macWsValue_stop ‹_›
  · cases hw

/-- `PE` may differ, nothing else does. -/
def peOnly (s t : State) : Prop := t = s.withPe t.pe

theorem peOnly_refl (s : State) : peOnly s s := rfl
theorem peOnly.withPe {s t : State} (h : peOnly s t) (b : Bank) : peOnly s (t.withPe b) := by
  unfold peOnly at *; rw [h]; rfl
theorem peOnly.arrayOnly {s t : State} (h : peOnly s t) : arrayOnly s t := by
  unfold peOnly at h; unfold Machine.arrayOnly; rw [h]; rfl
theorem peOnly.params {s t : State} (h : peOnly s t) : t.params = s.params := by rw [h]; rfl

/-- The preload step changes `PE` only, stopped or not. -/
theorem preloadStep_peOnly {s t : State} (h : peOnly s t) : peOnly s (preloadStep t).state := by
  unfold preloadStep
  refine forRange_keeps (P := peOnly s) (fun i _ u hu => forRange_keeps (P := peOnly s) (fun j _ u hu => ?_) hu) h
  split
  · exact hu
  · exact hu.withPe _

theorem preloadStep_stopsAtAccess {p : Params} {s : State} (h : s.params = p) : (preloadStep s).stopsAtAccess p := by
  unfold preloadStep
  refine forRange_stopsAtAccess (fun i _ u hu => forRange_stopsAtAccess (fun j _ u hu => ?_) hu) h
  split
  · exact Res.stopsAtAccess_stop hu (hu ▸ preloadValue_stop ‹_›)
  · exact Res.stopsAtAccess_done hu

/-- The OS multiply-accumulate changes `PE` only, stopped or not. -/
theorem macOs_peOnly {s t : State} (h : peOnly s t) (a b) : peOnly s (macOs a b t).state := by
  unfold macOs
  refine forRange_keeps (P := peOnly s) (fun i _ u hu => forRange_keeps (P := peOnly s) (fun j _ u hu => ?_) hu) h
  split
  · exact hu
  · exact hu.withPe _

theorem macOs_stopsAtAccess {p : Params} {s : State} (h : s.params = p) (a b) : (macOs a b s).stopsAtAccess p := by
  unfold macOs
  refine forRange_stopsAtAccess (fun i _ u hu => forRange_stopsAtAccess (fun j _ u hu => ?_) hu) h
  split
  · exact Res.stopsAtAccess_stop hu (hu ▸ macOsValue_stop ‹_›)
  · exact Res.stopsAtAccess_done hu

theorem writeResultCell_banksOnly {s t : State} (h : banksOnly s t) (v i j) :
    banksOnly s (writeResultCell v i j t).state := by
  unfold writeResultCell
  split
  · exact State.writeAcc_banksOnly h _ _ _ _
  · exact State.writeSp_banksOnly h _ _ _

theorem writeResultCell_stopsAtAccess {p : Params} {s : State} (h : s.params = p) (v i j) :
    (writeResultCell v i j s).stopsAtAccess p := by
  unfold writeResultCell
  split
  · exact State.writeAcc_stopsAtAccess h _ _ _ _
  · exact State.writeSp_stopsAtAccess h _ _ _

/-- The result write changes at most the two banks, stopped or not. -/
theorem writeResult_banksOnly {s t : State} (h : banksOnly s t) (res) : banksOnly s (writeResult res t).state := by
  unfold writeResult
  split
  · exact h
  · exact forRange_keeps (P := banksOnly s)
      (fun i _ u hu => forRange_keeps (P := banksOnly s) (fun j _ u hu => writeResultCell_banksOnly hu _ i j) hu) h

theorem writeResult_stopsAtAccess {p : Params} {s : State} (h : s.params = p) (res) :
    (writeResult res s).stopsAtAccess p := by
  unfold writeResult
  split
  · exact Res.stopsAtAccess_done h
  · exact forRange_stopsAtAccess
      (fun i _ u hu => forRange_stopsAtAccess (fun j _ u hu => writeResultCell_stopsAtAccess hu _ i j) hu) h

theorem banksOnly.arrayOnly {s t : State} (h : banksOnly s t) : arrayOnly s t := by
  unfold banksOnly at h; unfold Machine.arrayOnly; rw [h]; rfl

theorem macAndWrite_arrayOnly (a b) (s : State) : arrayOnly s (macAndWrite a b s).state := by
  unfold macAndWrite
  split
  · exact Res.andThen_keeps (P := arrayOnly s) (macOs_peOnly (peOnly_refl s) a b).arrayOnly
      (fun t ht => ht.trans (writeResult_banksOnly (banksOnly_refl t) _).arrayOnly)
  · split
    · exact arrayOnly_refl s
    · exact (writeResult_banksOnly (banksOnly_refl s) _).arrayOnly

theorem macAndWrite_stopsAtAccess {p : Params} {s : State} (h : s.params = p) (a b) :
    (macAndWrite a b s).stopsAtAccess p := by
  unfold macAndWrite
  split
  · exact Res.stopsAtAccess_andThen (macOs_stopsAtAccess h a b) (fun t ht => writeResult_stopsAtAccess ht _)
  · split
    · exact Res.stopsAtAccess_stop h (h ▸ macWs_stop ‹_›)
    · exact writeResult_stopsAtAccess h _

/-- The part of a compute command after its operand checks. -/
def computeBody (a b : AddrOperand) (doPreload : Bool) (s : State) : Res :=
  (if doPreload then preloadStep s else .done s).andThen (macAndWrite a b)

theorem compute_eq (a b : AddrOperand) (doPreload : Bool) (s : State) :
    compute a b doPreload s = check a.inAccumulator .operandInAccumulator s
      (check b.inAccumulator .operandInAccumulator s
        (check (a.overCounts s.params) .countRange s
          (check (b.overCounts s.params) .countRange s (computeBody a b doPreload s)))) := rfl

theorem computeBody_arrayOnly (a b p) (s : State) : arrayOnly s (computeBody a b p s).state := by
  unfold computeBody
  refine Res.andThen_keeps (P := arrayOnly s) ?_ (fun t ht => ht.trans (macAndWrite_arrayOnly a b t))
  cases p
  · exact arrayOnly_refl s
  · exact (preloadStep_peOnly (peOnly_refl s)).arrayOnly

theorem computeBody_stopsAtAccess {q : Params} {s : State} (h : s.params = q) (a b p) :
    (computeBody a b p s).stopsAtAccess q := by
  unfold computeBody
  refine Res.stopsAtAccess_andThen ?_ (fun t ht => macAndWrite_stopsAtAccess ht a b)
  cases p
  · exact Res.stopsAtAccess_done h
  · exact preloadStep_stopsAtAccess h

/-- A compute changes at most the two banks and `PE`, stopped or not. -/
theorem compute_arrayOnly (a b p) (s : State) : arrayOnly s (compute a b p s).state := by
  rw [compute_eq]
  have h := arrayOnly_refl s
  exact check_keeps h (check_keeps h (check_keeps h (check_keeps h (computeBody_arrayOnly a b p s))))

/-- `Preload` changes at most the preload record, stopped or not. -/
theorem preloadRecord_recordOnly (src dst) (s : State) :
    (preloadRecord src dst s).state =
      s.withPreload (preloadRecord src dst s).state.pre (preloadRecord src dst s).state.out := by
  unfold preloadRecord
  cases src.inAccumulator <;> cases src.overCounts s.params <;> cases dst.overCounts s.params <;> rfl

/-! ## The sequencer -/

/-- DRAM, the two banks, `PE` and the preload record may differ, nothing else does. -/
def dataOnly (s t : State) : Prop :=
  t = ((((s.withDram t.dram).withSp t.sp).withAcc t.acc).withPe t.pe).withPreload t.pre t.out

theorem dataOnly_refl (s : State) : dataOnly s s := rfl
theorem dataOnly.trans {s t u : State} (h : dataOnly s t) (h' : dataOnly t u) : dataOnly s u := by
  unfold dataOnly at *; rw [h', h]; rfl
theorem dataOnly.params {s t : State} (h : dataOnly s t) : t.params = s.params := by rw [h]; rfl
theorem dataOnly.cfg {s t : State} (h : dataOnly s t) : t.cfg = s.cfg := by rw [h]; rfl
theorem dataOnly.lw {s t : State} (h : dataOnly s t) : t.lw = s.lw := by rw [h]; rfl
theorem banksOnly.dataOnly {s t : State} (h : banksOnly s t) : dataOnly s t := by
  unfold banksOnly at h; unfold Machine.dataOnly; rw [h]; rfl
theorem dramOnly.dataOnly {s t : State} (h : dramOnly s t) : dataOnly s t := by
  unfold dramOnly at h; unfold Machine.dataOnly; rw [h]; rfl
theorem arrayOnly.dataOnly {s t : State} (h : arrayOnly s t) : dataOnly s t := by
  unfold arrayOnly at h; unfold Machine.dataOnly; rw [h]; rfl

theorem moveIn_dataOnly (k addr d) (s : State) : dataOnly s (moveIn k addr d s).state :=
  (moveIn_banksOnly (banksOnly_refl s) k addr d).dataOnly
theorem moveOut_dataOnly (addr d) (s : State) : dataOnly s (moveOut addr d s).state :=
  (moveOut_dramOnly (dramOnly_refl s) addr d).dataOnly
theorem compute_dataOnly (a b p) (s : State) : dataOnly s (compute a b p s).state :=
  (compute_arrayOnly a b p s).dataOnly
theorem preloadRecord_dataOnly (src dst) (s : State) : dataOnly s (preloadRecord src dst s).state := by
  unfold dataOnly; rw [preloadRecord_recordOnly]; rfl

theorem loopBody_dataOnly (f k j i) (s : State) : dataOnly s (loopBody f k j i s).state := by
  unfold loopBody
  refine Res.andThen_keeps (P := dataOnly s) (Res.andThen_keeps (P := dataOnly s) (Res.andThen_keeps (P := dataOnly s)
    (Res.andThen_keeps (P := dataOnly s) ?_ ?_) ?_) ?_) ?_
  · unfold loopMoveA
    split
    · exact moveIn_dataOnly _ _ _ s
    · exact dataOnly_refl s
  · intro t ht
    unfold loopMoveB
    split
    · exact ht.trans (moveIn_dataOnly _ _ _ t)
    · exact ht
  · exact fun t ht => ht.trans (preloadRecord_dataOnly _ _ t)
  · exact fun t ht => ht.trans (compute_dataOnly _ _ _ t)
  · intro t ht
    unfold loopMoveC
    split
    · exact ht.trans (moveOut_dataOnly _ _ t)
    · exact ht

theorem loopPhase1_dataOnly (f) (s : State) : dataOnly s (loopPhase1 f s).state := by
  unfold loopPhase1
  split
  · exact forRange_keeps (P := dataOnly s) (fun i _ t ht => forRange_keeps (P := dataOnly s)
      (fun j _ t ht => ht.trans (moveIn_dataOnly _ _ _ t)) ht) (dataOnly_refl s)
  · exact dataOnly_refl s

theorem loopPhase2_dataOnly (f) (s : State) : dataOnly s (loopPhase2 f s).state :=
  forRange_keeps (P := dataOnly s) (fun k _ _ ht => forRange_keeps (P := dataOnly s)
    (fun j _ _ ht => forRange_keeps (P := dataOnly s) (fun i _ t ht => ht.trans (loopBody_dataOnly f k j i t)) ht) ht)
    (dataOnly_refl s)

/-- `LOOP_WS` changes no configuration field, no field of the tiling record, no parameter, stopped or not. -/
theorem loopWs_dataOnly (f) (s : State) : dataOnly s (loopWs f s).state := by
  unfold loopWs
  have h := dataOnly_refl s
  exact check_keeps h (check_keeps h (check_keeps h
    (Res.andThen_keeps (loopPhase1_dataOnly f s) (fun t ht => ht.trans (loopPhase2_dataOnly f t)))))

end Sys2Proof.Machine
end

