-- ==== Sys2Proof/Laws/Commands.lean ====
section
/-!
SUPPORT. Laws/Commands.lean: every meaning is the end of one procedure; what that procedure can do, command by command.
-/

namespace Sys2Proof.Machine

/-- The procedure of a command, before its end is taken. -/
def bodyOf (i : Instr) (s : State) : Res :=
  match i with
  | .configEx w => configEx w s
  | .configLd w => configLd w s
  | .configSt w => configSt w s
  | .mvin2 addr d => moveIn 1 addr d s
  | .mvin addr d => moveIn 0 addr d s
  | .mvout addr d => moveOut addr d s
  | .computePreloaded a bd => compute a bd true s
  | .computeAccumulated a bd => compute a bd false s
  | .preload src dst => preloadRecord src dst s
  | .flush => .done s
  | .loopWs f => loopWs f s
  | .loopWsConfigBounds b => .done (s.withLw { s.lw with bounds := b })
  | .loopWsConfigAddrsAb a b => .done (s.withLw { s.lw with a := a, b := b })
  | .loopWsConfigAddrsDc d c => .done (s.withLw { s.lw with d := d, c := c })
  | .loopWsConfigStridesAb a b => .done (s.withLw { s.lw with aStride := a, bStride := b })
  | .loopWsConfigStridesDc d c => .done (s.withLw { s.lw with dStride := d, cStride := c })
  | .mvin3 addr d => moveIn 2 addr d s
  | .fence => .done s

theorem exec_eq_finish (i : Instr) (s : State) : exec i s = (bodyOf i s).finish := by cases i <;> rfl

theorem exec_mvinOf (k : Fin 3) (addr : Word) (d : AddrOperand) (s : State) :
    exec (mvinOf k addr d) s = (moveIn k addr d s).finish := by
  match k with
  | 0 => rfl
  | 1 => rfl
  | 2 => rfl

theorem exec_computeOf (p : Bool) (a b : AddrOperand) (s : State) :
    exec (computeOf p a b) s = (compute a b p s).finish := by cases p <;> rfl

/-! ## The configuration commands -/

theorem Activation.ofCode_eq (act : BitVec 2) :
    (act = 0 ∧ Activation.ofCode act = some .identity) ∨ (act = 1 ∧ Activation.ofCode act = some .relu) ∨
    (act = 2 ∧ Activation.ofCode act = some .relu6) ∨ (act = 3 ∧ Activation.ofCode act = none) := by
  revert act; decide

theorem loadIndex_eq (id : BitVec 2) :
    (id = 0 ∧ loadIndex id = some 0) ∨ (id = 1 ∧ loadIndex id = some 1) ∨ (id = 2 ∧ loadIndex id = some 2) ∨
    (id = 3 ∧ loadIndex id = none) := by
  revert id; decide

/-- `CONFIG_EX` ends with a violation and nothing changed, or writes the configuration with all its checks passed. -/
theorem configEx_cases (w : ExConfig) (s : State) :
    (∃ r, configEx w s = .stop (Stop.violation r) s) ∨
    (∃ act, Activation.ofCode w.act = some act ∧ shiftTooLarge s.params w.accShift = false ∧
      shiftTooLarge s.params w.sysShift = false ∧ shiftTooLarge s.params w.relu6Shift = false ∧
      transposeForbidden w.dataflow w.aTranspose w.bTranspose = false ∧
      configEx w s = .done (s.withCfg (s.cfg.withEx act w))) := by
  unfold configEx
  cases Activation.ofCode w.act with
  | none => exact .inl ⟨_, rfl⟩
  | some act =>
    rcases check_eq (shiftTooLarge s.params w.accShift || shiftTooLarge s.params w.sysShift ||
      shiftTooLarge s.params w.relu6Shift) .shiftRange s (check (transposeForbidden w.dataflow w.aTranspose w.bTranspose)
        .transposeCombination s (.done (s.withCfg (s.cfg.withEx act w)))) with ⟨h, e⟩ | ⟨h, e⟩
    · rcases check_eq (transposeForbidden w.dataflow w.aTranspose w.bTranspose) .transposeCombination s
        (.done (s.withCfg (s.cfg.withEx act w))) with ⟨h', e'⟩ | ⟨h', e'⟩
      · simp only [Bool.or_eq_false_iff] at h
        exact .inr ⟨act, rfl, h.1.1, h.1.2, h.2, h', e.trans e'⟩
      · exact .inl ⟨_, e.trans e'⟩
    · exact .inl ⟨_, e⟩

/-- `CONFIG_LD` ends with a violation and nothing changed, or writes one load state with a finite scale. -/
theorem configLd_cases (w : LdConfig) (s : State) :
    (∃ r, configLd w s = .stop (Stop.violation r) s) ∨
    (∃ k, loadIndex w.stateId = some k ∧ scaleNotFinite w.scale = false ∧
      configLd w s = .done (s.withCfg (s.cfg.withLoad k ⟨w.stride, w.scale, w.shrunk⟩))) := by
  unfold configLd
  cases loadIndex w.stateId with
  | none => exact .inl ⟨_, rfl⟩
  | some k =>
    rcases check_eq (scaleNotFinite w.scale) .scaleNotFinite s
      (.done (s.withCfg (s.cfg.withLoad k ⟨w.stride, w.scale, w.shrunk⟩))) with ⟨h, e⟩ | ⟨h, e⟩
    · exact .inr ⟨k, rfl, h, e⟩
    · exact .inl ⟨_, e⟩

/-- `CONFIG_ST` ends with a violation and nothing changed, or writes the store configuration with its checks passed. -/
theorem configSt_cases (w : StConfig) (s : State) :
    (∃ r, configSt w s = .stop (Stop.violation r) s) ∨
    (∃ act, Activation.ofCode w.act = some act ∧ scaleNotFinite w.scale = false ∧ poolWindowEmpty w.pool = false ∧
      configSt w s = .done (s.withCfg (s.cfg.withSt act w))) := by
  unfold configSt
  cases Activation.ofCode w.act with
  | none => exact .inl ⟨_, rfl⟩
  | some act =>
    rcases check_eq (scaleNotFinite w.scale) .scaleNotFinite s (check (poolWindowEmpty w.pool) .poolGeometry s
      (.done (s.withCfg (s.cfg.withSt act w)))) with ⟨h, e⟩ | ⟨h, e⟩
    · rcases check_eq (poolWindowEmpty w.pool) .poolGeometry s (.done (s.withCfg (s.cfg.withSt act w))) with
        ⟨h', e'⟩ | ⟨h', e'⟩
      · exact .inr ⟨act, rfl, h, h', e.trans e'⟩
      · exact .inl ⟨_, e.trans e'⟩
    · exact .inl ⟨_, e⟩

/-! ## Results that stop early or at an access -/

/-- A procedure either stops with a violation before it has changed anything, or, if it stops, stops at an access. -/
def Res.headOrAccess (s : State) (r : Res) : Prop := (∃ x, r = .stop (Stop.violation x) s) ∨ r.stopsAtAccess s.params

theorem check_headOrAccess {bad : Bool} {reason : ConfigReason} {s : State} {rest : Res}
    (h : rest.headOrAccess s) : (check bad reason s rest).headOrAccess s := by
  rcases check_eq bad reason s rest with ⟨_, e⟩ | ⟨_, e⟩ <;> rw [e]
  · exact h
  · exact .inl ⟨reason, rfl⟩

theorem moveIn_headOrAccess (k addr d) (s : State) : (moveIn k addr d s).headOrAccess s := by
  rw [moveIn_eq]
  exact check_headOrAccess (check_headOrAccess (.inr (moveInLoop_stopsAtAccess rfl k addr d)))

theorem moveOut_headOrAccess (addr d) (s : State) : (moveOut addr d s).headOrAccess s := by
  unfold moveOut
  refine check_headOrAccess (check_headOrAccess ?_)
  split
  · rw [plainMoveOut_eq]; exact check_headOrAccess (.inr (moveOutLoop_stopsAtAccess rfl addr d))
  · rw [pooledMoveOut_eq]
    exact check_headOrAccess (check_headOrAccess (.inr (pooledLoop_stopsAtAccess rfl addr d)))

theorem compute_headOrAccess (a b p) (s : State) : (compute a b p s).headOrAccess s := by
  rw [compute_eq]
  exact check_headOrAccess (check_headOrAccess (check_headOrAccess (check_headOrAccess
    (.inr (computeBody_stopsAtAccess rfl a b p)))))

theorem preloadRecord_headOrAccess (src dst) (s : State) : (preloadRecord src dst s).headOrAccess s := by
  unfold preloadRecord
  exact check_headOrAccess (check_headOrAccess (check_headOrAccess (.inr (Res.stopsAtAccess_done rfl))))

/-- Every command but `LOOP_WS` raises a violation only before it has changed anything. -/
theorem bodyOf_headOrAccess {i : Instr} (hi : ∀ f, i ≠ .loopWs f) (s : State) : (bodyOf i s).headOrAccess s := by
  cases i with
  | mvin a d => exact moveIn_headOrAccess _ _ _ s
  | mvin2 a d => exact moveIn_headOrAccess _ _ _ s
  | mvin3 a d => exact moveIn_headOrAccess _ _ _ s
  | mvout a d => exact moveOut_headOrAccess _ _ s
  | computePreloaded a d => exact compute_headOrAccess _ _ _ s
  | computeAccumulated a d => exact compute_headOrAccess _ _ _ s
  | preload a d => exact preloadRecord_headOrAccess _ _ s
  | loopWs f => exact absurd rfl (hi f)
  | configEx w =>
    show (configEx w s).headOrAccess s
    rcases configEx_cases w s with ⟨r, e⟩ | ⟨_, _, _, _, _, _, e⟩
    · exact .inl ⟨r, e⟩
    · rw [e]; exact .inr (Res.stopsAtAccess_done rfl)
  | configLd w =>
    show (configLd w s).headOrAccess s
    rcases configLd_cases w s with ⟨r, e⟩ | ⟨_, _, _, e⟩
    · exact .inl ⟨r, e⟩
    · rw [e]; exact .inr (Res.stopsAtAccess_done rfl)
  | configSt w =>
    show (configSt w s).headOrAccess s
    rcases configSt_cases w s with ⟨r, e⟩ | ⟨_, _, _, _, e⟩
    · exact .inl ⟨r, e⟩
    · rw [e]; exact .inr (Res.stopsAtAccess_done rfl)
  | _ => exact .inr (Res.stopsAtAccess_done rfl)

/-! ## Stuck steps -/

/-- Every refused address a procedure stops at is one the platform refuses. -/
def Res.stuckOnlyRefused (p : Params) (r : Res) : Prop :=
  r.state.params = p ∧ ∀ a t, r = .stop (.stuck a) t → dramAdmit p a = false

theorem Res.stopsAtAccess.stuckOnlyRefused {p : Params} {r : Res} (h : r.stopsAtAccess p) : r.stuckOnlyRefused p := by
  refine ⟨h.1, fun a t e => ?_⟩
  rcases h.2 _ _ e with ⟨b, hb⟩ | ⟨a', ha, hr⟩
  · cases hb
  · cases ha; exact hr

theorem Res.headOrAccess.stuckOnlyRefused {s : State} {r : Res} (h : r.headOrAccess s) :
    r.stuckOnlyRefused s.params := by
  rcases h with ⟨x, rfl⟩ | h
  · exact ⟨rfl, fun a t e => nomatch e⟩
  · exact h.stuckOnlyRefused

theorem Res.stuckOnlyRefused_andThen {p : Params} {r : Res} {f : State → Res} (h : r.stuckOnlyRefused p)
    (hf : ∀ s, s.params = p → (f s).stuckOnlyRefused p) : (r.andThen f).stuckOnlyRefused p := by
  cases r with
  | done s => exact hf s h.1
  | stop w s => exact h

theorem check_stuckOnlyRefused {p : Params} {bad : Bool} {reason : ConfigReason} {s : State} {rest : Res}
    (hs : s.params = p) (h : rest.stuckOnlyRefused p) : (check bad reason s rest).stuckOnlyRefused p := by
  rcases check_eq bad reason s rest with ⟨_, e⟩ | ⟨_, e⟩ <;> rw [e]
  · exact h
  · exact ⟨hs, fun a t e => nomatch e⟩

theorem forRange_stuckOnlyRefused {p : Params} {n : Nat} {body : Nat → State → Res}
    (hb : ∀ i < n, ∀ s, s.params = p → (body i s).stuckOnlyRefused p) {s : State} (hs : s.params = p) :
    (forRange n body s).stuckOnlyRefused p := by
  rw [forRange_eq_runAll]
  have hb' : ∀ x ∈ List.range n, ∀ s, s.params = p → (body x s).stuckOnlyRefused p :=
    fun i hi => hb i (List.mem_range.mp hi)
  generalize List.range n = xs at hb'
  induction xs generalizing s with
  | nil => exact ⟨hs, fun a t e => nomatch e⟩
  | cons x t ih =>
    rw [runAll_cons]
    exact Res.stuckOnlyRefused_andThen (hb' x List.mem_cons_self s hs)
      fun s' hs' => ih hs' fun y hy => hb' y (List.mem_cons_of_mem _ hy)

theorem loopBody_stuckOnlyRefused {p : Params} {s : State} (hs : s.params = p) (f k j i) :
    (loopBody f k j i s).stuckOnlyRefused p := by
  have hd : ∀ {t : State}, t.params = p → (Res.done t).stuckOnlyRefused p := fun h => ⟨h, fun _ _ e => nomatch e⟩
  unfold loopBody
  refine Res.stuckOnlyRefused_andThen (Res.stuckOnlyRefused_andThen (Res.stuckOnlyRefused_andThen
    (Res.stuckOnlyRefused_andThen ?_ ?_) ?_) ?_) ?_
  · unfold loopMoveA
    split
    · exact hs ▸ (moveIn_headOrAccess _ _ _ s).stuckOnlyRefused
    · exact hd hs
  · intro t ht
    unfold loopMoveB
    split
    · exact ht ▸ (moveIn_headOrAccess _ _ _ t).stuckOnlyRefused
    · exact hd ht
  · exact fun t ht => ht ▸ (preloadRecord_headOrAccess _ _ t).stuckOnlyRefused
  · exact fun t ht => ht ▸ (compute_headOrAccess _ _ _ t).stuckOnlyRefused
  · intro t ht
    unfold loopMoveC
    split
    · exact ht ▸ (moveOut_headOrAccess _ _ t).stuckOnlyRefused
    · exact hd ht

theorem loopWs_stuckOnlyRefused (f) (s : State) : (loopWs f s).stuckOnlyRefused s.params := by
  unfold loopWs
  refine check_stuckOnlyRefused rfl (check_stuckOnlyRefused rfl (check_stuckOnlyRefused rfl
    (Res.stuckOnlyRefused_andThen ?_ fun t ht => ?_)))
  · unfold loopPhase1
    split
    · exact forRange_stuckOnlyRefused (fun i _ t ht => forRange_stuckOnlyRefused
        (fun j _ t ht => ht ▸ (moveIn_headOrAccess _ _ _ t).stuckOnlyRefused) ht) rfl
    · exact ⟨rfl, fun _ _ e => nomatch e⟩
  · exact forRange_stuckOnlyRefused (fun k _ t ht => forRange_stuckOnlyRefused
      (fun j _ t ht => forRange_stuckOnlyRefused (fun i _ t ht => loopBody_stuckOnlyRefused ht f k j i) ht) ht) ht

/-- The only address a command is ever stuck at is one the platform refuses (R65). -/
theorem bodyOf_stuckOnlyRefused (i : Instr) (s : State) : (bodyOf i s).stuckOnlyRefused s.params := by
  by_cases h : ∃ f, i = .loopWs f
  · obtain ⟨f, rfl⟩ := h
    exact loopWs_stuckOnlyRefused f s
  · exact (bodyOf_headOrAccess (fun f e => h ⟨f, e⟩) s).stuckOnlyRefused

end Sys2Proof.Machine
end

