-- ==== Sys2Proof/Laws/Numbers.lean ====
section
/-!
SUPPORT. Laws/Numbers.lean: the number forms of R10: wrap, saturation, patterns, and little-endian sums.
-/

namespace Sys2Proof.Machine

theorem fitsIn_iff {n : Nat} {x : Int} : fitsIn n x = true ↔ -pow2 (n - 1) ≤ x ∧ x ≤ pow2 (n - 1) - 1 := by
  unfold fitsIn
  exact decide_eq_true_iff

/-- Wrapping a summand first changes nothing (R175, R180). -/
theorem wrapTo_add_wrapTo (n : Nat) (x y : Int) : wrapTo n (wrapTo n x + y) = wrapTo n (x + y) := by
  unfold wrapTo
  rw [Int.bmod_add_bmod]

theorem wrapTo_wrapTo (n : Nat) (x : Int) : wrapTo n (wrapTo n x) = wrapTo n x := by
  unfold wrapTo
  rw [Int.bmod_bmod]

theorem pow2_pos (n : Nat) : 0 < pow2 n := by
  unfold pow2
  exact_mod_cast Nat.two_pow_pos n

theorem pow2_succ (n : Nat) : pow2 (n + 1) = 2 * pow2 n := by
  unfold pow2
  push_cast
  ring

/-- A wrapped value is a signed integer of its width. -/
theorem wrapTo_fits {n : Nat} (hn : 1 ≤ n) (x : Int) : fitsIn n (wrapTo n x) = true := by
  obtain ⟨m, rfl⟩ : ∃ m, n = m + 1 := ⟨n - 1, by omega⟩
  have hp : (0 : Int) < 2 ^ m := by positivity
  have h1 := Int.le_bmod (x := x) (m := 2 ^ (m + 1)) (by positivity)
  have h2 := Int.bmod_lt (x := x) (m := 2 ^ (m + 1)) (by positivity)
  rw [fitsIn_iff, Nat.add_sub_cancel]
  unfold wrapTo pow2
  generalize Int.bmod x (2 ^ (m + 1)) = y at *
  push_cast at *
  rw [pow_succ] at h1 h2
  omega

/-- A signed integer of the width wraps to itself. -/
theorem wrapTo_of_fits {n : Nat} (hn : 1 ≤ n) {x : Int} (h : fitsIn n x = true) : wrapTo n x = x := by
  obtain ⟨m, rfl⟩ : ∃ m, n = m + 1 := ⟨n - 1, by omega⟩
  rw [fitsIn_iff, Nat.add_sub_cancel] at h
  unfold pow2 at h
  push_cast at h
  unfold wrapTo
  refine Int.bmod_eq_of_le ?_ ?_
  · push_cast
    rw [pow_succ]
    omega
  · push_cast
    rw [pow_succ]
    omega

/-- A saturated value is in range (R201). -/
theorem satTo_fits (n : Nat) (x : Int) : fitsIn n (satTo n x) = true := by
  have h := pow2_pos (n - 1)
  rw [fitsIn_iff]
  unfold satTo minOf maxOf
  omega

/-- Saturation leaves a value that is in range. -/
theorem satTo_of_fits {n : Nat} {x : Int} (h : fitsIn n x = true) : satTo n x = x := by
  rw [fitsIn_iff] at h
  unfold satTo minOf maxOf
  omega

theorem zero_fits {n : Nat} : fitsIn n 0 = true := by
  have h := pow2_pos (n - 1)
  rw [fitsIn_iff]
  omega

/-- A wider signed integer holds every narrower one: sign extension keeps the value. -/
theorem fits_widen {n m : Nat} (h : n ≤ m) {x : Int} (hx : fitsIn n x = true) : fitsIn m x = true := by
  have h1 : pow2 (n - 1) ≤ pow2 (m - 1) := by
    unfold pow2
    exact_mod_cast Nat.pow_le_pow_right (by omega) (by omega)
  rw [fitsIn_iff] at *
  omega

/-- A pattern read as signed is a signed integer of its width. -/
theorem sextFrom_fits {n v : Nat} (hn : 1 ≤ n) (hv : v < 2 ^ n) : fitsIn n (sextFrom n v) = true := by
  obtain ⟨m, rfl⟩ : ∃ m, n = m + 1 := ⟨n - 1, by omega⟩
  rw [fitsIn_iff, Nat.add_sub_cancel]
  unfold sextFrom pow2
  rw [pow_succ] at *
  have : 0 < 2 ^ m := by positivity
  split <;> constructor <;> push_cast <;> zify at * <;> omega

/-- The pattern of a pattern read as signed is that pattern. -/
theorem bitsOf_sextFrom {n v : Nat} (hv : v < 2 ^ n) : bitsOf n (sextFrom n v) = v := by
  unfold bitsOf sextFrom pow2
  split
  · rw [Int.emod_eq_of_lt (by omega) (by exact_mod_cast hv)]; simp
  · rw [Int.sub_emod_right, Int.emod_eq_of_lt (by omega) (by exact_mod_cast hv)]; simp

/-- A chain of wrapped additions is one wrapped sum. -/
theorem foldl_wrapTo {n : Nat} {f : Nat → Int} (m : Nat) (a : Int) :
    wrapTo n ((List.range m).foldl (fun acc k => wrapTo n (acc + f k)) a) =
      wrapTo n (a + ∑ k ∈ Finset.range m, f k) := by
  induction m with
  | zero => simp
  | succ m ih =>
    rw [List.range_succ, List.foldl_append, List.foldl_cons, List.foldl_nil, wrapTo_wrapTo,
      ← wrapTo_add_wrapTo, ih, wrapTo_add_wrapTo, Finset.sum_range_succ, add_assoc]

/-- With at least one addition the chain is already wrapped. -/
theorem foldl_wrapTo_pos {n : Nat} {f : Nat → Int} {m : Nat} (hm : 0 < m) (a : Int) :
    (List.range m).foldl (fun acc k => wrapTo n (acc + f k)) a = wrapTo n (a + ∑ k ∈ Finset.range m, f k) := by
  obtain ⟨j, rfl⟩ : ∃ j, m = j + 1 := ⟨m - 1, by omega⟩
  rw [← foldl_wrapTo, List.range_succ, List.foldl_append, List.foldl_cons, List.foldl_nil, wrapTo_wrapTo]

/-! ## Little-endian values -/

theorem State.wordAt_lt (s : State) (a : Word) (n : Nat) : s.wordAt a n < 2 ^ (8 * n) := by
  unfold State.wordAt
  induction n with
  | zero => simp
  | succ n ih =>
    rw [Finset.sum_range_succ, show 8 * (n + 1) = 8 * n + 8 by ring, pow_add]
    have := (s.byteAt (byteAddress a n)).isLt
    nlinarith [Nat.two_pow_pos (8 * n)]

/-- Byte b of the little-endian value at an address is the byte b places after it. -/
theorem State.byteOf_wordAt (s : State) (a : Word) (n b : Nat) (hb : b < n) :
    byteOf (s.wordAt a n) b = s.byteAt (byteAddress a b) := by
  obtain ⟨m, rfl⟩ := Nat.exists_eq_add_of_lt hb
  unfold byteOf State.wordAt
  apply BitVec.eq_of_toNat_eq
  rw [BitVec.toNat_ofNat]
  have key : ∀ k, (∑ i ∈ Finset.range (b + 1 + k), (s.byteAt (byteAddress a i)).toNat * 2 ^ (8 * i)) /
      2 ^ (8 * b) % 2 ^ 8 = (s.byteAt (byteAddress a b)).toNat := by
    intro k
    induction k with
    | zero =>
      rw [Nat.add_zero, Finset.sum_range_succ]
      have := s.wordAt_lt a b
      unfold State.wordAt at this
      rw [Nat.add_mul_div_right _ _ (by positivity), Nat.div_eq_of_lt this, Nat.zero_add,
        Nat.mod_eq_of_lt (s.byteAt _).isLt]
    | succ k ih =>
      rw [← Nat.add_assoc, Finset.sum_range_succ, show 8 * (b + 1 + k) = 8 * k + 8 + 8 * b by ring, pow_add,
        ← Nat.mul_assoc, Nat.add_mul_div_right _ _ (by positivity), pow_add, ← Nat.mul_assoc,
        Nat.add_mul_mod_self_right]
      exact ih
  have := key m
  rwa [show b + 1 + m = b + m + 1 by ring] at this

/-! ## The quantizer -/

/-- A rounding shift of an exact multiple is the quotient (R200, R202). -/
theorem roundShift_mul (x : Int) (n : Nat) : roundShift (2 ^ n * x) n = x := by
  unfold roundShift
  split
  · rename_i h; subst h; simp
  · rename_i h
    obtain ⟨m, rfl⟩ : ∃ m, n = m + 1 := ⟨n - 1, by omega⟩
    have hp : (0 : Int) < 2 ^ m := by positivity
    have h1 : bitAt (2 ^ (m + 1) * x) m = false := by
      unfold bitAt pow2
      push_cast
      rw [show (2 : Int) ^ (m + 1) * x = 2 ^ m * (2 * x) by ring, Int.mul_ediv_cancel_left _ (ne_of_gt hp)]
      simp
    simp only [Nat.add_sub_cancel, h1, Bool.false_and]
    unfold pow2
    push_cast
    rw [Int.mul_ediv_cancel_left _ (by positivity)]
    simp

@[simp] theorem roundShift_zero (n : Nat) : roundShift 0 n = 0 := by
  have := roundShift_mul 0 n
  rwa [mul_zero] at this

/-- An activation keeps a narrow value narrow (R203). -/
theorem activate_fits {n : Nat} {x : Int} (h : fitsIn n x = true) (act : Activation) (sh : Nat) :
    fitsIn n (activate act sh x) = true := by
  have h1 := pow2_pos (n - 1)
  have h2 := pow2_pos sh
  rw [fitsIn_iff] at *
  cases act <;> simp only [activate] <;> omega

end Sys2Proof.Machine
end

