-- ==== Sys2Proof/Laws/ComputeEngine.lean ====
section
/-!
SUPPORT. Laws/ComputeEngine.lean: the parts of a compute command: the operand reads, the preload step, the two
multiply-accumulates and the result write, each as the values it produces where every access is in range, and as the
values it has produced by the first access that is not.
-/

namespace Sys2Proof.Machine

/-- The key of matrix cell x = (i, j). -/
def matrixKey (p : Params) (x : Nat × Nat) : Nat := x.1 * p.dim + x.2

/-- A list of writes to distinct cells of a matrix. -/
theorem cellAt_matrixAll {p : Params} {val : Nat × Nat → Int → Int} {xs : List (Nat × Nat)} (hxs : xs.Nodup)
    (hin : ∀ x ∈ xs, x.2 < p.dim) {i j : Nat} (hx : (i, j) ∈ xs) (b : Bank) :
    cellAt p (sparseSetAll 0 (matrixKey p) val xs b) i j = val (i, j) (cellAt p b i j) := by
  refine sparseGet_setAll (0 : Int) (x := (i, j)) (hxs.map_on fun x hx y hy h => ?_) hx b
  obtain ⟨h1, h2⟩ := cellKey_inj (hin x hx) (hin y hy) h
  exact Prod.ext h1 h2

/-! ## Operand reads -/

/-- `arrayOperand`: null, or in the scratchpad with both counts at most DIM. -/
theorem AddrOperand.arrayOperand_cases {p : Params} {o : AddrOperand} (h : o.arrayOperand p = true) :
    o.inAccumulator = false ∧ o.overCounts p = false ∧
      (o.isNull = true ∨ (o.isNull = false ∧ o.isAcc = false ∧ o.nrows ≤ p.dim ∧ o.ncols ≤ p.dim)) := by
  unfold AddrOperand.arrayOperand at h
  rw [Bool.and_eq_true, Bool.not_eq_true', Bool.not_eq_true'] at h
  refine ⟨h.1, h.2, ?_⟩
  cases hn : o.isNull with
  | true => exact .inl rfl
  | false =>
    have h1 := h.1
    have h2 := h.2
    simp only [AddrOperand.inAccumulator, AddrOperand.overCounts, hn, Bool.not_false, Bool.true_and,
      Bool.or_eq_false_iff, decide_eq_false_iff_not, Nat.not_lt] at h1 h2
    exact .inr ⟨rfl, h1, h2.1, h2.2⟩

/-- A read that a null operand or a position outside the extent answers with 0. -/
theorem boundedRead_ok {s : State} {isNull : Bool} {rows cols r c row : Nat}
    (h : isNull = false → r < rows → c < cols → row < s.params.spRows) :
    (if isNull = true ∨ rows ≤ r ∨ cols ≤ c then .ok 0 else s.readCell false row c) =
      (.ok (if isNull = false ∧ r < rows ∧ c < cols then s.spAt row c else 0) : Except Stop Int) := by
  cases isNull with
  | true => simp
  | false =>
    by_cases hc : rows ≤ r ∨ cols ≤ c
    · rw [if_pos (by simpa using hc), if_neg (by omega)]
    · rw [if_neg (by simpa using hc), if_pos ⟨rfl, by omega, by omega⟩]
      exact State.readCell_ok (isAcc := false) (h rfl (by omega) (by omega)) _

/-- The same read of a position inside the extent whose row does not exist. -/
theorem boundedRead_out {s : State} {isNull : Bool} {rows cols r c row : Nat}
    (h : ¬ (isNull = false → r < rows → c < cols → row < s.params.spRows)) :
    (if isNull = true ∨ rows ≤ r ∨ cols ≤ c then .ok 0 else s.readCell false row c) =
      (.error (Stop.outOfRange .scratchpadRow) : Except Stop Int) := by
  simp only [Classical.not_imp, Nat.not_lt] at h
  obtain ⟨hn, hr, hc, hrow⟩ := h
  rw [if_neg (by simp [hn]; omega)]
  rcases s.readCell_eq false row c with ⟨hin, _⟩ | ⟨_, e⟩
  · exact absurd hin (Nat.not_lt.mpr hrow)
  · exact e

/-! Every operand read is 0, a cell of the scratchpad, or `OutOfRange` (R174). -/

theorem aval_in {s : State} {a : AddrOperand} {i k : Nat} (h : entryAInRange s a i k) :
    aval s a i k = .ok (entryA s a i k) := boundedRead_ok h

theorem aval_out {s : State} {a : AddrOperand} {i k : Nat} (h : ¬ entryAInRange s a i k) :
    aval s a i k = .error (Stop.outOfRange .scratchpadRow) := boundedRead_out h

theorem bval_in {s : State} {b : AddrOperand} {k j : Nat} (h : entryBInRange s b k j) :
    bval s b k j = .ok (entryB s b k j) := boundedRead_ok h

theorem bval_out {s : State} {b : AddrOperand} {k j : Nat} (h : ¬ entryBInRange s b k j) :
    bval s b k j = .error (Stop.outOfRange .scratchpadRow) := boundedRead_out h

theorem preloadValue_in {s : State} {i j : Nat} (h : tileEntryInRange s i j) :
    preloadValue s i j = .ok (tileEntry s i j) := boundedRead_ok h

theorem preloadValue_out {s : State} {i j : Nat} (h : ¬ tileEntryInRange s i j) :
    preloadValue s i j = .error (Stop.outOfRange .scratchpadRow) := boundedRead_out h

/-! An operand whose rows are all in range is in range at every entry. -/

theorem entryA_inRange {s : State} {a : AddrOperand} (h : operandInRange s.params a s.cfg.aStride.toNat) (i k : Nat) :
    entryAInRange s a i k := fun hn hr hc => h hn (by omega) _ hr

theorem entryB_inRange {s : State} {b : AddrOperand} (h : operandInRange s.params b 1) (k j : Nat) :
    entryBInRange s b k j := fun hn hr hc => by simpa using h hn (by omega) _ hr

theorem tileEntry_inRange {s : State} (h : tileInRange s) (i j : Nat) : tileEntryInRange s i j :=
  fun hn hr hc => h hn (by omega) _ hr

theorem aval_ok {s : State} {a : AddrOperand} (h : operandInRange s.params a s.cfg.aStride.toNat) (i k : Nat) :
    aval s a i k = .ok (entryA s a i k) := aval_in (entryA_inRange h i k)

theorem dval_ok {s : State} {b : AddrOperand} (h : operandInRange s.params b 1) (i j : Nat) :
    dval s b i j = .ok (entryD s b i j) :=
  boundedRead_ok fun hn hr hc => by simpa using h hn (by omega) _ hr

/-! ## The preload step and the multiply-accumulates -/

/-- The body of the loops of the preload step, for cell x = (i, j). -/
def preloadCell (x : Nat × Nat) (s : State) : Res :=
  match preloadValue s x.1 x.2 with
  | .error why => .stop why s
  | .ok v => .done (s.putPe x.1 x.2 v)

theorem preloadStep_loop (s : State) : preloadStep s = runAll preloadCell (pairsOf s.params.dim s.params.dim) s :=
  forRange_nest ..

/-- Loops of the preload step, every read in range: one list of writes to `PE` (R173). -/
theorem preload_writes {s : State} {xs : List (Nat × Nat)} (h : ∀ x ∈ xs, tileEntryInRange s x.1 x.2) :
    runAll preloadCell xs s =
      .done (s.withPe (sparseSetAll 0 (matrixKey s.params) (fun x _ => tileEntry s x.1 x.2) xs s.pe)) := by
  refine runAll_sets (d := (0 : Int)) (key := matrixKey s.params) (val := fun x _ => tileEntry s x.1 x.2)
    (put := fun m => s.withPe m) (fun x hx m => ?_) s.pe
  have : preloadValue (s.withPe m) x.1 x.2 = .ok (tileEntry s x.1 x.2) := preloadValue_in (h x hx)
  simp only [preloadCell, this]
  rfl

/-- The preload step writes every cell of `PE` (R173). -/
theorem preloadStep_done {s : State} (h : tileInRange s) :
    preloadStep s = .done (s.withPe (sparseSetAll 0 (matrixKey s.params) (fun x _ => tileEntry s x.1 x.2)
      (pairsOf s.params.dim s.params.dim) s.pe)) :=
  (preloadStep_loop s).trans (preload_writes fun x _ => tileEntry_inRange h x.1 x.2)

/-- The preload step stops at the first cell whose read is out of range, the cells before it written (R173, R307). -/
theorem preloadStep_stop {s : State} {before after : List (Nat × Nat)} {x : Nat × Nat}
    (e : pairsOf s.params.dim s.params.dim = before ++ x :: after) (h : ∀ y ∈ before, tileEntryInRange s y.1 y.2)
    (hx : ¬ tileEntryInRange s x.1 x.2) :
    preloadStep s = .stop (Stop.outOfRange .scratchpadRow)
      (s.withPe (sparseSetAll 0 (matrixKey s.params) (fun x _ => tileEntry s x.1 x.2) before s.pe)) := by
  rw [preloadStep_loop, e]
  refine runAll_stop_at (preload_writes h) ?_
  generalize sparseSetAll (0 : Int) (matrixKey s.params) (fun x _ => tileEntry s x.1 x.2) before s.pe = m
  have : preloadValue (s.withPe m) x.1 x.2 = .error (Stop.outOfRange .scratchpadRow) := preloadValue_out hx
  simp only [preloadCell, this]

/-- The sum of the products of a cell in OS dataflow. -/
def osProducts (s : State) (a b : AddrOperand) (i j : Nat) : Int :=
  ∑ k ∈ Finset.range s.params.dim, entryA s a i k * entryB s b k j

theorem macOsValue_in {s : State} {a b : AddrOperand} {i j : Nat} (hd : 0 < s.params.dim)
    (h : osCellInRange s a b i j) :
    macOsValue s a b i j = .ok (wrapTo s.params.accBits (s.peAt i j + osProducts s a b i j)) := by
  unfold macOsValue
  rw [foldRange_ok (g := fun acc k => wrapTo s.params.accBits (acc + entryA s a i k * entryB s b k j))
    (fun k hk acc => by rw [aval_in (h k hk).1, bval_in (h k hk).2]; rfl), foldl_wrapTo_pos hd]
  rfl

theorem macOsValue_out {s : State} {a b : AddrOperand} {i j : Nat} (h : ¬ osCellInRange s a b i j) :
    macOsValue s a b i j = .error (Stop.outOfRange .scratchpadRow) := by
  have hl : ∀ k acc, (entryAInRange s a i k ∧ entryBInRange s b k j ∧
        ∃ acc', macLink s.params acc (aval s a i k) (bval s b k j) = .ok acc') ∨
      (¬ (entryAInRange s a i k ∧ entryBInRange s b k j) ∧
        macLink s.params acc (aval s a i k) (bval s b k j) = .error (Stop.outOfRange .scratchpadRow)) := by
    intro k acc
    by_cases ha : entryAInRange s a i k
    · by_cases hb : entryBInRange s b k j
      · exact .inl ⟨ha, hb, _, by rw [aval_in ha, bval_in hb]; rfl⟩
      · exact .inr ⟨fun h => hb h.2, by rw [aval_in ha, bval_out hb]; rfl⟩
    · exact .inr ⟨fun h => ha h.1, by rw [aval_out ha]; rfl⟩
  obtain ⟨k, hk⟩ := not_forall.mp h
  obtain ⟨hk, hkr⟩ := Classical.not_imp.mp hk
  refine foldRange_error (fun k _ acc => (hl k acc).imp (fun h => h.2.2) (fun h => h.2)) ⟨k, hk, fun acc => ?_⟩ _
  rcases hl k acc with h | h
  · exact absurd ⟨h.1, h.2.1⟩ hkr
  · exact h.2

/-- The body of the loops of the OS multiply-accumulate, for cell x = (i, j). -/
def macOsCell (a b : AddrOperand) (x : Nat × Nat) (s : State) : Res :=
  match macOsValue s a b x.1 x.2 with
  | .error why => .stop why s
  | .ok v => .done (s.putPe x.1 x.2 v)

theorem macOs_loop (a b : AddrOperand) (s : State) :
    macOs a b s = runAll (macOsCell a b) (pairsOf s.params.dim s.params.dim) s := forRange_nest ..

/-- Loops of the OS multiply-accumulate, every read in range: one list of writes to `PE` (R175). -/
theorem macOs_writes {s : State} {a b : AddrOperand} {xs : List (Nat × Nat)} (hd : 0 < s.params.dim)
    (h : ∀ x ∈ xs, osCellInRange s a b x.1 x.2) :
    runAll (macOsCell a b) xs s = .done (s.withPe (sparseSetAll 0 (matrixKey s.params)
      (fun x old => wrapTo s.params.accBits (old + osProducts s a b x.1 x.2)) xs s.pe)) := by
  refine runAll_sets (d := (0 : Int)) (key := matrixKey s.params)
    (val := fun x old => wrapTo s.params.accBits (old + osProducts s a b x.1 x.2))
    (put := fun m => s.withPe m) (fun x hx m => ?_) s.pe
  have := macOsValue_in (s := s.withPe m) hd (h x hx)
  simp only [macOsCell, this]
  rfl

/-- The OS multiply-accumulate adds the sum of the products to every cell of `PE`, with wrap (R175). -/
theorem macOs_done {s : State} {a b : AddrOperand} (hd : 0 < s.params.dim)
    (ha : operandInRange s.params a s.cfg.aStride.toNat) (hb : operandInRange s.params b 1) :
    macOs a b s = .done (s.withPe (sparseSetAll 0 (matrixKey s.params)
      (fun x old => wrapTo s.params.accBits (old + osProducts s a b x.1 x.2))
      (pairsOf s.params.dim s.params.dim) s.pe)) :=
  (macOs_loop a b s).trans (macOs_writes hd fun x _ k _ => ⟨entryA_inRange ha x.1 k, entryB_inRange hb k x.2⟩)

/-- It stops at the first cell one of whose reads is out of range, the cells before it updated (R175, R307). -/
theorem macOs_stop {s : State} {a b : AddrOperand} {before after : List (Nat × Nat)} {x : Nat × Nat}
    (hd : 0 < s.params.dim) (e : pairsOf s.params.dim s.params.dim = before ++ x :: after)
    (h : ∀ y ∈ before, osCellInRange s a b y.1 y.2) (hx : ¬ osCellInRange s a b x.1 x.2) :
    macOs a b s = .stop (Stop.outOfRange .scratchpadRow) (s.withPe (sparseSetAll 0 (matrixKey s.params)
      (fun x old => wrapTo s.params.accBits (old + osProducts s a b x.1 x.2)) before s.pe)) := by
  rw [macOs_loop, e]
  refine runAll_stop_at (macOs_writes hd h) ?_
  generalize sparseSetAll (0 : Int) (matrixKey s.params)
    (fun x old => wrapTo s.params.accBits (old + osProducts s a b x.1 x.2)) before s.pe = m
  have : macOsValue (s.withPe m) a b x.1 x.2 = .error (Stop.outOfRange .scratchpadRow) := macOsValue_out hx
  simp only [macOsCell, this]

/-- The sum of the products of a cell in WS dataflow: the weights are in `PE`. -/
def wsProducts (s : State) (a : AddrOperand) (i j : Nat) : Int :=
  ∑ k ∈ Finset.range s.params.dim, entryA s a i k * s.peAt k j

theorem macWsValue_ok {s : State} {a b : AddrOperand} (hd : 0 < s.params.dim)
    (ha : operandInRange s.params a s.cfg.aStride.toNat) (hb : operandInRange s.params b 1) (i j : Nat) :
    macWsValue s a b i j = .ok (wrapTo s.params.accBits (entryD s b i j + wsProducts s a i j)) := by
  unfold macWsValue
  rw [dval_ok hb]
  simp only
  rw [foldRange_ok (g := fun acc k => wrapTo s.params.accBits (acc + entryA s a i k * s.peAt k j))
    (fun k _ acc => by rw [aval_ok ha]; rfl), foldl_wrapTo_pos hd]
  rfl

/-- The scratch result matrix of a WS compute (R178). -/
theorem macWs_ok {s : State} {a b : AddrOperand} (hd : 0 < s.params.dim)
    (ha : operandInRange s.params a s.cfg.aStride.toNat) (hb : operandInRange s.params b 1) :
    macWs a b s = .ok (sparseSetAll 0 (matrixKey s.params)
      (fun x _ => wrapTo s.params.accBits (entryD s b x.1 x.2 + wsProducts s a x.1 x.2))
      (pairsOf s.params.dim s.params.dim) []) := by
  unfold macWs
  refine (foldRange_ok (g := fun (res : Bank) i => (List.range s.params.dim).foldl (fun res j =>
    putCell s.params res i j (wrapTo s.params.accBits (entryD s b i j + wsProducts s a i j))) res)
    (fun i _ res => foldRange_ok (fun j _ r => by rw [macWsValue_ok hd ha hb]) res) []).trans ?_
  congr 1
  simp only [sparseSetAll, pairsOf, List.foldl_flatMap, List.foldl_map]
  rfl

/-! ## The result write -/

/-- The key of destination cell x = (i, j). -/
def destinationKey (s : State) (x : Nat × Nat) : Nat := (s.out.base + x.1) * s.params.dim + x.2

theorem writeResult_null {s : State} (h : s.out.isNull = true) (res : Bank) : writeResult res s = .done s := by
  unfold writeResult
  rw [if_pos h]

theorem writeResult_loop {s : State} (h : s.out.isNull = false) (res : Bank) :
    writeResult res s = runAll (fun x t => writeResultCell (cellAt t.params res x.1 x.2) x.1 x.2 t)
      (pairsOf s.out.rows.toNat s.out.cols.toNat) s := by
  unfold writeResult
  rw [if_neg (by rw [h]; exact Bool.false_ne_true)]
  exact forRange_nest s.out.rows.toNat s.out.cols.toNat
    (fun i j s => writeResultCell (cellAt s.params res i j) i j s) s

/-- The body of the loops of the result write, for cell x = (i, j). -/
def resultCell (res : Bank) (x : Nat × Nat) (t : State) : Res :=
  writeResultCell (cellAt t.params res x.1 x.2) x.1 x.2 t

/-- Writes of results into scratchpad rows that exist: one list of writes of quantized values (R179). -/
theorem result_writes_sp {s : State} {xs : List (Nat × Nat)} (ht : s.out.toAcc = false)
    (hr : ∀ x ∈ xs, s.out.base + x.1 < s.params.spRows) (res : Bank) :
    runAll (resultCell res) xs s = .done (s.withSp (sparseSetAll 0 (destinationKey s)
      (fun x _ => sysQuantize s.params s.cfg (cellAt s.params res x.1 x.2)) xs s.sp)) := by
  refine runAll_sets (d := (0 : Int)) (key := destinationKey s)
    (val := fun x _ => sysQuantize s.params s.cfg (cellAt s.params res x.1 x.2))
    (put := fun m => s.withSp m) (fun x hx m => ?_) s.sp
  unfold resultCell writeResultCell
  rw [if_neg (by rw [State.withSp_out, ht]; exact Bool.false_ne_true)]
  exact State.writeSp_done (s := s.withSp m) (hr x hx) _ _

/-- Writes of results into accumulator rows that exist: one list of writes of raw words, added with wrap or
overwriting (R179). -/
theorem result_writes_acc {s : State} {xs : List (Nat × Nat)} (ht : s.out.toAcc = true)
    (hr : ∀ x ∈ xs, s.out.base + x.1 < s.params.accRows) (res : Bank) :
    runAll (resultCell res) xs s = .done (s.withAcc (sparseSetAll 0 (destinationKey s)
      (fun x old => if s.out.accumulate then wrapTo s.params.accBits (old + cellAt s.params res x.1 x.2)
        else cellAt s.params res x.1 x.2) xs s.acc)) := by
  refine runAll_sets (d := (0 : Int)) (key := destinationKey s)
    (val := fun x old => if s.out.accumulate then wrapTo s.params.accBits (old + cellAt s.params res x.1 x.2)
        else cellAt s.params res x.1 x.2)
    (put := fun m => s.withAcc m) (fun x hx m => ?_) s.acc
  unfold resultCell writeResultCell
  rw [if_pos (by rw [State.withAcc_out, ht])]
  exact State.writeAcc_done (s := s.withAcc m) (hr x hx) _ _ _

/-- A write of a result into a row that does not exist (R66, R179). -/
theorem resultCell_out {s : State} {x : Nat × Nat} (hr : extentOf s.params s.out.toAcc ≤ s.out.base + x.1)
    (res : Bank) : resultCell res x s = .stop (Stop.outOfRange (rowError s.out.toAcc)) s := by
  unfold resultCell writeResultCell
  cases ht : s.out.toAcc <;> rw [ht] at hr
  · rw [if_neg Bool.false_ne_true, State.writeSp, if_pos hr]; rfl
  · rw [if_pos rfl, State.writeAcc, if_pos hr]; rfl

/-- The result write into the scratchpad (R179). -/
theorem writeResult_sp {s : State} (h : s.out.isNull = false) (ht : s.out.toAcc = false)
    (hr : ∀ x ∈ pairsOf s.out.rows.toNat s.out.cols.toNat, s.out.base + x.1 < s.params.spRows) (res : Bank) :
    writeResult res s = .done (s.withSp (sparseSetAll 0 (destinationKey s)
      (fun x _ => sysQuantize s.params s.cfg (cellAt s.params res x.1 x.2))
      (pairsOf s.out.rows.toNat s.out.cols.toNat) s.sp)) :=
  (writeResult_loop h res).trans (result_writes_sp ht hr res)

/-- The result write into the accumulator (R179). -/
theorem writeResult_acc {s : State} (h : s.out.isNull = false) (ht : s.out.toAcc = true)
    (hr : ∀ x ∈ pairsOf s.out.rows.toNat s.out.cols.toNat, s.out.base + x.1 < s.params.accRows) (res : Bank) :
    writeResult res s = .done (s.withAcc (sparseSetAll 0 (destinationKey s)
      (fun x old => if s.out.accumulate then wrapTo s.params.accBits (old + cellAt s.params res x.1 x.2)
        else cellAt s.params res x.1 x.2)
      (pairsOf s.out.rows.toNat s.out.cols.toNat) s.acc)) :=
  (writeResult_loop h res).trans (result_writes_acc ht hr res)

/-- A list of writes to distinct destination cells. -/
theorem cellAt_destinationAll {s : State} {val : Nat × Nat → Int → Int} {xs : List (Nat × Nat)} (hxs : xs.Nodup)
    (hin : ∀ x ∈ xs, x.2 < s.params.dim) {i j : Nat} (hx : (i, j) ∈ xs) (b : Bank) :
    cellAt s.params (sparseSetAll 0 (destinationKey s) val xs b) (s.out.base + i) j =
      val (i, j) (cellAt s.params b (s.out.base + i) j) := by
  refine sparseGet_setAll (0 : Int) (x := (i, j)) (hxs.map_on fun x hx y hy h => ?_) hx b
  obtain ⟨h1, h2⟩ := cellKey_inj (hin x hx) (hin y hy) h
  exact Prod.ext (by omega) h2

theorem cellAt_destinationAll_other {s : State} {val : Nat × Nat → Int → Int} {xs : List (Nat × Nat)}
    (hin : ∀ x ∈ xs, x.2 < s.params.dim) {row col : Nat} (hcol : col < s.params.dim)
    (ho : ∀ x ∈ xs, ¬ (row = s.out.base + x.1 ∧ col = x.2)) (b : Bank) :
    cellAt s.params (sparseSetAll 0 (destinationKey s) val xs b) row col = cellAt s.params b row col := by
  refine sparseGet_setAll_other (0 : Int) (fun x hx e => ?_) b
  obtain ⟨h1, h2⟩ := cellKey_inj (hin x hx) hcol e
  exact ho x hx ⟨h1.symm, h2.symm⟩

/-! ## The operand checks -/

/-- With acceptable operands a compute is its body. -/
theorem compute_accepted {s : State} {a b : AddrOperand} (ha : a.arrayOperand s.params = true)
    (hb : b.arrayOperand s.params = true) (p : Bool) : compute a b p s = computeBody a b p s := by
  rw [compute_eq, (AddrOperand.arrayOperand_cases ha).1, (AddrOperand.arrayOperand_cases hb).1,
    (AddrOperand.arrayOperand_cases ha).2.1, (AddrOperand.arrayOperand_cases hb).2.1]
  rfl

end Sys2Proof.Machine
end

