-- ==== Sys2Proof/Laws/DataMover.lean ====
section
/-!
SUPPORT. Laws/DataMover.lean: the loops of the data mover as lists of writes: where every access is in range and
admitted, a move-in is one list of cell writes, and a move-out one list of byte writes.
-/

namespace Sys2Proof.Machine

theorem Params.legal_dim {p : Params} (h : p.legal = true) : 0 < p.dim := by
  simp only [Params.legal, Bool.and_eq_true, decide_eq_true_eq] at h
  omega

theorem Params.legal_bits {p : Params} (h : p.legal = true) :
    8 ≤ p.elemBits ∧ p.elemBits = 8 * p.elemBytes ∧ p.accBits = 8 * p.accBytes ∧ p.elemBits < p.accBits := by
  simp only [Params.legal, Bool.and_eq_true, decide_eq_true_eq] at h
  unfold Params.elemBytes Params.accBytes
  omega

theorem transferCol_lt {p : Params} (hp : 0 < p.dim) (c : Nat) : transferCol p c < p.dim := Nat.mod_lt _ hp

/-- Two elements of a transfer of at most DIM rows lie in one cell only if they are one element. -/
theorem transferCell_inj {p : Params} (d : AddrOperand) {r c r' c' : Nat} (hr : r < p.dim) (hr' : r' < p.dim)
    (h1 : transferRow p d r c = transferRow p d r' c') (h2 : transferCol p c = transferCol p c') :
    r = r' ∧ c = c' := by
  unfold transferRow at h1
  unfold transferCol at h2
  have h3 : c / p.dim * p.dim + r = c' / p.dim * p.dim + r' := by omega
  obtain ⟨h4, h5⟩ := cellKey_inj hr hr' h3
  refine ⟨h5, ?_⟩
  rw [← Nat.div_add_mod c p.dim, ← Nat.div_add_mod c' p.dim, h4, h2]

/-- The key of the cell of element x = (r, c) of a transfer. -/
def transferKey (p : Params) (d : AddrOperand) (x : Nat × Nat) : Nat :=
  transferRow p d x.1 x.2 * p.dim + transferCol p x.2

theorem transferKey_nodup {p : Params} (hp : 0 < p.dim) (d : AddrOperand) (hd : d.nrows ≤ p.dim)
    {xs : List (Nat × Nat)} (hxs : xs.Nodup) (hin : ∀ x ∈ xs, x.1 < d.nrows) :
    (xs.map (transferKey p d)).Nodup := by
  refine hxs.map_on ?_
  intro x hx y hy h
  obtain ⟨h1, h2⟩ := cellKey_inj (transferCol_lt hp _) (transferCol_lt hp _) h
  obtain ⟨h3, h4⟩ := transferCell_inj d (Nat.lt_of_lt_of_le (hin x hx) hd) (Nat.lt_of_lt_of_le (hin y hy) hd) h1 h2
  exact Prod.ext h3 h4

/-- After a list of writes to the cells of a transfer, the cell of an element holds what the element writes there. -/
theorem cellAt_transferAll {p : Params} (hp : 0 < p.dim) {d : AddrOperand} (hd : d.nrows ≤ p.dim)
    {val : Nat × Nat → Int → Int} {xs : List (Nat × Nat)} (hxs : xs.Nodup) (hin : ∀ x ∈ xs, x.1 < d.nrows) {r c : Nat}
    (hx : (r, c) ∈ xs) (b : Bank) :
    cellAt p (sparseSetAll 0 (transferKey p d) val xs b) (transferRow p d r c) (transferCol p c) =
      val (r, c) (cellAt p b (transferRow p d r c) (transferCol p c)) :=
  sparseGet_setAll (0 : Int) (transferKey_nodup hp d hd hxs hin) hx b

/-- A cell that is no element's keeps its value. -/
theorem cellAt_transferAll_other {p : Params} (hp : 0 < p.dim) {d : AddrOperand}
    {val : Nat × Nat → Int → Int} {xs : List (Nat × Nat)} {row col : Nat} (hcol : col < p.dim)
    (ho : ∀ x ∈ xs, ¬ isTarget p d x.1 x.2 row col) (b : Bank) :
    cellAt p (sparseSetAll 0 (transferKey p d) val xs b) row col = cellAt p b row col := by
  refine sparseGet_setAll_other (0 : Int) (fun x hx e => ?_) b
  obtain ⟨h1, h2⟩ := cellKey_inj (transferCol_lt hp _) hcol e
  exact ho x hx ⟨h1.symm, h2.symm⟩

/-- The source value, where no access to DRAM is refused (R140, R141). -/
theorem moveInRaw_ok {s : State} {l : LoadState} {addr : Word} {d : AddrOperand} {r c v : Nat}
    (h : addr ≠ 0 → s.memRead (moveInAddress s.params l addr d r c) (moveInBytes s.params l d) = .ok v) :
    moveInRaw s l addr d r c =
      .ok (if addr = 0 then 0 else sextFrom (8 * moveInBytes s.params l d) v) := by
  unfold moveInRaw
  by_cases ha : addr = 0
  · rw [if_pos ha, if_pos ha]
  · rw [if_neg ha, if_neg ha, h ha]

/-- A read of DRAM does not look at the scratchpad. -/
theorem State.memRead_withSp (s : State) (b : Bank) (a : Word) (n : Nat) : (s.withSp b).memRead a n = s.memRead a n := rfl

/-- Nor at the accumulator. -/
theorem State.memRead_withAcc (s : State) (b : Bank) (a : Word) (n : Nat) :
    (s.withAcc b).memRead a n = s.memRead a n := rfl

/-- Loops of `MoveIn` into the scratchpad, every row in range and every source value read: one list of writes. -/
theorem moveIn_sp_writes {s : State} {k : Fin 3} {addr : Word} {d : AddrOperand} {xs : List (Nat × Nat)}
    {raw : Nat × Nat → Int} (hd : d.isAcc = false)
    (hrow : ∀ x ∈ xs, transferRow s.params d x.1 x.2 < s.params.spRows)
    (hraw : ∀ x ∈ xs, moveInRaw s (s.cfg.load k) addr d x.1 x.2 = .ok (raw x)) :
    runAll (fun x => moveInCell k addr d x.1 x.2) xs s =
      .done (s.withSp (sparseSetAll 0 (transferKey s.params d)
        (fun x _ => scaleSat s.params.elemBits (raw x) (s.cfg.load k).scale) xs s.sp)) := by
  refine runAll_sets (d := (0 : Int)) (key := transferKey s.params d)
    (val := fun x _ => scaleSat s.params.elemBits (raw x) (s.cfg.load k).scale)
    (put := fun m => s.withSp m) (fun x hx m => ?_) s.sp
  have h1 : ¬ extentOf s.params false ≤ transferRow s.params d x.1 x.2 := Nat.not_le.mpr (hrow x hx)
  have h2 : moveInRaw (s.withSp m) (s.cfg.load k) addr d x.1 x.2 = .ok (raw x) := (hraw x hx : _)
  simp only [moveInCell, State.withSp_params, State.withSp_cfg, if_neg h1, h2, hd, Bool.false_eq_true, if_false]
  rw [State.writeSp_done (s := s.withSp m) (hrow x hx)]
  rfl

/-- Loops of `MoveIn` into the accumulator, every row in range and every source value read: one list of writes. -/
theorem moveIn_acc_writes {s : State} {k : Fin 3} {addr : Word} {d : AddrOperand} {xs : List (Nat × Nat)}
    {raw : Nat × Nat → Int} (hd : d.isAcc = true)
    (hrow : ∀ x ∈ xs, transferRow s.params d x.1 x.2 < s.params.accRows)
    (hraw : ∀ x ∈ xs, moveInRaw s (s.cfg.load k) addr d x.1 x.2 = .ok (raw x)) :
    runAll (fun x => moveInCell k addr d x.1 x.2) xs s =
      .done (s.withAcc (sparseSetAll 0 (transferKey s.params d)
        (fun x old => if d.accumulate then
            wrapTo s.params.accBits (old + scaleSat s.params.accBits (raw x) (s.cfg.load k).scale)
          else scaleSat s.params.accBits (raw x) (s.cfg.load k).scale) xs s.acc)) := by
  refine runAll_sets (d := (0 : Int)) (key := transferKey s.params d)
    (val := fun x old => if d.accumulate then
        wrapTo s.params.accBits (old + scaleSat s.params.accBits (raw x) (s.cfg.load k).scale)
      else scaleSat s.params.accBits (raw x) (s.cfg.load k).scale)
    (put := fun m => s.withAcc m) (fun x hx m => ?_) s.acc
  have h1 : ¬ extentOf s.params true ≤ transferRow s.params d x.1 x.2 := Nat.not_le.mpr (hrow x hx)
  have h2 : moveInRaw (s.withAcc m) (s.cfg.load k) addr d x.1 x.2 = .ok (raw x) := (hraw x hx : _)
  simp only [moveInCell, State.withAcc_params, State.withAcc_cfg, if_neg h1, h2, hd, if_true]
  rw [State.writeAcc_done (s := s.withAcc m) (hrow x hx)]
  rfl

/-! ## Lists of byte writes -/

/-- One DRAM write of a move-out: address, number of bytes, pattern. -/
structure ByteRun where
  addr : Word
  bytes : Nat
  pattern : Nat

/-- The single byte writes of a list of DRAM writes: (address, byte), in the order they are performed. -/
def byteWrites (runs : List ByteRun) : List (Nat × Byte) :=
  runs.flatMap fun w => (List.range w.bytes).map fun b => (byteAddress w.addr b, BitVec.ofNat 8 (w.pattern / 2 ^ (8 * b)))

/-- DRAM after a list of byte writes. -/
def writeBytes (xs : List (Nat × Byte)) (m : Memory) : Memory :=
  sparseSetAll Config.unwrittenByte (fun x => x.1) (fun x _ => x.2) xs m

theorem writeBytes_append (xs ys : List (Nat × Byte)) (m : Memory) :
    writeBytes (xs ++ ys) m = writeBytes ys (writeBytes xs m) := by
  simp [writeBytes, sparseSetAll, List.foldl_append]

/-- A byte that no write of the list reaches is as before. -/
theorem writeBytes_other {xs : List (Nat × Byte)} {a : Nat} (h : ∀ x ∈ xs, x.1 ≠ a) (m : Memory) :
    sparseGet Config.unwrittenByte (writeBytes xs m) a = sparseGet Config.unwrittenByte m a :=
  sparseGet_setAll_other _ h m

/-- The last write of a list to an address decides its byte (R76). -/
theorem writeBytes_last {before after : List (Nat × Byte)} {x : Nat × Byte} (h : ∀ y ∈ after, y.1 ≠ x.1) (m : Memory) :
    sparseGet Config.unwrittenByte (writeBytes (before ++ x :: after) m) x.1 = x.2 := by
  obtain ⟨old, e⟩ := sparseGet_setAll_last (val := fun (x : Nat × Byte) (_ : Byte) => x.2) Config.unwrittenByte h m
  exact e

/-- The byte writes of a list of DRAM writes, each named by its item and its byte index. -/
def byteItems {ι : Type} (run : ι → ByteRun) (xs : List ι) : List (ι × Nat) :=
  xs.flatMap fun x => (List.range (run x).bytes).map fun b => (x, b)

@[simp] theorem mem_byteItems {ι : Type} {run : ι → ByteRun} {xs : List ι} {y : ι × Nat} :
    y ∈ byteItems run xs ↔ y.1 ∈ xs ∧ y.2 < (run y.1).bytes := by
  obtain ⟨x, b⟩ := y
  simp only [byteItems, List.mem_flatMap, List.mem_map, List.mem_range, Prod.mk.injEq]
  constructor
  · rintro ⟨z, hz, c, hc, rfl, rfl⟩; exact ⟨hz, hc⟩
  · rintro ⟨hx, hb⟩; exact ⟨x, hx, b, hb, rfl, rfl⟩

/-- The items of a list in order are in order, and within an item its bytes are. -/
theorem byteItems_pairwise {ι : Type} {run : ι → ByteRun} {before : ι → ι → Prop} {xs : List ι}
    (h : xs.Pairwise before) :
    (byteItems run xs).Pairwise fun x y => before x.1 y.1 ∨ (x.1 = y.1 ∧ x.2 < y.2) := by
  unfold byteItems
  rw [List.pairwise_flatMap]
  refine ⟨fun x _ => ?_, h.imp fun {x y} hxy u hu v hv => ?_⟩
  · exact List.pairwise_map.mpr (List.pairwise_lt_range.imp fun hb => .inr ⟨rfl, hb⟩)
  · simp only [List.mem_map] at hu hv
    obtain ⟨_, _, rfl⟩ := hu
    obtain ⟨_, _, rfl⟩ := hv
    exact .inl hxy

theorem writeBytes_items {ι : Type} (run : ι → ByteRun) (xs : List ι) (m : Memory) :
    writeBytes (byteWrites (xs.map run)) m =
      sparseSetAll Config.unwrittenByte (fun y : ι × Nat => byteAddress (run y.1).addr y.2)
        (fun y _ => BitVec.ofNat 8 ((run y.1).pattern / 2 ^ (8 * y.2))) (byteItems run xs) m := by
  have : byteWrites (xs.map run) = (byteItems run xs).map fun y : ι × Nat =>
      (byteAddress (run y.1).addr y.2, BitVec.ofNat 8 ((run y.1).pattern / 2 ^ (8 * y.2))) := by
    simp [byteWrites, byteItems, List.flatMap_map, List.map_flatMap, Function.comp_def]
  rw [this]
  simp [writeBytes, sparseSetAll, List.foldl_map]

/-- A byte of a list of DRAM writes that no later byte of the list falls on holds its part of the pattern (R76). -/
theorem writeBytes_unhidden {ι : Type} {run : ι → ByteRun} {before : ι → ι → Prop} {xs : List ι}
    (ho : xs.Pairwise before) {x : ι} {b : Nat} (hx : x ∈ xs) (hb : b < (run x).bytes)
    (hl : ∀ y ∈ xs, ∀ b' < (run y).bytes, before x y ∨ (x = y ∧ b < b') →
      byteAddress (run y).addr b' ≠ byteAddress (run x).addr b) (m : Memory) :
    sparseGet Config.unwrittenByte (writeBytes (byteWrites (xs.map run)) m) (byteAddress (run x).addr b) =
      BitVec.ofNat 8 ((run x).pattern / 2 ^ (8 * b)) := by
  rw [writeBytes_items]
  obtain ⟨old, e⟩ := sparseGet_setAll_unhidden (x := (x, b))
    (key := fun y : ι × Nat => byteAddress (run y.1).addr y.2)
    (val := fun (y : ι × Nat) (_ : Byte) => BitVec.ofNat 8 ((run y.1).pattern / 2 ^ (8 * y.2)))
    Config.unwrittenByte (byteItems_pairwise (run := run) ho) (mem_byteItems.mpr ⟨hx, hb⟩)
    (fun y hy h => hl y.1 (mem_byteItems.mp hy).1 y.2 (mem_byteItems.mp hy).2 h) m
  exact e

/-- A byte that no DRAM write of the list reaches is as before. -/
theorem writeBytes_untouched {ι : Type} {run : ι → ByteRun} {xs : List ι} {a : Nat}
    (h : ∀ x ∈ xs, ∀ b < (run x).bytes, a ≠ byteAddress (run x).addr b) (m : Memory) :
    sparseGet Config.unwrittenByte (writeBytes (byteWrites (xs.map run)) m) a =
      sparseGet Config.unwrittenByte m a := by
  rw [writeBytes_items]
  exact sparseGet_setAll_other _ (fun y hy e =>
    h y.1 (mem_byteItems.mp hy).1 y.2 (mem_byteItems.mp hy).2 e.symm) m

/-- The index pairs of a nest of two loops are in the order they run. -/
theorem pairsOf_pairwise (n m : Nat) : (pairsOf n m).Pairwise fun x y => runsBefore x.1 x.2 y.1 y.2 := by
  unfold pairsOf
  rw [List.pairwise_flatMap]
  refine ⟨fun r _ => ?_, List.pairwise_lt_range.imp fun {r r'} h x hx y hy => ?_⟩
  · exact List.pairwise_map.mpr (List.pairwise_lt_range.imp fun hb => .inr ⟨rfl, hb⟩)
  · simp only [List.mem_map] at hx hy
    obtain ⟨_, _, rfl⟩ := hx
    obtain ⟨_, _, rfl⟩ := hy
    exact .inl h

/-- Wherever the index pairs are split, the pairs before are the ones that run before the one at the split. -/
theorem pairsOf_before {n m r c : Nat} {before after : List (Nat × Nat)} (e : pairsOf n m = before ++ (r, c) :: after)
    (x : Nat × Nat) : x ∈ before ↔ x.1 < n ∧ x.2 < m ∧ runsBefore x.1 x.2 r c := by
  have pw := pairsOf_pairwise n m
  rw [e, List.pairwise_append] at pw
  refine ⟨fun h => ?_, fun ⟨h1, h2, h3⟩ => ?_⟩
  · have hx := mem_pairsOf.mp (e ▸ List.mem_append_left _ h : x ∈ pairsOf n m)
    exact ⟨hx.1, hx.2, pw.2.2 x h (r, c) (by simp)⟩
  · have hx : x ∈ pairsOf n m := mem_pairsOf.mpr ⟨h1, h2⟩
    rw [e, List.mem_append, List.mem_cons] at hx
    unfold runsBefore at *
    rcases hx with hx | rfl | hx
    · exact hx
    · simp at h3
    · have := (List.pairwise_cons.mp pw.2.1).1 x hx
      simp at this
      omega

/-- The index pairs can be split at each of them. -/
theorem pairsOf_split {n m r c : Nat} (hr : r < n) (hc : c < m) :
    ∃ before after, pairsOf n m = before ++ (r, c) :: after ∧
      ∀ x, x ∈ before ↔ x.1 < n ∧ x.2 < m ∧ runsBefore x.1 x.2 r c := by
  obtain ⟨before, after, e⟩ := List.append_of_mem ((mem_pairsOf (x := (r, c))).mpr ⟨hr, hc⟩)
  exact ⟨before, after, e, pairsOf_before e⟩

/-- Loops whose iterations are each one admitted DRAM write: one list of byte writes. -/
theorem runAll_memWrites {ι : Type} {s : State} {body : ι → State → Res} {run : ι → ByteRun} {xs : List ι}
    (hb : ∀ x ∈ xs, ∀ m, body x (s.withDram m) = (s.withDram m).memWrite (run x).addr (run x).bytes (run x).pattern)
    (hr : ∀ x ∈ xs, reachable s.params (run x).addr (run x).bytes) (m : Memory) :
    runAll body xs (s.withDram m) = .done (s.withDram (writeBytes (byteWrites (xs.map run)) m)) := by
  induction xs generalizing m with
  | nil => rfl
  | cons x t ih =>
    have hk := State.memWrite_done (s := s.withDram m) (addr := (run x).addr) (n := (run x).bytes)
      (by simpa using hr x List.mem_cons_self) (run x).pattern
    rw [runAll_cons, hb x List.mem_cons_self, hk, Res.andThen_done]
    have e : sparseSetAll Config.unwrittenByte (byteAddress (run x).addr)
        (fun b _ => BitVec.ofNat 8 ((run x).pattern / 2 ^ (8 * b))) (List.range (run x).bytes) (s.withDram m).dram =
        writeBytes ((List.range (run x).bytes).map
          fun b => (byteAddress (run x).addr b, BitVec.ofNat 8 ((run x).pattern / 2 ^ (8 * b)))) m := by
      simp [writeBytes, sparseSetAll, List.foldl_map]
    rw [e]
    have := ih (fun y hy => hb y (List.mem_cons_of_mem _ hy)) (fun y hy => hr y (List.mem_cons_of_mem _ hy))
      (writeBytes ((List.range (run x).bytes).map
          fun b => (byteAddress (run x).addr b, BitVec.ofNat 8 ((run x).pattern / 2 ^ (8 * b)))) m)
    rw [List.map_cons, byteWrites, List.flatMap_cons, writeBytes_append]
    exact this

/-- The DRAM write of element x = (r, c) of a move-out (R145). -/
def moveOutRun (s : State) (addr : Word) (d : AddrOperand) (x : Nat × Nat) : ByteRun :=
  ⟨moveOutAddress s addr d x.1 x.2, moveOutBytes s.params d, moveOutPattern s d (transferCell s d x.1 x.2)⟩

/-- Loops of `MoveOut`, every row in range and every byte admitted: one list of byte writes. -/
theorem moveOut_writes {s : State} {addr : Word} {d : AddrOperand} {xs : List (Nat × Nat)}
    (hrow : ∀ x ∈ xs, transferRow s.params d x.1 x.2 < extentOf s.params d.isAcc)
    (hr : ∀ x ∈ xs, reachable s.params (moveOutAddress s addr d x.1 x.2) (moveOutBytes s.params d)) :
    runAll (fun x => moveOutCell addr d x.1 x.2) xs s =
      .done (s.withDram (writeBytes (byteWrites (xs.map (moveOutRun s addr d))) s.dram)) := by
  refine runAll_memWrites (s := s) (run := moveOutRun s addr d) (fun x hx m => ?_) hr s.dram
  unfold moveOutCell
  rw [State.readCell_ok (by simpa using hrow x hx)]
  rfl

/-! ## The pooling path -/

theorem poolCoordinate_row (g : Pooling) (o w : Nat) : poolCoordinate o g.stride.toNat w g.upad.toNat = windowRow g o w := by
  unfold poolCoordinate windowRow
  push_cast
  rfl

theorem poolCoordinate_col (g : Pooling) (o w : Nat) : poolCoordinate o g.stride.toNat w g.lpad.toNat = windowCol g o w := by
  unfold poolCoordinate windowCol
  push_cast
  rfl

/-- A window position outside the image, or whose row exists, has the value the rule gives it (R146). -/
theorem poolElement_in {s : State} {d : AddrOperand} {orow ocol : Int} (ch : Nat)
    (h : 0 ≤ orow → 0 ≤ ocol → orow < s.cfg.pool.orows.toNat → ocol < s.cfg.pool.ocols.toNat →
      d.base + orow.toNat * s.cfg.pool.ocols.toNat + ocol.toNat < extentOf s.params d.isAcc) :
    poolElement s d ch orow ocol = .ok (windowValue s d ch orow ocol) := by
  unfold poolElement windowValue
  by_cases hi : orow < 0 ∨ ocol < 0 ∨ (s.cfg.pool.orows.toNat : Int) ≤ orow ∨ (s.cfg.pool.ocols.toNat : Int) ≤ ocol
  · simp only [if_pos hi]
    rw [if_neg (by omega)]
  · simp only [if_neg hi]
    rw [if_pos (by omega), State.readCell_ok (h (by omega) (by omega) (by omega) (by omega))]
    cases d.isAcc <;> rfl

/-- A window position inside the image whose row does not exist raises `OutOfRange` (R66, R146). -/
theorem poolElement_out {s : State} {d : AddrOperand} {orow ocol : Int} (ch : Nat)
    (h : ¬ (0 ≤ orow → 0 ≤ ocol → orow < s.cfg.pool.orows.toNat → ocol < s.cfg.pool.ocols.toNat →
      d.base + orow.toNat * s.cfg.pool.ocols.toNat + ocol.toNat < extentOf s.params d.isAcc)) :
    poolElement s d ch orow ocol = .error (Stop.outOfRange (rowError d.isAcc)) := by
  simp only [Classical.not_imp, Nat.not_lt] at h
  obtain ⟨h1, h2, h3, h4, h5⟩ := h
  unfold poolElement
  simp only
  rw [if_neg (by omega)]
  rcases s.readCell_eq d.isAcc (d.base + orow.toNat * s.cfg.pool.ocols.toNat + ocol.toNat) ch with ⟨hin, _⟩ | ⟨_, e⟩
  · exact absurd hin (Nat.not_lt.mpr h5)
  · rw [e]

/-- What a running maximum is: no less than where it starts and than every value, and one of these. -/
theorem foldl_max {ι : Type} (f : ι → Int) (xs : List ι) (a : Int) :
    a ≤ xs.foldl (fun m x => max m (f x)) a ∧ (∀ x ∈ xs, f x ≤ xs.foldl (fun m x => max m (f x)) a) ∧
      (xs.foldl (fun m x => max m (f x)) a = a ∨ ∃ x ∈ xs, f x = xs.foldl (fun m x => max m (f x)) a) := by
  induction xs generalizing a with
  | nil => simp
  | cons x t ih =>
    obtain ⟨h1, h2, h3⟩ := ih (max a (f x))
    rw [List.foldl_cons]
    refine ⟨by omega, fun y hy => ?_, ?_⟩
    · rcases List.mem_cons.mp hy with rfl | hy
      · omega
      · exact h2 y hy
    · rcases h3 with h3 | ⟨y, hy, h3⟩
      · by_cases hx : f x ≤ a
        · exact .inl (by omega)
        · exact .inr ⟨x, List.mem_cons_self, by omega⟩
      · exact .inr ⟨y, List.mem_cons_of_mem _ hy, h3⟩

/-- The maximum over a window all of whose rows exist: no less than ELEM_MIN and than the value of every position, and one
of these (R146). -/
theorem poolMax_in {s : State} {d : AddrOperand} {pr pc : Nat} (h : windowInRange s d pr pc) (ch : Nat) :
    ∃ m, poolMax s d pr pc ch = .ok m ∧ minOf s.params.elemBits ≤ m ∧
      (∀ wr < s.cfg.pool.size.toNat, ∀ wc < s.cfg.pool.size.toNat,
        windowValue s d ch (windowRow s.cfg.pool pr wr) (windowCol s.cfg.pool pc wc) ≤ m) ∧
      (m = minOf s.params.elemBits ∨ ∃ wr < s.cfg.pool.size.toNat, ∃ wc < s.cfg.pool.size.toNat,
        windowValue s d ch (windowRow s.cfg.pool pr wr) (windowCol s.cfg.pool pc wc) = m) := by
  have hm : poolMax s d pr pc ch = .ok ((pairsOf s.cfg.pool.size.toNat s.cfg.pool.size.toNat).foldl
      (fun m x => max m (windowValue s d ch (windowRow s.cfg.pool pr x.1) (windowCol s.cfg.pool pc x.2)))
      (minOf s.params.elemBits)) := by
    unfold poolMax
    rw [foldRange_ok (g := fun m wr => (List.range s.cfg.pool.size.toNat).foldl
      (fun m wc => max m (windowValue s d ch (windowRow s.cfg.pool pr wr) (windowCol s.cfg.pool pc wc))) m)
      (fun wr hwr m => foldRange_ok (fun wc hwc m => by
        rw [poolCoordinate_row, poolCoordinate_col, poolElement_in ch (h wr hwr wc hwc)]) m)]
    simp only [pairsOf, List.foldl_flatMap, List.foldl_map]
  obtain ⟨h1, h2, h3⟩ := foldl_max
    (fun x : Nat × Nat => windowValue s d ch (windowRow s.cfg.pool pr x.1) (windowCol s.cfg.pool pc x.2))
    (pairsOf s.cfg.pool.size.toNat s.cfg.pool.size.toNat) (minOf s.params.elemBits)
  refine ⟨_, hm, h1, fun wr hwr wc hwc => h2 (wr, wc) (mem_pairsOf.mpr ⟨hwr, hwc⟩), h3.imp id ?_⟩
  rintro ⟨x, hx, e⟩
  exact ⟨x.1, (mem_pairsOf.mp hx).1, x.2, (mem_pairsOf.mp hx).2, e⟩

/-- A window that reads a row that does not exist raises `OutOfRange` (R66, R146). -/
theorem poolMax_out {s : State} {d : AddrOperand} {pr pc : Nat} (h : ¬ windowInRange s d pr pc) (ch : Nat) :
    poolMax s d pr pc ch = .error (Stop.outOfRange (rowError d.isAcc)) := by
  have hp : ∀ wr wc m,
      (∃ m', (match poolElement s d ch (windowRow s.cfg.pool pr wr) (windowCol s.cfg.pool pc wc) with
        | .error why => .error why
        | .ok e => .ok (max m e) : Except Stop Int) = .ok m') ∨
      (match poolElement s d ch (windowRow s.cfg.pool pr wr) (windowCol s.cfg.pool pc wc) with
        | .error why => .error why
        | .ok e => .ok (max m e) : Except Stop Int) = .error (Stop.outOfRange (rowError d.isAcc)) := by
    intro wr wc m
    by_cases hin : 0 ≤ windowRow s.cfg.pool pr wr → 0 ≤ windowCol s.cfg.pool pc wc →
        windowRow s.cfg.pool pr wr < s.cfg.pool.orows.toNat → windowCol s.cfg.pool pc wc < s.cfg.pool.ocols.toNat →
        d.base + (windowRow s.cfg.pool pr wr).toNat * s.cfg.pool.ocols.toNat + (windowCol s.cfg.pool pc wc).toNat <
          extentOf s.params d.isAcc
    · exact .inl ⟨_, by rw [poolElement_in ch hin]⟩
    · exact .inr (by rw [poolElement_out ch hin])
  unfold windowInRange at h
  simp only [not_forall] at h
  obtain ⟨wr, hwr, wc, hwc, hout⟩ := h
  unfold poolMax
  simp only [poolCoordinate_row, poolCoordinate_col]
  refine foldRange_error (fun i _ m => foldRange_okOr (fun j _ a => hp i j a) m)
    ⟨wr, hwr, fun m => foldRange_error (fun j _ a => hp wr j a) ⟨wc, hwc, fun a => ?_⟩ m⟩ _
  rw [poolElement_out ch (by simpa only [not_forall] using hout)]

/-- The DRAM write of item x of the pooling path, given the maxima (R146). -/
def pooledRun (s : State) (addr : Word) (m : (Nat × Nat) × Nat → Int) (x : (Nat × Nat) × Nat) : ByteRun :=
  ⟨poolAddress s addr x.1.1 x.1.2 x.2, s.params.elemBytes, bitsOf s.params.elemBits (m x)⟩

/-- Loops of the pooling path, every maximum found and every byte admitted: one list of byte writes. -/
theorem pooled_writes {s : State} {addr : Word} {d : AddrOperand} {xs : List ((Nat × Nat) × Nat)}
    {m : (Nat × Nat) × Nat → Int} (hm : ∀ x ∈ xs, poolMax s d x.1.1 x.1.2 x.2 = .ok (m x))
    (hr : ∀ x ∈ xs, reachable s.params (poolAddress s addr x.1.1 x.1.2 x.2) s.params.elemBytes) :
    runAll (fun x => pooledCell addr d x.1.1 x.1.2 x.2) xs s =
      .done (s.withDram (writeBytes (byteWrites (xs.map (pooledRun s addr m))) s.dram)) := by
  refine runAll_memWrites (s := s) (run := pooledRun s addr m) (fun x hx mem => ?_) hr s.dram
  unfold pooledCell
  have : poolMax (s.withDram mem) d x.1.1 x.1.2 x.2 = .ok (m x) := hm x hx
  rw [this]
  rfl

end Sys2Proof.Machine
end

