-- ==== Sys2Proof/Laws/PerInstr.lean ====
section
/-!
SUPPORT. Laws/PerInstr.lean: the family `MatchesTable`: the command word of an instruction carries the fixed bits of its
row of the opcode table (R91, R95): under the row's mask it is the row's match value.
-/

namespace Sys2Proof.Laws

/-- The mask of funct alone. -/
def functMask : CommandWord := 0x7F00000000000000000000000000000000

/-- The mask of funct and, for funct 0, the selector `rs1[1:0]` (R95). -/
def selectorMask : CommandWord := 0x7F00000000000000030000000000000000

/-- The fixed bits of the instruction's row. -/
def rowMask : Instr → CommandWord
  | .configEx _ => selectorMask
  | .configLd _ => selectorMask
  | .configSt _ => selectorMask
  | .mvin2 _ _ => functMask
  | .mvin _ _ => functMask
  | .mvout _ _ => functMask
  | .computePreloaded _ _ => functMask
  | .computeAccumulated _ _ => functMask
  | .preload _ _ => functMask
  | .flush => functMask
  | .loopWs _ => functMask
  | .loopWsConfigBounds _ => functMask
  | .loopWsConfigAddrsAb _ _ => functMask
  | .loopWsConfigAddrsDc _ _ => functMask
  | .loopWsConfigStridesAb _ _ => functMask
  | .loopWsConfigStridesDc _ _ => functMask
  | .mvin3 _ _ => functMask
  | .fence => functMask

/-- The value of the fixed bits, as the table writes it. -/
def rowMatch : Instr → CommandWord
  | .configEx _ => 0x0000000000000000000000000000000000
  | .configLd _ => 0x0000000000000000010000000000000000
  | .configSt _ => 0x0000000000000000020000000000000000
  | .mvin2 _ _ => 0x0100000000000000000000000000000000
  | .mvin _ _ => 0x0200000000000000000000000000000000
  | .mvout _ _ => 0x0300000000000000000000000000000000
  | .computePreloaded _ _ => 0x0400000000000000000000000000000000
  | .computeAccumulated _ _ => 0x0500000000000000000000000000000000
  | .preload _ _ => 0x0600000000000000000000000000000000
  | .flush => 0x0700000000000000000000000000000000
  | .loopWs _ => 0x0800000000000000000000000000000000
  | .loopWsConfigBounds _ => 0x0900000000000000000000000000000000
  | .loopWsConfigAddrsAb _ _ => 0x0A00000000000000000000000000000000
  | .loopWsConfigAddrsDc _ _ => 0x0B00000000000000000000000000000000
  | .loopWsConfigStridesAb _ _ => 0x0C00000000000000000000000000000000
  | .loopWsConfigStridesDc _ _ => 0x0D00000000000000000000000000000000
  | .mvin3 _ _ => 0x0E00000000000000000000000000000000
  | .fence => 0x7F00000000000000000000000000000000

/-- Under the funct mask a command word is its funct alone. -/
theorem toWord_and_functMask (f : BitVec 7) (a b : Word) :
    (Command.toWord ⟨f, a, b⟩) &&& functMask = (f ++ 0#64 ++ 0#64 : BitVec (7 + 64 + 64)) := by
  have h : functMask = (0x7F#7 ++ 0#64 ++ 0#64 : BitVec (7 + 64 + 64)) := by decide
  rw [h]
  show (f ++ a ++ b : BitVec (7 + 64 + 64)) &&& _ = _
  rw [BitVec.and_append, BitVec.and_append, BitVec.and_zero, BitVec.and_zero]
  congr 2
  exact BitVec.and_allOnes (x := f)

/-- Under the selector mask a command word is its funct and the two low bits of `rs1`. -/
theorem toWord_and_selectorMask (f : BitVec 7) (hi : BitVec 62) (lo : BitVec 2) (b : Word) :
    (Command.toWord ⟨f, (hi ++ lo : BitVec (62 + 2)), b⟩) &&& selectorMask =
      (f ++ (0#62 ++ lo : BitVec (62 + 2)) ++ 0#64 : BitVec (7 + (62 + 2) + 64)) := by
  have h : selectorMask = (0x7F#7 ++ (0#62 ++ 3#2 : BitVec (62 + 2)) ++ 0#64 : BitVec (7 + (62 + 2) + 64)) := by decide
  rw [h]
  show (f ++ (hi ++ lo : BitVec (62 + 2)) ++ b : BitVec (7 + (62 + 2) + 64)) &&& _ = _
  rw [BitVec.and_append, BitVec.and_append, BitVec.and_append, BitVec.and_zero, BitVec.and_zero]
  congr 2
  · exact BitVec.and_allOnes (x := f)
  · congr 1
    exact BitVec.and_allOnes (x := lo)

namespace MatchesTable

/-- The command word of the instruction has the fixed bits of its row. -/
def Statement (i : Instr) : Prop := encodeWord i &&& rowMask i = rowMatch i

theorem configEx (w : ExConfig) : Statement (.configEx w) :=
  (toWord_and_selectorMask 0 _ 0#2 _).trans rfl

theorem configLd (w : LdConfig) : Statement (.configLd w) :=
  (toWord_and_selectorMask 0 _ 1#2 _).trans rfl

theorem configSt (w : StConfig) : Statement (.configSt w) :=
  (toWord_and_selectorMask 0 _ 2#2 _).trans rfl

theorem mvin2 (addr : Word) (d : AddrOperand) : Statement (.mvin2 addr d) :=
  (toWord_and_functMask 1 _ _).trans rfl

theorem mvin (addr : Word) (d : AddrOperand) : Statement (.mvin addr d) :=
  (toWord_and_functMask 2 _ _).trans rfl

theorem mvout (addr : Word) (d : AddrOperand) : Statement (.mvout addr d) :=
  (toWord_and_functMask 3 _ _).trans rfl

theorem computePreloaded (a bd : AddrOperand) : Statement (.computePreloaded a bd) :=
  (toWord_and_functMask 4 _ _).trans rfl

theorem computeAccumulated (a bd : AddrOperand) : Statement (.computeAccumulated a bd) :=
  (toWord_and_functMask 5 _ _).trans rfl

theorem preload (src dst : AddrOperand) : Statement (.preload src dst) :=
  (toWord_and_functMask 6 _ _).trans rfl

theorem flush : Statement (.flush) :=
  (toWord_and_functMask 7 _ _).trans rfl

theorem loopWs (f : LoopFlags) : Statement (.loopWs f) :=
  (toWord_and_functMask 8 _ _).trans rfl

theorem loopWsConfigBounds (b : LoopBounds) : Statement (.loopWsConfigBounds b) :=
  (toWord_and_functMask 9 _ _).trans rfl

theorem loopWsConfigAddrsAb (a b : Word) : Statement (.loopWsConfigAddrsAb a b) :=
  (toWord_and_functMask 10 _ _).trans rfl

theorem loopWsConfigAddrsDc (d c : Word) : Statement (.loopWsConfigAddrsDc d c) :=
  (toWord_and_functMask 11 _ _).trans rfl

theorem loopWsConfigStridesAb (a b : Word) : Statement (.loopWsConfigStridesAb a b) :=
  (toWord_and_functMask 12 _ _).trans rfl

theorem loopWsConfigStridesDc (d c : Word) : Statement (.loopWsConfigStridesDc d c) :=
  (toWord_and_functMask 13 _ _).trans rfl

theorem mvin3 (addr : Word) (d : AddrOperand) : Statement (.mvin3 addr d) :=
  (toWord_and_functMask 14 _ _).trans rfl

theorem fence : Statement (.fence) :=
  (toWord_and_functMask 127 _ _).trans rfl

end MatchesTable
end Sys2Proof.Laws
end

