-- ==== Sys2Proof/Tests/Slice0.lean ====
section
/-!
SUPPORT. Tests/Slice0.lean: named tests and named witnesses. Words and expected values are those of the spec (the examples
of the rules, and the vectors S1 to V82 and programs P1 to P6 of 95_test_vectors.md), or hand calculation where a comment
says so. A witness theorem shows that the hypotheses of a statement, or of one of its clauses, can be met together.
-/

namespace Sys2Proof.Tests

open Sys2Proof Sys2Proof.Machine

/-! ## Well-formed and ill-formed terms -/

/-- The spec's default parameters. -/
abbrev std : Params := Params.standard

theorem test_wf_configEx_accepts : Instr.wellFormed std (.configEx ⟨.os, 2, true, true, 1, 31, 31, 31⟩) = true := by decide
theorem test_wf_configEx_activation : Instr.wellFormed std (.configEx ⟨.os, 3, false, false, 1, 0, 0, 0⟩) = false := by decide
theorem test_wf_configEx_accShift : Instr.wellFormed std (.configEx ⟨.os, 0, false, false, 1, 32, 0, 0⟩) = false := by decide
theorem test_wf_configEx_sysShift : Instr.wellFormed std (.configEx ⟨.os, 0, false, false, 1, 0, 32, 0⟩) = false := by decide
theorem test_wf_configEx_relu6Shift :
    Instr.wellFormed std (.configEx ⟨.os, 0, false, false, 1, 0, 0, 0xFFFFFFFF⟩) = false := by decide
theorem test_wf_configEx_osTranspose :
    Instr.wellFormed std (.configEx ⟨.os, 0, false, true, 1, 0, 0, 0⟩) = false := by decide
theorem test_wf_configEx_wsTranspose :
    Instr.wellFormed std (.configEx ⟨.ws, 0, true, true, 1, 0, 0, 0⟩) = false := by decide
theorem test_wf_configLd_accepts : Instr.wellFormed std (.configLd ⟨true, 2, 0x7F7FFFFF, 16⟩) = true := by decide
theorem test_wf_configLd_stateId : Instr.wellFormed std (.configLd ⟨false, 3, 0x3F800000, 16⟩) = false := by decide
theorem test_wf_configLd_scale : Instr.wellFormed std (.configLd ⟨false, 1, 0xFFC00000, 16⟩) = false := by decide
theorem test_wf_configSt_accepts :
    Instr.wellFormed std (.configSt ⟨0, ⟨0, 0, 3, 3, 255, 255, 255, 255, 255⟩, 0xFFFFFFFF, 0x3F800000⟩) = true := by decide
theorem test_wf_configSt_activation :
    Instr.wellFormed std (.configSt ⟨3, poolingReset, 16, 0x3F800000⟩) = false := by decide
theorem test_wf_configSt_scale :
    Instr.wellFormed std (.configSt ⟨0, poolingReset, 16, 0x7F800000⟩) = false := by decide
theorem test_wf_configSt_window :
    Instr.wellFormed std (.configSt ⟨0, ⟨1, 0, 0, 0, 1, 1, 1, 1, 1⟩, 16, 0x3F800000⟩) = false := by decide
theorem test_wf_mvin_accepts : Instr.wellFormed std (.mvin 0 (.spad 0 16 65535)) = true := by decide
theorem test_wf_mvin_null : Instr.wellFormed std (.mvin 0x1000 (.nulla 1 1)) = false := by decide
theorem test_wf_mvin2_rows : Instr.wellFormed std (.mvin2 0x1000 (.spad 0 17 1)) = false := by decide
theorem test_wf_mvin3_rows : Instr.wellFormed std (.mvin3 0x1000 (.accw 0 17 1)) = false := by decide
theorem test_wf_mvout_address : Instr.wellFormed std (.mvout 0 (.spad 0 1 1)) = false := by decide
theorem test_wf_mvout_null : Instr.wellFormed std (.mvout 0x4000 (.nulla 1 1)) = false := by decide
theorem test_wf_compute_accepts :
    Instr.wellFormed std (.computePreloaded (.nulla 65535 65535) (.spad 0 16 16)) = true := by decide
theorem test_wf_compute_accumulator :
    Instr.wellFormed std (.computePreloaded (.accw 0 16 16) (.spad 0 16 16)) = false := by decide
theorem test_wf_compute_columns :
    Instr.wellFormed std (.computeAccumulated (.spad 0 16 16) (.spad 0 16 17)) = false := by decide
theorem test_wf_preload_accumulator :
    Instr.wellFormed std (.preload (.accw 0 16 16) (.spad 0 16 16)) = false := by decide
theorem test_wf_preload_source : Instr.wellFormed std (.preload (.spad 0 17 16) (.spad 0 16 16)) = false := by decide
theorem test_wf_preload_destination : Instr.wellFormed std (.preload (.nulla 16 16) (.accw 0 16 17)) = false := by decide
theorem test_wf_bounds : Instr.wellFormed std (.loopWsConfigBounds ⟨17, 0, 0, 1, 1, 1⟩) = false := by decide

/-! ## Decoding: a word written out from the spec's encoding, for every constructor -/

/-- V60, command 2: every reserved bit of `rs1` set. -/
theorem test_decode_configEx : decode ⟨0, 0x0000001FFFFFFCF4, 0x0000001F0000001F⟩ =
    .ok (.configEx ⟨.ws, 2, false, false, 65535, 31, 31, 31⟩) := by decide

/-- V60, command 1. -/
theorem test_decode_configEx_fields : decode ⟨0, 0x000000070003020C, 0x0000000200000005⟩ =
    .ok (.configEx ⟨.ws, 1, false, true, 3, 7, 5, 2⟩) := by decide

/-- V62, command 2. -/
theorem test_decode_configLd : decode ⟨0, 0xC000000000000015, 0xFFFFFFFFFFFFFFF0⟩ =
    .ok (.configLd ⟨true, 2, 0xC0000000, 0xFFFFFFFFFFFFFFF0⟩) := by decide

/-- V1, `ST1(1, 1, 3, 1, 1, 3, 3, 3, 3, 3)` and `ST2(64, F32(0.5))`; the fields of `rs1` in distinct values below. -/
theorem test_decode_configSt : decode ⟨0, 0x03030303030005D6, 0x3F00000000000040⟩ =
    .ok (.configSt ⟨1, ⟨1, 3, 1, 1, 3, 3, 3, 3, 3⟩, 64, 0x3F000000⟩) := by decide

/-- R225 by hand: out_dim in 31:24, porows 39:32, pocols 47:40, orows 55:48, ocols 63:56, lpad 11:10, upad 9:8. -/
theorem test_decode_configSt_fields : decode ⟨0, 0x0504030201000B12, 0⟩ =
    .ok (.configSt ⟨0, ⟨1, 0, 3, 2, 1, 2, 3, 4, 5⟩, 0, 0⟩) := by decide

/-- V22, command 2. -/
theorem test_decode_mvin2 : decode ⟨1, 0x2000, 0x0001000800000008⟩ = .ok (.mvin2 0x2000 (.spad 8 1 8)) := by decide

/-- V20, command 2. -/
theorem test_decode_mvin : decode ⟨2, 0x1000, 0x0003000500000064⟩ = .ok (.mvin 0x1000 (.spad 100 3 5)) := by decide

/-- V32, command 3. -/
theorem test_decode_mvout : decode ⟨3, 0x7100, 0x00020003A0000002⟩ = .ok (.mvout 0x7100 (.accf 2 2 3)) := by decide

/-- S5, output-stationary, command 3. -/
theorem test_decode_computePreloaded : decode ⟨4, 0x0002000300000000, 0x0003000200000010⟩ =
    .ok (.computePreloaded (.spad 0 2 3) (.spad 16 3 2)) := by decide

/-- V53, command 5. -/
theorem test_decode_computeAccumulated : decode ⟨5, 0x0002000200000020, 0x00020002FFFFFFFF⟩ =
    .ok (.computeAccumulated (.spad 32 2 2) (.nulla 2 2)) := by decide

/-- V50, command 1. -/
theorem test_decode_preload : decode ⟨6, 0x0003000200000010, 0x00020002C0000020⟩ =
    .ok (.preload (.spad 16 3 2) (.acca 32 2 2)) := by decide

/-- V80, command 2: operands ignored. -/
theorem test_decode_flush : decode ⟨7, 1, 0xFFFFFFFFFFFFFFFF⟩ = .ok .flush := by decide

/-- V1, `LWF(1, 1, 0)` and `LWF(0, 0, 1)`. -/
theorem test_decode_loopWs : decode ⟨8, 3, 0⟩ = .ok (.loopWs ⟨true, true, false⟩) ∧
    decode ⟨8, 4, 0⟩ = .ok (.loopWs ⟨false, false, true⟩) := by decide

/-- V70, command 6: bits 63:48 ignored. -/
theorem test_decode_bounds : decode ⟨9, 0xFFFF000100020003, 0xABCD000400050006⟩ =
    .ok (.loopWsConfigBounds ⟨3, 2, 1, 6, 5, 4⟩) := by decide

/-- V70, commands 2 to 5. -/
theorem test_decode_addrsAb : decode ⟨10, 0x10000, 0x20000⟩ = .ok (.loopWsConfigAddrsAb 0x10000 0x20000) := by decide
theorem test_decode_addrsDc : decode ⟨11, 0, 0x30000⟩ = .ok (.loopWsConfigAddrsDc 0 0x30000) := by decide
theorem test_decode_stridesAb : decode ⟨12, 24, 20⟩ = .ok (.loopWsConfigStridesAb 24 20) := by decide
theorem test_decode_stridesDc : decode ⟨13, 20, 20⟩ = .ok (.loopWsConfigStridesDc 20 20) := by decide

/-- V24, command 2. -/
theorem test_decode_mvin3 : decode ⟨14, 0x3000, 0x00010004C0000004⟩ = .ok (.mvin3 0x3000 (.acca 4 1 4)) := by decide

/-- V80, command 4. -/
theorem test_decode_fence : decode ⟨127, 0x1234, 0x5678⟩ = .ok .fence := by decide

/-- V81 and V64: what selects no command. -/
theorem test_decode_rejects : decode ⟨15, 0, 0⟩ = .error .unknownFunct ∧ decode ⟨126, 0, 0⟩ = .error .unknownFunct ∧
    decode ⟨0, 3, 0⟩ = .error .reservedSubcommand := by decide

/-- The opcode table's match value of `MVIN`, whole and with bit 135 set. -/
theorem test_decodeTableWord : decodeTableWord 136 0x0200000000000000000000000000000000 = some (.mvin 0 (.spad 0 0 0)) ∧
    decodeTableWord 136 0x8200000000000000000000000000000000 = some (.mvin 0 (.spad 0 0 0)) ∧
    decodeTableWord 136 0x0F00000000000000000000000000000000 = none := by decide

/-- V1: the encoder on the spec's constructors. -/
theorem test_encode_operands : AddrOperand.encode (.spad 8176 16 16) = 0x0010001000001FF0 ∧
    AddrOperand.encode (.acca 4 1 2) = 0x00010002C0000004 ∧ AddrOperand.encode (.accf 16 2 3) = 0x00020003A0000010 ∧
    AddrOperand.encode (.nulla 16 16) = 0x00100010FFFFFFFF := by decide

/-- V1: `EX1(0, 1, 1, 0, 2, 3)`, `LD1(2, 1, F32(1.0))`, `ST1(0, 2, 2, 0, 0, 2, 2, 2, 4, 4)`, `BOUNDS(8, 12, 8)`. -/
theorem test_encode_configs : (ExConfig.rs1 ⟨.os, 1, true, false, 2, 3, 0, 0⟩) = 0x0000000300020108 ∧
    (LdConfig.rs1 ⟨true, 2, 0x3F800000, 0⟩) = 0x3F80000000000015 ∧
    (StConfig.rs1 ⟨0, ⟨2, 2, 0, 0, 2, 2, 2, 4, 4⟩, 16, 0⟩) = 0x04040202020000A2 ∧
    (LoopBounds.rs1 ⟨8, 12, 8, 0, 0, 0⟩) = 0x00000008000C0008 := by decide

/-! ## Steps -/

/-- What a function sees in the next state of an instruction, none where there is none. -/
def view {α : Type} (i : Instr) (s : State) (f : State → α) : Option α :=
  match exec i s with
  | .next t => some (f t)
  | _ => none

/-- The same after one step of the machine. -/
def viewStep {α : Type} (s : State) (f : State → α) : Option α :=
  match step s with
  | .next t => some (f t)
  | _ => none

/-- Consecutive DRAM bytes. -/
def bytesFrom (s : State) (addr n : Nat) : List Nat := (List.range n).map fun b => (s.byteAt (addr + b)).toNat

/-- Consecutive cells of a scratchpad row. -/
def spRow (s : State) (r n : Nat) : List Int := (List.range n).map fun c => s.spAt r c

/-- Consecutive cells of an accumulator row. -/
def accRow (s : State) (r n : Nat) : List Int := (List.range n).map fun c => s.accAt r c

/-- Consecutive cells of a row of `PE`. -/
def peRow (s : State) (i n : Nat) : List Int := (List.range n).map fun j => s.peAt i j

/-- The report of a ConfigurationViolation. -/
abbrev violation (reason : ConfigReason) : Option Error := some (.fatal (.configurationViolation reason))

/-- The parameters of the compute tests: DIM 4, the other values as in R7. -/
def small : Params := { Params.standard with dim := 4 }

/-- The parameters of the witnesses: DIM 2, 8-bit elements, 16-bit words, 32 scratchpad rows, 16 accumulator rows. -/
def tiny : Params := ⟨2, 8, 16, 2, 16, 16, []⟩

/-- V60, command 1. -/
theorem test_configEx : view (.configEx ⟨.ws, 1, false, true, 3, 7, 5, 2⟩) State.reset (fun t => (t.report, t.cfg)) =
    some (none, { State.reset.cfg with
      dataflow := .ws, sysAct := .relu, bTranspose := true, aStride := 3, accShift := 7, sysShift := 5,
      relu6Shift := 2 }) := by decide

/-- V61: the shift range is tested before the transposes. -/
theorem test_configEx_order : view (.configEx ⟨.os, 0, false, true, 1, 32, 0, 0⟩) State.reset (fun t => (t.report, t.cfg)) =
    some (violation .shiftRange, State.reset.cfg) := by decide

/-- V62, command 2: the other load states are untouched. -/
theorem test_configLd : view (.configLd ⟨true, 2, 0xC0000000, 0xFFFFFFFFFFFFFFF0⟩) State.reset (fun t =>
    (t.cfg.load2, t.cfg.load1)) =
    some (⟨0xFFFFFFFFFFFFFFF0, 0xC0000000, true⟩, ⟨16, 0x3F800000, false⟩) := by decide

/-- V63: the state id is tested before the scale. -/
theorem test_configLd_order : view (.configLd ⟨false, 3, 0x7F800000, 16⟩) State.reset (fun t => t.report) =
    some (violation .reservedStateId) := by decide

/-- V40. -/
theorem test_configSt : view (.configSt ⟨1, ⟨2, 2, 0, 0, 2, 2, 2, 4, 4⟩, 64, 0x3F000000⟩) State.reset (fun t =>
    (t.cfg.accAct, t.cfg.sysAct, t.cfg.pool, t.cfg.storeStride, t.cfg.accScale)) =
    some (.relu, .identity, ⟨2, 2, 0, 0, 2, 2, 2, 4, 4⟩, 64, 0x3F000000) := by decide

/-- V64: pooling on with an empty window. -/
theorem test_configSt_window : view (.configSt ⟨0, ⟨1, 0, 0, 0, 1, 1, 1, 1, 1⟩, 16, 0x3F800000⟩) State.reset (fun t =>
    t.report) = some (violation .poolGeometry) := by decide

/-- The multi-block rows of V21 in small: columns 16 and 17 go DIM rows down (R142). -/
theorem test_mvin_blocks : view (.mvin 0x1000 (.spad 200 1 18))
    (State.reset.withDram [(0x1000, 1), (0x100F, 0x10), (0x1010, 0xFE), (0x1011, 0x12)]) (fun t =>
      (t.spAt 200 0, t.spAt 200 15, spRow t 216 3)) = some (1, 16, [-2, 18, 0]) := by decide +kernel

/-- V28, line 4: row 16383 is written, then row 16384 is out of range. -/
theorem test_mvin_range : view (.mvin 0x1000 (.spad 16383 2 4))
    (State.reset.withDram [(0x1000, 1), (0x1001, 2), (0x1002, 3), (0x1003, 4), (0x1010, 9)]) (fun t =>
      (t.status, spRow t 16383 4)) = some (.faulted (.outOfRange .scratchpadRow), [1, 2, 3, 4]) := by decide +kernel

/-- V22: halves, ties to even; -2.0 saturates (R143). -/
theorem test_mvin2 : view (.mvin2 0x2000 (.spad 8 1 5))
    ((State.reset.withCfg { State.reset.cfg with load1 := ⟨16, 0x3F000000, false⟩ }).withDram
      [(0x2000, 3), (0x2001, 5), (0x2002, 0xFD), (0x2003, 0xFB), (0x2004, 0x64)]) (fun t => spRow t 8 5) =
    some [2, 2, -2, -2, 50] := by decide +kernel

/-- V25: a shrunk load state takes ELEM_BYTES from DRAM and saturates to ACC_BITS (R38, R143). -/
theorem test_mvin2_shrunk : view (.mvin2 0x3100 (.accw 8 1 4))
    ((State.reset.withCfg { State.reset.cfg with load1 := ⟨16, 0x44800000, true⟩ }).withDram
      [(0x3100, 0xFE), (0x3101, 0x7F), (0x3102, 0x80), (0x3103, 5)]) (fun t => accRow t 8 4) =
    some [-2048, 130048, -131072, 5120] := by decide +kernel

/-- V24, command 2: accumulation wraps. -/
theorem test_mvin3_wraps : view (.mvin3 0x3000 (.acca 4 1 4))
    ((State.reset.withAcc [(64, -2), (65, 10000), (66, 2147483647), (67, -2147483648)]).withDram
      [(0x3000, 0xFE), (0x3001, 0xFF), (0x3002, 0xFF), (0x3003, 0xFF), (0x3004, 0x10), (0x3005, 0x27), (0x3008, 0xFF),
        (0x3009, 0xFF), (0x300A, 0xFF), (0x300B, 0x7F), (0x300F, 0x80)]) (fun t => accRow t 4 4) =
    some [-4, 20000, -2, 0] := by decide +kernel

/-- V26: the null DRAM address overwrites with 0, inside the extent only. -/
theorem test_mvin3_null : view (.mvin3 0 (.accw 3 1 1)) (State.reset.withAcc [(48, 77), (49, -77)])
    (fun t => accRow t 3 2) = some [0, -77] := by decide +kernel

/-- V31, command 3: shift 2, clamp. -/
theorem test_mvout_readout : view (.mvout 0x7000 (.accw 2 1 4))
    ((State.reset.withCfg { State.reset.cfg with accShift := 2 }).withAcc [(32, 1000), (33, -1000), (34, 37), (35, -37)])
    (fun t => bytesFrom t 0x7000 4) = some [0x7F, 0x80, 0x09, 0xF7] := by decide +kernel

/-- V43, command 3: a 2 by 2 window over the accumulator, through AccReadout. -/
theorem test_mvout_pooled : view (.mvout 0x9200 (.accw 8 0 1))
    ((State.reset.withCfg { State.reset.cfg with accShift := 1, pool := ⟨2, 2, 0, 0, 1, 1, 1, 2, 2⟩ }).withAcc
      [(128, 400), (144, -300), (160, 120), (176, 96)]) (fun t => bytesFrom t 0x9200 2) = some [0x7F, 0] := by
  decide +kernel

/-- The scratchpad of S5 at DIM 4: A at row 0, B at row 16, D at row 32. -/
def s5 (df : Dataflow) (pre out : TileRef) : State :=
  (((State.resetWith small).withCfg { (State.resetWith small).cfg with dataflow := df }).withSp
    [(0, 1), (1, -2), (2, 3), (4, 4), (5, 5), (6, -6), (64, 7), (65, -8), (68, 9), (69, 10), (72, -11), (73, 12),
     (128, 100), (129, -100), (132, 50), (133, -128)]).withPreload pre out

/-- S5, output-stationary, commands 2 and 3: the scratchpad destination saturates. -/
theorem test_computePreloaded_os : view (.computePreloaded (.spad 0 2 3) (.spad 16 3 2))
    (s5 .os ⟨0x20, 2, 2⟩ ⟨0x30, 2, 2⟩) (fun t => (spRow t 48 3, spRow t 49 3, peRow t 0 3, peRow t 1 3)) =
    some ([56, -92, 0], [127, -128, 0], [56, -92, 0], [189, -182, 0]) := by decide +kernel

/-- S5, weight-stationary, commands 4 and 5: the accumulator destination keeps the word, `PE` the weights. -/
theorem test_computePreloaded_ws : view (.computePreloaded (.spad 0 2 3) (.spad 32 2 2))
    (s5 .ws ⟨0x10, 3, 2⟩ ⟨0x80000000, 2, 2⟩) (fun t => (accRow t 0 3, accRow t 1 3, peRow t 2 3, peRow t 3 3)) =
    some ([56, -92, 0], [189, -182, 0], [-11, 12, 0], [0, 0, 0]) := by decide +kernel

/-- V53, command 5: the weights are reused, the destination accumulates. -/
theorem test_computeAccumulated_ws : view (.computeAccumulated (.spad 32 2 2) (.nulla 2 2))
    (((((State.resetWith small).withCfg { (State.resetWith small).cfg with dataflow := .ws }).withSp
      [(128, -1), (132, 2), (133, -2)]).withPe [(0, 5), (1, 6), (4, 7), (5, 8)]).withAcc
      [(0, 119), (1, -78), (4, 43), (5, 51)] |>.withPreload ⟨0xFFFFFFFF, 0, 0⟩ ⟨0xC0000000, 2, 2⟩)
    (fun t => (accRow t 0 2, accRow t 1 2, peRow t 0 2)) = some ([114, -84], [39, 47], [5, 6]) := by decide +kernel

/-- V52, command 3: every link of an output-stationary chain writes its running sum. -/
theorem test_computeAccumulated_os : view (.computeAccumulated (.spad 0 2 2) (.spad 16 2 2))
    ((((State.resetWith small).withSp
      [(0, 1), (1, 2), (4, 3), (5, 4), (64, 5), (65, 6), (68, 7), (69, 8)]).withPe
      [(0, 19), (1, 22), (4, 43), (5, 50)]).withAcc
      [(0, 19), (1, 22), (4, 43), (5, 50)] |>.withPreload ⟨0xFFFFFFFF, 2, 2⟩ ⟨0xC0000000, 2, 2⟩)
    (fun t => (peRow t 0 2, peRow t 1 2, accRow t 0 2, accRow t 1 2)) =
    some ([38, 44], [86, 100], [57, 66], [129, 150]) := by decide +kernel

/-- V50, command 1. -/
theorem test_preload : view (.preload (.spad 16 3 2) (.acca 32 2 2)) State.reset (fun t => (t.pre, t.out, t.pe)) =
    some (⟨0x00000010, 3, 2⟩, ⟨0xC0000020, 2, 2⟩, []) := by decide

/-- V59, line 1. -/
theorem test_preload_accumulator : view (.preload (.accw 0 16 16) (.spad 0 16 16)) State.reset (fun t =>
    (t.report, t.pre)) = some (violation .preloadFromAccumulator, ⟨0xFFFFFFFF, 0, 0⟩) := by decide

/-- V80. -/
theorem test_flush_fence : view .flush State.reset id = some State.reset ∧ view .fence State.reset id = some State.reset := by
  decide

/-- V70, commands 1 to 5. -/
theorem test_bounds : view (.loopWsConfigBounds ⟨8, 12, 8, 3, 2, 2⟩) State.reset (fun t => (t.lw.bounds, t.lw.a)) =
    some (⟨8, 12, 8, 3, 2, 2⟩, 0) := by decide
theorem test_addrsAb : view (.loopWsConfigAddrsAb 0x10000 0x20000) State.reset (fun t => (t.lw.a, t.lw.b, t.lw.d)) =
    some (0x10000, 0x20000, 0) := by decide
theorem test_addrsDc : view (.loopWsConfigAddrsDc 5 0x30000) State.reset (fun t => (t.lw.d, t.lw.c, t.lw.a)) =
    some (5, 0x30000, 0) := by decide
theorem test_stridesAb : view (.loopWsConfigStridesAb 24 20) State.reset (fun t => (t.lw.aStride, t.lw.bStride)) =
    some (24, 20) := by decide
theorem test_stridesDc : view (.loopWsConfigStridesDc 19 20) State.reset (fun t => (t.lw.dStride, t.lw.cStride)) =
    some (19, 20) := by decide

/-- V72, first line. -/
theorem test_loopWs_needsWs : view (.loopWs ⟨false, false, false⟩)
    (State.reset.withLw { State.reset.lw with bounds := ⟨0, 0, 0, 1, 1, 1⟩ }) (fun t => t.report) =
    some (violation .loopNeedsWS) := by decide

/-- A weight-stationary state with A (3 by 2) at 0x100, B (2 by 2) at 0x200, C at 0x300, all dense: I = 2, J = K = 1. -/
def loopStart : State :=
  (((State.resetWith tiny).withCfg { (State.resetWith tiny).cfg with dataflow := .ws }).withDram
    [(0x100, 1), (0x101, 2), (0x102, 3), (0x103, 4), (0x104, 0xFF), (0x105, 2),
     (0x200, 5), (0x201, 6), (0x202, 7), (0x203, 8)]).withLw ⟨⟨1, 0, 0, 2, 1, 1⟩, 0x100, 0x200, 0, 0x300, 2, 2, 0, 2⟩

/-- By hand: [1, 2; 3, 4; -1, 2] * [5, 6; 7, 8] = [19, 22; 43, 50; 9, 10]; the byte after the last row stays. -/
theorem test_loopWs_product : view (.loopWs ⟨false, false, false⟩) loopStart (fun t =>
    (t.report, bytesFrom t 0x300 7, accRow t 2 2)) = some (none, [19, 22, 43, 50, 9, 10, 0], [9, 10]) := by decide +kernel

/-! ## The machine -/

/-- V81, line 1, as the first command after reset. -/
theorem test_step_unknown : viewStep (State.reset.withFetchWord 136 (15 * 2 ^ 128)) (fun t => (t.report, t.status)) =
    some (some .unknownInstruction, .running) := by decide

/-- A table word as the first command after reset: `LOOP_WS_CONFIG_ADDRS_AB 0, 0` completes and is no longer listed. -/
theorem test_step_first : viewStep (State.reset.withFetchWord 136 0x0A00000000000000000000000000000000) id =
    some State.reset := by decide

/-- V82, commands 3 to 5: a Faulted block takes no command. -/
theorem test_step_faulted : step (((State.reset.withStatus (.faulted (.configurationViolation .reservedActivation)))).withHost
    [.command ⟨127, 0, 0⟩]) = .fault (.blockFaulted (.configurationViolation .reservedActivation)) := rfl

/-- V82: the reset hook. -/
theorem test_step_reset : viewStep ((((State.reset.withStatus (.faulted (.configurationViolation .reservedActivation))).withSp
    [(0, 1)]).withDram [(0x1000, 1)]).withHost [.resetHook]) id = some (State.reset.withDram [(0x1000, 1)]) := by decide

/-! ## Witnesses: the hypotheses of the statements, met together -/

/-- Reset with the witnesses' parameters. -/
def base : State := State.resetWith tiny

/-- A state about to take one host action. -/
def given (a : HostAction) : State := State.reset.withHost [a]

/-- `base` in weight-stationary dataflow. -/
def baseWs : State := base.withCfg { base.cfg with dataflow := .ws }

/-- `base` with a 2 by 2 pooling geometry on. -/
def pooled : State := base.withCfg { base.cfg with pool := ⟨1, 2, 1, 0, 2, 2, 2, 2, 2⟩ }

/-- A sequencer state at both limits of its tile counts: I = J = K = 2, paddings 2, 0, 2. -/
def loopFull : State := baseWs.withLw ⟨⟨2, 0, 2, 2, 2, 2⟩, 0x100, 0x200, 0x300, 0x400, 4, 4, 4, 4⟩

theorem witness_tiny_legal : tiny.legal = true ∧ std.legal = true := by decide
theorem witness_base_consistent : base.consistent = true ∧ baseWs.consistent = true ∧ pooled.consistent = true ∧
    loopFull.consistent = true := by decide

theorem witness_NullIsAddressPartAllOnes : (AddrOperand.decode 0x00050006FFFFFFFF).isNull = true := by decide

theorem witness_DecodeFollowsFunctMap : (∃ i, decode ⟨0, 0xFFFFFFFFFFFFFFFE, 7⟩ = .ok i) ∧ (∃ i, decode ⟨127, 0, 0⟩ = .ok i) ∧
    (1 : Word).extractLsb' 0 2 = (5 : Word).extractLsb' 0 2 := ⟨⟨_, rfl⟩, ⟨_, rfl⟩, rfl⟩

theorem witness_ReservedBitsIgnored : (0xFFFFFFFFFFFFFFFC : Word).extractLsb' 0 2 = 0 ∧ (1 : Word).extractLsb' 0 2 = 1 ∧
    (0xFFFFFFFFFFFFFFFE : Word).extractLsb' 0 2 = 2 := by decide

theorem witness_StepRunsDecodedCommand : (given (.command ⟨127, 0, 0⟩)).host = .command ⟨127, 0, 0⟩ :: [] ∧
    (given (.command ⟨127, 0, 0⟩)).status = .running ∧ decode ⟨127, 0, 0⟩ = .ok .fence := ⟨rfl, rfl, rfl⟩

theorem witness_UnknownInstructionChangesNothing_low : (given (.command ⟨15, 0, 0⟩)).host = [.command ⟨15, 0, 0⟩] ∧
    (given (.command ⟨15, 0, 0⟩)).status = .running ∧ 15 ≤ (15 : BitVec 7).toNat ∧ (15 : BitVec 7).toNat ≤ 126 := by decide
theorem witness_UnknownInstructionChangesNothing_high : (given (.command ⟨126, 0, 0⟩)).host = [.command ⟨126, 0, 0⟩] ∧
    (given (.command ⟨126, 0, 0⟩)).status = .running ∧ 15 ≤ (126 : BitVec 7).toNat ∧ (126 : BitVec 7).toNat ≤ 126 := by decide
theorem witness_UnknownInstructionChangesNothing_reports :
    ∃ t e, exec (.configLd ⟨false, 3, 0, 0⟩) State.reset = .next t ∧ t.report = some e := ⟨_, _, rfl, rfl⟩

theorem witness_ReservedSubcommandIsFatal : (given (.command ⟨0, 0xFFFFFFFFFFFFFFFF, 0⟩)).host =
    [.command ⟨0, 0xFFFFFFFFFFFFFFFF, 0⟩] ∧ (given (.command ⟨0, 0xFFFFFFFFFFFFFFFF, 0⟩)).status = .running ∧
    (0xFFFFFFFFFFFFFFFF : Word).extractLsb' 0 2 = 3 := by decide

/-- A Faulted state with one host action to come. -/
def faultedWith (a : HostAction) : State := (given a).withStatus (.faulted (.outOfRange .accumulatorRow))

theorem witness_FatalErrorsLatch : (∃ t, exec .flush State.reset = .next t) ∧
    (faultedWith (.command ⟨7, 0, 0⟩)).host = [.command ⟨7, 0, 0⟩] ∧
    (faultedWith (.command ⟨7, 0, 0⟩)).status = .faulted (.outOfRange .accumulatorRow) ∧
    (faultedWith .resetHook).host = [.resetHook] := ⟨⟨_, rfl⟩, rfl, rfl, rfl⟩

theorem witness_OnlyResetClearsLatch : (∃ t, exec .flush (faultedWith .resetHook) = .next t) ∧
    (∃ t, step (faultedWith .resetHook) = .next t) ∧ (∃ t, step (faultedWith (.store 0 1)) = .next t) ∧
    (faultedWith (.store 0 1)).status = .faulted (.outOfRange .accumulatorRow) := ⟨⟨_, rfl⟩, ⟨_, rfl⟩, ⟨_, rfl⟩, rfl⟩

/-- A fatal report, and a command presented to a Faulted block. -/
theorem witness_OnlyResetClearsLatch_set : (∃ t e, exec (.configLd ⟨false, 3, 0, 0⟩) State.reset = .next t ∧
    t.report = some (.fatal e)) ∧ (faultedWith (.command ⟨15, 0, 0⟩)).host = [.command ⟨15, 0, 0⟩] ∧
    (faultedWith (.command ⟨15, 0, 0⟩)).status = .faulted (.outOfRange .accumulatorRow) := ⟨⟨_, _, rfl, rfl⟩, rfl, rfl⟩

theorem witness_ResetHookRestoresEverything : (faultedWith .resetHook).host = .resetHook :: [] ∧
    (faultedWith .resetHook).params = State.reset.params ∧
    (faultedWith .resetHook).params.dim * (faultedWith .resetHook).params.elemBytes < 2 ^ 64 ∧
    (faultedWith .resetHook).params.dim * (faultedWith .resetHook).params.elemBytes < 2 ^ 32 :=
  ⟨rfl, rfl, by decide, by decide⟩

theorem witness_HostStoreAndIdle : (given (.store 0xFFFFFFFFFFFFFFFF 0)).host = .store 0xFFFFFFFFFFFFFFFF 0 :: [] ∧
    State.reset.host = [] := ⟨rfl, rfl⟩

theorem witness_ConfigurationViolationsArePrecise_commands : (∀ f, Instr.configLd ⟨false, 3, 0, 0⟩ ≠ .loopWs f) ∧
    ∃ t reason, exec (.configLd ⟨false, 3, 0, 0⟩) State.reset = .next t ∧
      t.report = some (.fatal (.configurationViolation reason)) := ⟨fun _ => nofun, _, _, rfl, rfl⟩
theorem witness_ConfigurationViolationsArePrecise_loop : ¬ loopAccepted State.reset := fun h => nomatch h.1

theorem witness_CommandsAlwaysEnd : ∀ addr, dramAdmit State.reset.params addr = true := fun _ => rfl

theorem witness_CommandsWriteOnlyTheirState : (∃ t, exec .fence State.reset = .next t) ∧
    (∀ a d, Instr.fence ≠ .mvout a d) ∧ (∀ f, Instr.fence ≠ .loopWs f) ∧ (∀ k a d, Instr.fence ≠ mvinOf k a d) ∧
    (∀ p a b, Instr.fence ≠ computeOf p a b) ∧ (∀ w, Instr.fence ≠ .configEx w) ∧ (∀ w, Instr.fence ≠ .configLd w) ∧
    (∀ w, Instr.fence ≠ .configSt w) ∧ (∀ x y, Instr.fence ≠ .preload x y) ∧
    (∀ b, Instr.fence ≠ .loopWsConfigBounds b) ∧ (∀ a b, Instr.fence ≠ .loopWsConfigAddrsAb a b) ∧
    (∀ d c, Instr.fence ≠ .loopWsConfigAddrsDc d c) ∧ (∀ a b, Instr.fence ≠ .loopWsConfigStridesAb a b) ∧
    (∀ d c, Instr.fence ≠ .loopWsConfigStridesDc d c) :=
  ⟨⟨_, rfl⟩, nofun, nofun, fun k => by fin_cases k <;> nofun, fun p => by cases p <;> nofun, nofun, nofun, nofun, nofun,
    nofun, nofun, nofun, nofun, nofun⟩

theorem witness_StepKeepsConsistent : State.reset.consistent = true ∧ ∃ t, step State.reset = .next t := ⟨by decide, _, rfl⟩

/-- The bytes of an access that wraps at the top of the address space. -/
theorem witness_MemRead_MemWrite : reachable tiny 0xFFFFFFFFFFFFFFFF 4 ∧ 4 ≤ 2 ^ 64 := ⟨fun _ _ => rfl, by decide⟩

theorem witness_MixedWidthReadBack : 4 ≤ 2 ^ 64 ∧ 1 * 2 + 2 ≤ 4 ∧ reachable base.params 0xFFFFFFFFFFFFFFFF 4 ∧
    ∃ t, base.memWrite 0xFFFFFFFFFFFFFFFF 4 0x01020304 = .done t := ⟨by decide, by decide, fun _ _ => rfl, _, rfl⟩

/-- `base` where the platform refuses one DRAM byte. -/
def refusing : State := State.resetWith { tiny with dramRefused := [(0x1000, 0x1000)] }

theorem witness_RefusedAddressIsStuck : refusing.params.legal = true ∧ (AddrOperand.spad 31 2 1).isNull = false ∧
    (AddrOperand.spad 31 2 1).nrows ≤ refusing.params.dim ∧ 0 < (AddrOperand.spad 31 2 1).nrows ∧
    0 < (AddrOperand.spad 31 2 1).ncols ∧ (0x1000 : Word) ≠ 0 ∧
    (AddrOperand.spad 31 2 1).base < extentOf refusing.params (AddrOperand.spad 31 2 1).isAcc ∧
    dramAdmit refusing.params (0x1000 : Word).toNat = false := by decide

/-- The second byte of an access is refused, the first is admitted. -/
theorem witness_MemRead_MemWrite_refused : 1 < 4 ∧ reachable refusing.params 0x0FFF 1 ∧
    dramAdmit refusing.params (byteAddress 0x0FFF 1) = false :=
  ⟨by decide, by unfold reachable; decide, by decide⟩

/-- Rows 28 to 31 of a scratchpad of 32 rows: two blocks of two columns, the second not full. -/
theorem witness_MoveInToScratchpad : base.params.legal = true ∧ (AddrOperand.spad 28 2 3).isNull = false ∧
    (AddrOperand.spad 28 2 3).isAcc = false ∧ (AddrOperand.spad 28 2 3).nrows ≤ base.params.dim ∧
    transferInRange base.params (.spad 28 2 3) ∧
    sourceReachable base 1 0xFFFFFFFFFFFFFFFF (.spad 28 2 3) base.params.elemBytes :=
  ⟨by decide, by decide, by decide, by decide, by unfold transferInRange; decide, fun _ _ _ _ _ _ _ => rfl⟩

/-- `base` with load state 1 shrunk; load state 2 is not. -/
def shrunk1 : State := base.withCfg { base.cfg with load1 := ⟨2, 0x3F800000, true⟩ }

/-- Both element sizes: ACC_BYTES = 2 through load state 2, ELEM_BYTES = 1 through load state 1. -/
theorem witness_MoveInToAccumulator : shrunk1.params.legal = true ∧
    (((shrunk1.cfg.load 2).shrunk = false ∧ 2 = shrunk1.params.accBytes) ∧
      ((shrunk1.cfg.load 1).shrunk = true ∧ 1 = shrunk1.params.elemBytes)) ∧
    ∀ d ∈ [AddrOperand.accw 14 2 2, .acca 14 2 2], d.isNull = false ∧ d.isAcc = true ∧ d.nrows ≤ shrunk1.params.dim ∧
      transferInRange shrunk1.params d ∧ sourceReachable shrunk1 2 0x1000 d 2 ∧ sourceReachable shrunk1 1 0x1000 d 1 :=
  ⟨by decide, by decide, fun d hd => by
    rcases List.mem_pair.mp hd with rfl | rfl
    all_goals exact ⟨by decide, by decide, by decide, by unfold transferInRange; decide, fun _ _ _ _ _ _ _ => rfl,
      fun _ _ _ _ _ _ _ => rfl⟩⟩

theorem witness_MoveInToAccumulator_clauses : (AddrOperand.accw 14 2 2).accumulate = false ∧
    (AddrOperand.acca 14 2 2).accumulate = true := by decide

theorem witness_MoveInFromNullAddress : base.consistent = true ∧ (AddrOperand.acca 15 1 2).isNull = false ∧
    (AddrOperand.acca 15 1 2).nrows ≤ base.params.dim ∧ transferInRange base.params (.acca 15 1 2) :=
  ⟨by decide, by decide, by decide, by unfold transferInRange; decide⟩

theorem witness_MoveInRejections : (AddrOperand.nulla 3 1).isNull = true ∧ (AddrOperand.spad 0 3 1).isNull = false ∧
    base.params.dim < (AddrOperand.spad 0 3 1).nrows := by decide

/-- Row 31 is the last: element (0, 0) is written, element (1, 0) is out of range. -/
theorem witness_MoveInOutOfRange : base.params.legal = true ∧ (AddrOperand.spad 31 2 1).isNull = false ∧
    (AddrOperand.spad 31 2 1).nrows ≤ base.params.dim ∧ 1 < (AddrOperand.spad 31 2 1).nrows ∧
    0 < (AddrOperand.spad 31 2 1).ncols ∧
    extentOf base.params (AddrOperand.spad 31 2 1).isAcc ≤ transferRow base.params (.spad 31 2 1) 1 0 ∧
    (∀ r < (AddrOperand.spad 31 2 1).nrows, ∀ c < (AddrOperand.spad 31 2 1).ncols, runsBefore r c 1 0 →
      transferRow base.params (.spad 31 2 1) r c < extentOf base.params (AddrOperand.spad 31 2 1).isAcc) ∧
    moveInReachable base 0 0x1000 (.spad 31 2 1) ∧ moveOutReachable base 0x1000 (.spad 31 2 1) ∧
    base.cfg.pool.stride = 0 :=
  ⟨by decide, by decide, by decide, by decide, by decide, by decide, by unfold runsBefore; decide,
    fun _ _ _ _ _ _ _ => rfl, fun _ _ _ _ _ _ => rfl, rfl⟩

/-- An image of 2 by 2 positions from row 29 on: output positions (0, 0) and (0, 1) read rows 29 and 30, position (1, 0) is
the first whose window reads row 32, the first that does not exist. -/
theorem witness_MoveOutOutOfRange_pooled : pooled.consistent = true ∧ (AddrOperand.spad 29 0 2).isNull = false ∧
    (0x1000 : Word) ≠ 0 ∧ pooled.cfg.pool.stride ≠ 0 ∧ (AddrOperand.spad 29 0 2).ncols ≤ pooled.params.dim ∧
    ((AddrOperand.spad 29 0 2).isAcc && (AddrOperand.spad 29 0 2).full) = false ∧ 0 < (AddrOperand.spad 29 0 2).ncols ∧
    1 < pooled.cfg.pool.porows.toNat ∧ 0 < pooled.cfg.pool.pocols.toNat ∧ ¬ windowInRange pooled (.spad 29 0 2) 1 0 ∧
    (∀ pr < pooled.cfg.pool.porows.toNat, ∀ pc < pooled.cfg.pool.pocols.toNat, runsBefore pr pc 1 0 →
      windowInRange pooled (.spad 29 0 2) pr pc) ∧
    pooledReachable pooled 0x1000 (.spad 29 0 2) :=
  ⟨by decide, by decide, by decide, by decide, by decide, by decide, by decide, by decide, by decide,
    fun h => absurd (h 1 (by decide) 1 (by decide) (by decide) (by decide) (by decide) (by decide)) (by decide),
    fun pr _ pc _ before wr hwr wc _ _ _ _ hc => by
      have hpr : pr = 0 := by
        rcases before with h | ⟨_, h⟩
        · omega
        · exact absurd h (by omega)
      subst hpr
      have hr : windowRow pooled.cfg.pool 0 wr ≤ 0 := by
        have hwr : wr < 2 := hwr
        show (0 * 1 : Int) + wr - 1 ≤ 0
        omega
      have hc : windowCol pooled.cfg.pool pc wc < 2 := hc
      show 29 + (windowRow pooled.cfg.pool 0 wr).toNat * 2 + (windowCol pooled.cfg.pool pc wc).toNat < 32
      omega,
    fun _ _ _ _ _ _ _ _ => rfl⟩

/-- The last operand of an accumulator of 16 rows, for a full-precision move-out that wraps in DRAM. -/
theorem witness_MoveOutWritesExtent : base.params.legal = true ∧ (AddrOperand.accf 14 2 2).isNull = false ∧
    (0xFFFFFFFFFFFFFFFF : Word) ≠ 0 ∧ base.cfg.pool.stride = 0 ∧ (AddrOperand.accf 14 2 2).nrows ≤ base.params.dim ∧
    transferInRange base.params (.accf 14 2 2) ∧ moveOutReachable base 0xFFFFFFFFFFFFFFFF (.accf 14 2 2) :=
  ⟨by decide, by decide, by decide, by decide, by decide, by unfold transferInRange; decide, fun _ _ _ _ _ _ => rfl⟩

theorem witness_MoveOutRejections : (AddrOperand.nulla 1 1).isNull = true ∧ (AddrOperand.spad 0 3 1).isNull = false ∧
    base.cfg.pool.stride = 0 ∧ base.params.dim < (AddrOperand.spad 0 3 1).nrows ∧ pooled.cfg.pool.stride ≠ 0 ∧
    pooled.params.dim < (AddrOperand.spad 0 0 3).ncols ∧ (AddrOperand.accf 0 0 2).ncols ≤ pooled.params.dim ∧
    (AddrOperand.accf 0 0 2).isNull = false ∧ (AddrOperand.accf 0 0 2).isAcc = true ∧
    (AddrOperand.accf 0 0 2).full = true := by decide

/-- The image ends at the last scratchpad row; the upper windows reach outside it. -/
theorem witness_PooledMoveOutWritesMaxima : pooled.consistent = true ∧ (AddrOperand.spad 28 0 2).isNull = false ∧
    (0x1000 : Word) ≠ 0 ∧ pooled.cfg.pool.stride ≠ 0 ∧ (AddrOperand.spad 28 0 2).ncols ≤ pooled.params.dim ∧
    ((AddrOperand.spad 28 0 2).isAcc && (AddrOperand.spad 28 0 2).full) = false ∧
    windowsInRange pooled (.spad 28 0 2) ∧ pooledReachable pooled 0x1000 (.spad 28 0 2) :=
  ⟨by decide, by decide, by decide, by decide, by decide, by decide,
    fun _ pr _ pc _ wr _ wc _ _ _ hr hc => by
      have hr : windowRow pooled.cfg.pool pr wr < 2 := hr
      have hc : windowCol pooled.cfg.pool pc wc < 2 := hc
      show 28 + (windowRow pooled.cfg.pool pr wr).toNat * 2 + (windowCol pooled.cfg.pool pc wc).toNat < 32
      omega,
    fun _ _ _ _ _ _ _ _ => rfl⟩

/-- `base` with the store stride equal to the load strides, and pooling off. -/
theorem witness_MoveInMoveOutRoundTrip : base.params.legal = true ∧ (AddrOperand.spad 30 2 2).isNull = false ∧
    (AddrOperand.spad 30 2 2).isAcc = false ∧ (AddrOperand.spad 30 2 2).nrows ≤ base.params.dim ∧
    transferInRange base.params (.spad 30 2 2) ∧ (base.cfg.load 1).scale = 0x3F800000 ∧ base.cfg.pool.stride = 0 ∧
    (base.cfg.load 1).stride.toNat = base.cfg.storeStride.toNat ∧
    (AddrOperand.spad 30 2 2).ncols * base.params.elemBytes ≤ base.cfg.storeStride.toNat ∧
    moveInReachable base 1 0x1000 (.spad 30 2 2) ∧ moveOutReachable base 0x2000 (.spad 30 2 2) :=
  ⟨by decide, by decide, by decide, by decide, by unfold transferInRange; decide, by decide, by decide, by decide, by decide,
    fun _ _ _ _ _ _ _ => rfl, fun _ _ _ _ _ _ => rfl⟩

theorem witness_PreloadRecords : (AddrOperand.accw 0 1 1).isNull = false ∧ (AddrOperand.accw 0 1 1).isAcc = true ∧
    (AddrOperand.spad 0 3 2).inAccumulator = false ∧ (AddrOperand.spad 0 3 2).isNull = false ∧
    base.params.dim < (AddrOperand.spad 0 3 2).nrows ∧ base.params.dim < (AddrOperand.acca 0 2 3).ncols ∧
    (AddrOperand.acca 0 2 3).isNull = false ∧ (AddrOperand.nulla 9 9).isNull = true ∧
    (AddrOperand.spad 0 2 2).isAcc = false ∧ (AddrOperand.spad 0 2 2).nrows ≤ base.params.dim ∧
    (AddrOperand.spad 0 2 2).ncols ≤ base.params.dim := by decide

theorem witness_ComputeRejections : (AddrOperand.accw 0 1 1).isNull = false ∧ (AddrOperand.accw 0 1 1).isAcc = true ∧
    (AddrOperand.nulla 9 9).isNull = true ∧ (AddrOperand.spad 0 2 3).isAcc = false ∧ (AddrOperand.spad 0 2 3).isNull = false ∧
    base.params.dim < (AddrOperand.spad 0 2 3).ncols := by decide

/-- The preload record of the compute witnesses: tile rows 28 and 29, destination accumulator rows 14 and 15. -/
def recorded (s : State) : State := s.withPreload ⟨28, 2, 2⟩ ⟨0xC000000E, 2, 2⟩

theorem witness_ComputeOutputStationary : (recorded base).consistent = true ∧ (recorded base).cfg.dataflow = .os ∧
    (AddrOperand.spad 30 2 2).arrayOperand tiny = true ∧ (AddrOperand.nulla 9 9).arrayOperand tiny = true ∧
    tileInRange (recorded base) ∧ operandInRange tiny (.spad 30 2 2) (recorded base).cfg.aStride.toNat ∧
    operandInRange tiny (.nulla 9 9) 1 ∧ destinationInRange (recorded base) :=
  ⟨by decide, by decide, by decide, by decide, by unfold tileInRange; decide, by unfold operandInRange; decide,
    by unfold operandInRange; decide, by unfold destinationInRange; decide⟩

theorem witness_ComputeWeightStationary : (recorded baseWs).consistent = true ∧ (recorded baseWs).cfg.dataflow = .ws ∧
    (AddrOperand.spad 30 2 2).arrayOperand tiny = true ∧ tileInRange (recorded baseWs) ∧
    operandInRange tiny (.spad 30 2 2) (recorded baseWs).cfg.aStride.toNat ∧ operandInRange tiny (.spad 30 2 2) 1 ∧
    destinationInRange (recorded baseWs) :=
  ⟨by decide, by decide, by decide, by unfold tileInRange; decide, by unfold operandInRange; decide,
    by unfold operandInRange; decide, by unfold destinationInRange; decide⟩

/-- What `resultWritten` distinguishes: the two banks, and the two ways of writing the accumulator. -/
theorem witness_resultWritten : (recorded base).out.toAcc = true ∧ (recorded base).out.accumulate = true ∧
    inDestination (recorded base) 15 1 ∧ ¬ inDestination (recorded base) 13 1 ∧
    (base.withPreload ⟨28, 2, 2⟩ ⟨30, 2, 2⟩).out.toAcc = false ∧ inDestination (base.withPreload ⟨28, 2, 2⟩ ⟨30, 2, 2⟩) 31 1 ∧
    (base.withPreload ⟨28, 2, 2⟩ ⟨0x8000000E, 2, 2⟩).out.accumulate = false :=
  ⟨by decide, by decide, by unfold inDestination; decide, by unfold inDestination; decide, by decide,
    by unfold inDestination; decide, by decide⟩

theorem witness_WsComputeKeepsWeights : baseWs.cfg.dataflow = .ws ∧
    ∃ t, exec (.computeAccumulated (.nulla 0 0) (.nulla 0 0)) baseWs = .next t := ⟨rfl, _, rfl⟩

theorem witness_WsOperandOutOfRange : (recorded baseWs).consistent = true ∧ (recorded baseWs).cfg.dataflow = .ws ∧
    (AddrOperand.spad 31 2 2).arrayOperand tiny = true ∧ (AddrOperand.nulla 0 0).arrayOperand tiny = true ∧
    tileInRange (recorded baseWs) ∧
    ¬ (operandInRange tiny (.spad 31 2 2) (recorded baseWs).cfg.aStride.toNat ∧ operandInRange tiny (.nulla 0 0) 1) :=
  ⟨by decide, by decide, by decide, by decide, by unfold tileInRange; decide, by unfold operandInRange; decide⟩

theorem witness_OsOperandOutOfRange : (recorded base).consistent = true ∧ (recorded base).cfg.dataflow = .os ∧
    (AddrOperand.spad 31 2 2).arrayOperand tiny = true ∧ (AddrOperand.nulla 0 0).arrayOperand tiny = true ∧
    tileInRange (recorded base) ∧
    ¬ (operandInRange tiny (.spad 31 2 2) (recorded base).cfg.aStride.toNat ∧ operandInRange tiny (.nulla 0 0) 1) :=
  ⟨by decide, by decide, by decide, by decide, by unfold tileInRange; decide, by unfold operandInRange; decide⟩

/-- A tile of two rows recorded at the last scratchpad row, in both dataflows. -/
theorem witness_PreloadTileOutOfRange : ∀ s ∈ [base, baseWs],
    (s.withPreload ⟨31, 2, 2⟩ ⟨0xC000000E, 2, 2⟩).consistent = true ∧
    (AddrOperand.spad 30 2 2).arrayOperand s.params = true ∧ (AddrOperand.nulla 0 0).arrayOperand s.params = true ∧
    ¬ tileInRange (s.withPreload ⟨31, 2, 2⟩ ⟨0xC000000E, 2, 2⟩) := by
  unfold tileInRange; decide

/-- Destinations of two rows recorded at the last row of the accumulator and of the scratchpad, in both dataflows; their
first row exists. -/
theorem witness_ResultWriteOutOfRange : ∀ s ∈ [base, baseWs], ∀ dst ∈ [(⟨0xC000000F, 2, 2⟩ : TileRef), ⟨31, 2, 2⟩],
    (s.withPreload ⟨28, 2, 2⟩ dst).consistent = true ∧ (AddrOperand.spad 30 2 2).arrayOperand s.params = true ∧
    tileInRange (s.withPreload ⟨28, 2, 2⟩ dst) ∧ operandInRange s.params (.spad 30 2 2) s.cfg.aStride.toNat ∧
    operandInRange s.params (.spad 30 2 2) 1 ∧ ¬ destinationInRange (s.withPreload ⟨28, 2, 2⟩ dst) ∧
    inDestinationAndBank (s.withPreload ⟨28, 2, 2⟩ dst) dst.base 1 := by
  intro s hs dst hd
  rcases List.mem_pair.mp hs with rfl | rfl <;> rcases List.mem_pair.mp hd with rfl | rfl
  all_goals
    exact ⟨by decide, by decide, by unfold tileInRange; decide, by unfold operandInRange; decide,
      by unfold operandInRange; decide, by unfold destinationInRange; decide,
      by unfold inDestinationAndBank inDestination; decide⟩

theorem witness_DataflowEquivalence : base.consistent = true ∧ base.cfg.aTranspose = false ∧ base.cfg.bTranspose = false ∧
    base.cfg.sysShift = 0 ∧ base.cfg.sysAct = .identity ∧ (AddrOperand.spad 30 2 2).arrayOperand tiny = true ∧
    (AddrOperand.accw 14 2 2).isNull = false ∧ (AddrOperand.accw 14 2 2).nrows ≤ tiny.dim ∧
    (AddrOperand.accw 14 2 2).ncols ≤ tiny.dim ∧ operandInRange tiny (.spad 30 2 2) base.cfg.aStride.toNat ∧
    operandInRange tiny (.spad 30 2 2) 1 ∧
    ((AddrOperand.accw 14 2 2).ncols ≠ 0 → ∀ i < (AddrOperand.accw 14 2 2).nrows,
      (AddrOperand.accw 14 2 2).base + i < extentOf tiny (AddrOperand.accw 14 2 2).isAcc) ∧
    (AddrOperand.accw 14 2 2).isAcc = true ∧ (AddrOperand.accw 14 2 2).accumulate = false ∧
    (AddrOperand.spad 30 2 2).isAcc = false :=
  ⟨by decide, by decide, by decide, by decide, by decide, by decide, by decide, by decide, by decide,
    by unfold operandInRange; decide, by unfold operandInRange; decide, by decide, by decide, by decide, by decide⟩

/-- The two clauses of R204 on the significand, at the last subnormal and the first normal pattern, and both signs of the
exponent: 1.0 is 2^23 * 2^-23, 2^23 is 2^23 * 2^0 (by hand). -/
theorem witness_ScaleIsExactProductRoundedOnce : ((0x807FFFFF : Half).extractLsb' 23 8).toNat = 0 ∧
    ((0x807FFFFF : Half).extractLsb' 0 23).toNat = 2 ^ 23 - 1 ∧ (0x807FFFFF : Half).getLsbD 31 = true ∧
    ((0x00800000 : Half).extractLsb' 23 8).toNat = 1 ∧ ((0x3F800000 : Half).extractLsb' 23 8).toNat = 127 ∧
    ((0x4B000000 : Half).extractLsb' 23 8).toNat = 150 := by decide

/-- Ties, exact values at both ends of the narrow range, and the exponents on both sides of 0 (by hand). -/
theorem witness_quantizer : 2 * |roundShift 3 1 * 2 ^ 1 - 3| = 2 ^ 1 ∧ (-2048 : Int) = -128 * 2 ^ 4 ∧
    minOf std.elemBits = -128 ∧ maxOf std.elemBits = 127 ∧ 0 ≤ scaleExponent 0x4B000000 ∧ scaleExponent 0x4A800000 < 0 ∧
    fitsIn std.elemBits 127 = true ∧ fitsIn std.elemBits 128 = false := by decide

theorem witness_PipelinesRecoverEachFunction : std.legal = true ∧ (Cfg.reset std).accScale = 0x3F800000 ∧
    (Cfg.reset std).accShift = 0 := by decide

theorem witness_NumberForms : 1 ≤ 1 ∧ minOf 1 ≤ -1 ∧ (-1 : Int) ≤ maxOf 1 ∧ (2 : Int) ^ 1 ∣ 3 - (-1) := by decide

/-- Shifts at and just below ACC_BITS = 16, both forbidden triples, every activation code. -/
theorem witness_ConfigExWritesEightFields : (3 : BitVec 2) ≠ 2 ∧ base.params.accBits ≤ (16 : Half).toNat ∧
    (15 : Half).toNat < base.params.accBits ∧
    ((Dataflow.ws = .os ∧ true = false ∧ true = true) ∨ (Dataflow.ws = .ws ∧ true = true ∧ true = true)) ∧
    ¬ ((Dataflow.os = .os ∧ true = false ∧ true = true) ∨ (Dataflow.os = .ws ∧ true = true ∧ true = true)) := by decide

theorem witness_ConfigLdWritesOneLoadState : (2 : BitVec 2) ≠ 3 ∧ (0x7F800000 : Half).extractLsb' 23 8 = 255 ∧
    (0x7F7FFFFF : Half).extractLsb' 23 8 ≠ 255 := by decide

theorem witness_ConfigStWritesStoreFields : (2 : BitVec 2) ≠ 3 ∧ (0xFFC00000 : Half).extractLsb' 23 8 = 255 ∧
    (0x3F800000 : Half).extractLsb' 23 8 ≠ 255 ∧ (1 : BitVec 2) ≠ 0 := by decide

/-- `loopFull` accepts its bounds; one more in a padding or in a tile count does not. -/
theorem witness_LoopWsRejections : base.cfg.dataflow = .os ∧ loopFull.cfg.dataflow = .ws ∧
    loopFull.cfg.aTranspose = false ∧ loopFull.cfg.bTranspose = false ∧ tiny.dim < (3 : BitVec 16).toNat ∧
    tiny.spRows / 2 < ((1 : BitVec 16).toNat * (5 : BitVec 16).toNat + (5 : BitVec 16).toNat * (1 : BitVec 16).toNat) * tiny.dim ∧
    tiny.accRows / 2 < (5 : BitVec 16).toNat * (1 : BitVec 16).toNat * tiny.dim := by decide

theorem witness_LoopWsIsItsProgram : loopAccepted loopFull := by unfold loopAccepted; decide

theorem witness_LoopWsCompletes : loopFull.consistent = true ∧ loopAccepted loopFull ∧
    (∀ addr, dramAdmit loopFull.params addr = true) ∧
    (∀ i < loopFull.lw.bounds.tilesI.toNat, ∀ k < loopFull.lw.bounds.tilesK.toNat, dimK loopFull k ≠ 0 →
      ∀ r < rowsI loopFull i, aTileRow loopFull i k + loopFull.cfg.aStride.toNat * r < loopFull.params.spRows) ∧
    (loopFull.lw.c ≠ 0 → loopFull.cfg.pool.stride = 0 ∧
      ∀ i < loopFull.lw.bounds.tilesI.toNat, ∀ j < loopFull.lw.bounds.tilesJ.toNat,
        tileAddress loopFull loopFull.lw.c loopFull.lw.cStride i j (sizeofC loopFull ⟨true, true, true⟩) ≠ 0) :=
  ⟨by decide, by unfold loopAccepted; decide, fun _ => rfl, by decide, by decide⟩

/-- Each of the three empty cases; the last with tiles in I and J. -/
theorem witness_LoopWsWithoutTilesDoesNothing : loopAccepted baseWs ∧ baseWs.lw.bounds.tilesI = 0 ∧
    baseWs.lw.bounds.tilesJ = 0 ∧ loopAccepted (baseWs.withLw { baseWs.lw with bounds := ⟨0, 0, 0, 1, 1, 0⟩ }) ∧
    (baseWs.withLw { baseWs.lw with bounds := ⟨0, 0, 0, 1, 1, 0⟩ }).lw.bounds.tilesK = 0 ∧
    (baseWs.withLw { baseWs.lw with bounds := ⟨0, 0, 0, 1, 1, 0⟩ }).lw.d = 0 :=
  ⟨by unfold loopAccepted; decide, by decide, by decide, by unfold loopAccepted; decide, by decide, by decide⟩

end Sys2Proof.Tests
end

/-!
PROOFS. The fault latch (R41): no procedure of a command touches it, the end of a command can only set it, and what a
step from a Faulted state can be.
-/

namespace Sys2Proof.Machine

/-! ## The latch across a command -/

theorem dataOnly.status {s t : State} (h : dataOnly s t) : t.status = s.status := by rw [h]; rfl

/-- The procedure of a command leaves the latch alone, stopped or not: an error is latched by the command's end. -/
theorem bodyOf_status (i : Instr) (s : State) : (bodyOf i s).state.status = s.status := by
  cases i with
  | mvin a d => exact (moveIn_dataOnly _ _ _ s).status
  | mvin2 a d => exact (moveIn_dataOnly _ _ _ s).status
  | mvin3 a d => exact (moveIn_dataOnly _ _ _ s).status
  | mvout a d => exact (moveOut_dataOnly _ _ s).status
  | computePreloaded a b => exact (compute_dataOnly _ _ _ s).status
  | computeAccumulated a b => exact (compute_dataOnly _ _ _ s).status
  | preload src dst => exact (preloadRecord_dataOnly _ _ s).status
  | loopWs f => exact (loopWs_dataOnly f s).status
  | configEx w =>
    show (configEx w s).state.status = s.status
    rcases configEx_cases w s with ⟨_, e⟩ | ⟨_, _, _, _, _, _, e⟩ <;> rw [e] <;> rfl
  | configLd w =>
    show (configLd w s).state.status = s.status
    rcases configLd_cases w s with ⟨_, e⟩ | ⟨_, _, _, e⟩ <;> rw [e] <;> rfl
  | configSt w =>
    show (configSt w s).state.status = s.status
    rcases configSt_cases w s with ⟨_, e⟩ | ⟨_, _, _, _, e⟩ <;> rw [e] <;> rfl
  | flush | fence | loopWsConfigBounds | loopWsConfigAddrsAb | loopWsConfigAddrsDc | loopWsConfigStridesAb
  | loopWsConfigStridesDc => rfl

/-- What a command that has run leaves in the latch and the report: nothing reported and the latch as it was, or a fatal
error in both (R300, R306). -/
theorem exec_latch_cases {i : Instr} {s t : State} (h : exec i s = .next t) :
    (t.report = none ∧ t.status = s.status) ∨ ∃ e, t.report = some (.fatal e) ∧ t.status = .faulted e := by
  rw [exec_eq_finish] at h
  have hs := bodyOf_status i s
  rcases (bodyOf i s).finish_cases with ⟨u, hu, e⟩ | ⟨err, u, _, e⟩ | ⟨_, _, _, e⟩ <;> rw [e] at h
  · cases h
    rw [hu] at hs
    exact .inl ⟨rfl, hs⟩
  · cases h
    exact .inr ⟨err, rfl, rfl⟩
  · cases h

theorem exec_latches_reported {i : Instr} {s t : State} {e : FatalError} (h : exec i s = .next t)
    (hr : t.report = some (.fatal e)) : t.status = .faulted e := by
  rcases exec_latch_cases h with ⟨hn, _⟩ | ⟨e', he', hs⟩
  · rw [hn] at hr; cases hr
  · rw [he'] at hr; cases hr; exact hs

theorem exec_keeps_faulted {i : Instr} {s t : State} {e : FatalError} (h : exec i s = .next t)
    (hs : s.status = .faulted e) : ∃ e', t.status = .faulted e' := by
  rcases exec_latch_cases h with ⟨_, ht⟩ | ⟨e', _, ht⟩
  · exact ⟨e, ht.trans hs⟩
  · exact ⟨e', ht⟩

/-! ## The step, action by action -/

theorem step_idle {s : State} (h : s.host = []) : step s = .next s := by simp [step, fetch, h]

theorem step_store {s : State} {addr : Word} {v : Byte} {rest : List HostAction} (h : s.host = .store addr v :: rest) :
    step s = .next ((s.withHost rest).putByte addr.toNat v) := by simp [step, fetch, h]

/-- A Faulted block takes no command (R306). -/
theorem step_command_faulted {s : State} {c : Command} {rest : List HostAction} {e : FatalError}
    (h : s.host = .command c :: rest) (hs : s.status = .faulted e) : step s = .fault (.blockFaulted e) := by
  simp [step, fetch, presentCommand, h, hs]

/-- A step from a Faulted state is the reset hook, or keeps the latch: it is idle, or a store of the host. -/
theorem step_keeps_latch_or_resets {s t : State} {e : FatalError} (h : step s = .next t) (hs : s.status = .faulted e) :
    t.status = .faulted e ∨ ∃ rest, s.host = .resetHook :: rest := by
  cases hh : s.host with
  | nil =>
    rw [step_idle hh] at h
    cases h
    exact .inl hs
  | cons a rest =>
    cases a with
    | command c =>
      rw [step_command_faulted hh hs] at h
      cases h
    | resetHook => exact .inr ⟨rest, rfl⟩
    | store addr v =>
      rw [step_store hh] at h
      cases h
      exact .inl hs

/-- Settles O14, from what a command and a step can do with the latch. -/
theorem onlyResetClearsLatch : Obligations.OnlyResetClearsLatch :=
  ⟨fun _ _ _ _ => exec_latches_reported, fun _ _ _ _ => exec_keeps_faulted, fun _ _ _ => step_keeps_latch_or_resets,
    fun _ _ _ _ => step_command_faulted, rfl⟩

end Sys2Proof.Machine

/-!
PROOFS. The DRAM accesses (R63 to R65): `MemRead` and `MemWrite`, each as the bytes it touches where all of them are
admitted, and as the bytes it has touched by the first that is refused.
-/

namespace Sys2Proof.Machine

/-! ## A loop that stops at one of its items -/

/-- The indices of a loop, split at one of them. -/
theorem range_split {b n : Nat} (h : b < n) : ∃ after, List.range n = List.range b ++ b :: after := by
  obtain ⟨k, rfl⟩ := Nat.exists_eq_add_of_lt h
  refine ⟨(List.range k).map (b + 1 + ·), ?_⟩
  rw [show b + k + 1 = b + 1 + k by omega, List.range_add, List.range_succ, List.append_assoc, List.singleton_append]

/-- A loop over a value stops at the first item that stops: what the later items would do does not matter. -/
theorem foldAll_stop_at {ι α : Type} {body : ι → α → Except Stop α} {before after : List ι} {x : ι} {w : Stop}
    (hb : ∀ y ∈ before, ∀ a, ∃ a', body y a = .ok a') (hx : ∀ a, body x a = .error w) (a : α) :
    foldAll body (before ++ x :: after) a = .error w := by
  induction before generalizing a with
  | nil => rw [List.nil_append, foldAll, hx]
  | cons y t ih =>
    obtain ⟨a', e⟩ := hb y List.mem_cons_self a
    rw [List.cons_append, foldAll, e]
    exact ih (fun z hz => hb z (List.mem_cons_of_mem _ hz)) a'

/-! ## One refused byte -/

theorem State.readByte_refused {s : State} {a : Nat} (h : dramAdmit s.params a = false) :
    s.readByte a = .error (.stuck a) := by simp [State.readByte, h]

theorem State.writeByte_refused {s : State} {a : Nat} (h : dramAdmit s.params a = false) (v : Byte) :
    s.writeByte a v = .stop (.stuck a) s := by simp [State.writeByte, h]

/-! ## MemRead -/

/-- The value `MemRead` accumulates, one byte after another, is the little-endian sum. -/
theorem State.wordAt_eq_foldl (s : State) (addr : Word) (n : Nat) :
    (List.range n).foldl (fun acc b => acc + (s.byteAt (byteAddress addr b)).toNat * 2 ^ (8 * b)) 0 =
      s.wordAt addr n := by
  unfold State.wordAt
  induction n with
  | zero => rfl
  | succ n ih => rw [List.range_succ, List.foldl_append, ih, List.foldl_cons, List.foldl_nil, Finset.sum_range_succ]

theorem State.memRead_reachable {s : State} {addr : Word} {n : Nat} (h : reachable s.params addr n) :
    s.memRead addr n = .ok (s.wordAt addr n) := by
  rw [State.memRead_fold h, State.wordAt_eq_foldl]

/-- `MemRead` is stuck at byte b if the platform refuses it and admits the bytes before it. -/
theorem State.memRead_refused {s : State} {addr : Word} {b n : Nat} (hb : b < n) (h : reachable s.params addr b)
    (hr : dramAdmit s.params (byteAddress addr b) = false) :
    s.memRead addr n = .error (.stuck (byteAddress addr b)) := by
  obtain ⟨after, e⟩ := range_split hb
  rw [State.memRead, foldRange_eq_foldAll, e]
  refine foldAll_stop_at (fun c hc acc => ?_) (fun acc => ?_) 0
  · rw [State.readByte_admitted (h c (List.mem_range.mp hc))]
    exact ⟨_, rfl⟩
  · rw [State.readByte_refused hr]

/-- Settles O22: a whole read by the sum its loop accumulates, a refused one by the loop's stop at that byte. -/
theorem memReadLittleEndian : Obligations.MemReadLittleEndian :=
  fun _ _ _ => ⟨State.memRead_reachable, fun _ => State.memRead_refused⟩

/-! ## MemWrite -/

/-- The state after the first n byte writes of `MemWrite` of a pattern, in increasing order. -/
def State.withPattern (s : State) (addr : Word) (n v : Nat) : State :=
  s.withDram (sparseSetAll Config.unwrittenByte (byteAddress addr) (fun b _ => byteOf v b) (List.range n) s.dram)

@[simp] theorem State.withPattern_params (s : State) (addr : Word) (n v : Nat) :
    (s.withPattern addr n v).params = s.params := rfl

theorem State.withPattern_dramOnly (s : State) (addr : Word) (n v : Nat) : dramOnly s (s.withPattern addr n v) := rfl

theorem State.withPattern_byteAt_eq (s : State) (addr : Word) (n v x : Nat) :
    (s.withPattern addr n v).byteAt x = sparseGet Config.unwrittenByte
      (sparseSetAll Config.unwrittenByte (byteAddress addr) (fun b _ => byteOf v b) (List.range n) s.dram) x := rfl

/-- The n addresses of an access of at most 2^64 bytes are distinct, so each byte is what the pattern puts there. -/
theorem State.withPattern_byteAt (s : State) (addr : Word) {n b : Nat} (hn : n ≤ 2 ^ 64) (hb : b < n) (v : Nat) :
    (s.withPattern addr n v).byteAt (byteAddress addr b) = byteOf v b := by
  have hnd : ((List.range n).map (byteAddress addr)).Nodup :=
    List.nodup_range.map_on fun x hx y hy e =>
      byteAddress_inj ((List.mem_range.mp hx).trans_le hn) ((List.mem_range.mp hy).trans_le hn) e
  rw [State.withPattern_byteAt_eq, sparseGet_setAll _ hnd (List.mem_range.mpr hb)]

theorem State.withPattern_byteAt_other (s : State) {addr : Word} {n x : Nat} (h : ∀ b < n, x ≠ byteAddress addr b)
    (v : Nat) : (s.withPattern addr n v).byteAt x = s.byteAt x := by
  rw [State.withPattern_byteAt_eq, sparseGet_setAll_other _ fun b hb e => h b (List.mem_range.mp hb) e.symm]
  rfl

theorem State.memWrite_reachable {s : State} {addr : Word} {n : Nat} (h : reachable s.params addr n) (v : Nat) :
    s.memWrite addr n v = .done (s.withPattern addr n v) := State.memWrite_done h v

/-- `MemWrite` is stuck at byte b if the platform refuses it and admits the bytes before it; those are written. -/
theorem State.memWrite_refused {s : State} {addr : Word} {b n : Nat} (hb : b < n) (h : reachable s.params addr b)
    (hr : dramAdmit s.params (byteAddress addr b) = false) (v : Nat) :
    s.memWrite addr n v = .stop (.stuck (byteAddress addr b)) (s.withPattern addr b v) := by
  obtain ⟨after, e⟩ := range_split hb
  have hbefore := State.memWrite_reachable h v
  rw [State.memWrite, forRange_eq_runAll] at hbefore ⊢
  rw [e]
  exact runAll_stop_at hbefore (State.writeByte_refused (by simpa using hr) _)

/-- Settles O23: where the write ends, whole or at the first refused byte, the state is that of the byte writes made. -/
theorem memWriteLittleEndian : Obligations.MemWriteLittleEndian := by
  intro s addr n v hn
  refine ⟨fun h => ?_, fun b hb h hr => ?_⟩
  · exact ⟨s.withPattern addr n v, State.memWrite_reachable h v, s.withPattern_dramOnly addr n v,
      fun _ hb => s.withPattern_byteAt addr hn hb v, fun _ hx => s.withPattern_byteAt_other hx v⟩
  · exact ⟨s.withPattern addr b v, State.memWrite_refused hb h hr v, s.withPattern_dramOnly addr b v,
      fun _ he => s.withPattern_byteAt addr (hb.le.trans hn) he v, fun _ hx => s.withPattern_byteAt_other hx v⟩

/-- A platform that refuses the DRAM bytes 0 and 1. -/
def refusingLowBytes : State := State.resetWith { State.reset.params with dramRefused := [(0, 1)] }

/-- The refused clauses of both accesses, for one that wraps at the top of the address space: its bytes 1 and 2 are
refused, and byte 1, at address 0, stops it after one byte. -/
theorem witness_refusedAccess :
    refusingLowBytes.memRead 0xFFFFFFFFFFFFFFFF 4 = .error (.stuck 0) ∧
    refusingLowBytes.memWrite 0xFFFFFFFFFFFFFFFF 4 0x01020304 =
      .stop (.stuck 0) (refusingLowBytes.withPattern 0xFFFFFFFFFFFFFFFF 1 0x01020304) := by
  have hadmit : reachable refusingLowBytes.params 0xFFFFFFFFFFFFFFFF 1 := by unfold reachable; decide
  have hrefuse : dramAdmit refusingLowBytes.params (byteAddress 0xFFFFFFFFFFFFFFFF 1) = false := by decide
  exact ⟨State.memRead_refused (by omega) hadmit hrefuse, State.memWrite_refused (by omega) hadmit hrefuse _⟩

end Sys2Proof.Machine

/-!
PROOFS. The reserved operand bits (R96, R104): a field lies outside the mask of its operand's reserved bits, so it reads
the same whatever those bits hold; each operand decoder, and then `decode`, sees only fields.
-/

namespace Sys2Proof

/-! ## A field and the bits outside it -/

/-- Changing bits of a mask that has none in a field leaves the field as it is. -/
theorem extractLsb'_xor_reserved {w x mask : Word} {lo n : Nat} (h : mask.extractLsb' lo n = 0) :
    (w ^^^ (x &&& mask)).extractLsb' lo n = w.extractLsb' lo n := by
  rw [BitVec.extractLsb'_xor, BitVec.extractLsb'_and, h]
  simp

/-- Changing bits of a mask leaves every flag outside it as it is. -/
theorem getLsbD_xor_reserved {w x mask : Word} {i : Nat} (h : mask.getLsbD i = false) :
    (w ^^^ (x &&& mask)).getLsbD i = w.getLsbD i := by
  rw [BitVec.getLsbD_xor, BitVec.getLsbD_and, h, Bool.and_false, Bool.xor_false]

/-! ## The operand decoders read no reserved bit -/

/-- `rs1` bits 7:5 and 15:10 of `CONFIG_EX` are reserved. -/
theorem ExConfig.decode_reserved (rs1 rs2 x : Word) :
    ExConfig.decode (rs1 ^^^ (x &&& 0xFCE0)) rs2 = ExConfig.decode rs1 rs2 := by
  simp (disch := decide) only [ExConfig.decode, extractLsb'_xor_reserved, getLsbD_xor_reserved]

/-- `rs1` bits 31:5 of `CONFIG_LD` are reserved. -/
theorem LdConfig.decode_reserved (rs1 rs2 x : Word) :
    LdConfig.decode (rs1 ^^^ (x &&& 0xFFFFFFE0)) rs2 = LdConfig.decode rs1 rs2 := by
  simp (disch := decide) only [LdConfig.decode, extractLsb'_xor_reserved, getLsbD_xor_reserved]

/-- `rs1` bits 23:12 of `CONFIG_ST` are reserved. -/
theorem StConfig.decode_reserved (rs1 rs2 x : Word) :
    StConfig.decode (rs1 ^^^ (x &&& 0xFFF000)) rs2 = StConfig.decode rs1 rs2 := by
  simp (disch := decide) only [StConfig.decode, Pooling.decode, extractLsb'_xor_reserved]

/-- Bits 63:48 of both operands of `LOOP_WS_CONFIG_BOUNDS` are reserved. -/
theorem LoopBounds.decode_reserved (rs1 rs2 x y : Word) :
    LoopBounds.decode (rs1 ^^^ (x &&& 0xFFFF000000000000)) (rs2 ^^^ (y &&& 0xFFFF000000000000)) =
      LoopBounds.decode rs1 rs2 := by
  simp (disch := decide) only [LoopBounds.decode, extractLsb'_xor_reserved]

/-- `rs1` bits 63:3 of `LOOP_WS` are reserved. -/
theorem LoopFlags.decode_reserved (rs1 x : Word) :
    LoopFlags.decode (rs1 ^^^ (x &&& 0xFFFFFFFFFFFFFFF8)) = LoopFlags.decode rs1 := by
  simp (disch := decide) only [LoopFlags.decode, getLsbD_xor_reserved]

/-! ## Funct 0, by its selector (R95) -/

theorem decode_configEx {rs1 : Word} (h : rs1.extractLsb' 0 2 = 0) (rs2 : Word) :
    decode ⟨0, rs1, rs2⟩ = .ok (.configEx (ExConfig.decode rs1 rs2)) := by
  simp [decode, decodeConfig, h]

theorem decode_configLd {rs1 : Word} (h : rs1.extractLsb' 0 2 = 1) (rs2 : Word) :
    decode ⟨0, rs1, rs2⟩ = .ok (.configLd (LdConfig.decode rs1 rs2)) := by
  simp [decode, decodeConfig, h]

theorem decode_configSt {rs1 : Word} (h : rs1.extractLsb' 0 2 = 2) (rs2 : Word) :
    decode ⟨0, rs1, rs2⟩ = .ok (.configSt (StConfig.decode rs1 rs2)) := by
  simp [decode, decodeConfig, h]

/-- The selector keeps its value when bits of a mask outside it change. -/
theorem selector_xor_reserved {rs1 mask : Word} {sub : BitVec 2} (h : rs1.extractLsb' 0 2 = sub) (x : Word)
    (hm : mask.extractLsb' 0 2 = 0) : (rs1 ^^^ (x &&& mask)).extractLsb' 0 2 = sub :=
  (extractLsb'_xor_reserved hm).trans h

/-! ## The other functs with reserved bits (R91) -/

theorem decode_loopWsConfigBounds (rs1 rs2 : Word) :
    decode ⟨9, rs1, rs2⟩ = .ok (.loopWsConfigBounds (LoopBounds.decode rs1 rs2)) := rfl

/-- `rs2` of `LOOP_WS` holds no field. -/
theorem decode_loopWs (rs1 rs2 : Word) : decode ⟨8, rs1, rs2⟩ = .ok (.loopWs (LoopFlags.decode rs1)) := rfl

theorem decode_flush (rs1 rs2 : Word) : decode ⟨7, rs1, rs2⟩ = .ok .flush := rfl

theorem decode_fence (rs1 rs2 : Word) : decode ⟨127, rs1, rs2⟩ = .ok .fence := rfl

/-- Settles O7: both sides decode to one command, and its operand decoder reads no reserved bit. -/
theorem reservedBitsIgnored : Obligations.ReservedBitsIgnored := by
  intro rs1 rs2 x y
  refine ⟨fun h => ?configEx, fun h => ?configLd, fun h => ?configSt, ?bounds, ?loopWs, ?flush, ?fence⟩
  case configEx =>
    rw [decode_configEx (selector_xor_reserved h x (by decide)), decode_configEx h, ExConfig.decode_reserved]
  case configLd =>
    rw [decode_configLd (selector_xor_reserved h x (by decide)), decode_configLd h, LdConfig.decode_reserved]
  case configSt =>
    rw [decode_configSt (selector_xor_reserved h x (by decide)), decode_configSt h, StConfig.decode_reserved]
  case bounds => rw [decode_loopWsConfigBounds, decode_loopWsConfigBounds, LoopBounds.decode_reserved]
  case loopWs => rw [decode_loopWs, decode_loopWs, LoopFlags.decode_reserved]
  case flush => rw [decode_flush, decode_flush]
  case fence => rw [decode_fence, decode_fence]

end Sys2Proof

/-!
PROOFS. The address codec (R120 to R122): the encoding holds each field at its bits, the fields of an operand put side by
side are the operand, and a concatenation is the union of its parts, shifted.
-/

namespace Sys2Proof

/-- A flag is the slice of one bit at its place. -/
theorem ofBool_getLsbD_eq_extractLsb' {w : Nat} (x : BitVec w) (i : Nat) :
    BitVec.ofBool (x.getLsbD i) = x.extractLsb' i 1 := by
  apply BitVec.eq_of_getElem_eq
  intro j hj
  obtain rfl : j = 0 := by omega
  simp

namespace AddrOperand

/-! ## Where the encoding holds each field (R120) -/

/-- The encoding is the concatenation, whose width as a sum of the fields' widths the library's lemmas need. -/
theorem encode_eq_setWidth_append (o : AddrOperand) : o.encode =
    (o.rows ++ o.cols ++ BitVec.ofBool o.isAcc ++ BitVec.ofBool o.accumulate ++ BitVec.ofBool o.full ++ o.row :
      BitVec (16 + 16 + 1 + 1 + 1 + 29)).setWidth 64 := (BitVec.setWidth_eq _).symm

theorem encode_rows (o : AddrOperand) : o.encode.extractLsb' 48 16 = o.rows := by
  simp (disch := decide) only [encode_eq_setWidth_append, BitVec.extractLsb'_setWidth_of_le,
    BitVec.extractLsb'_append_eq_of_le, Nat.reduceSub, BitVec.extractLsb'_eq_self]

theorem encode_cols (o : AddrOperand) : o.encode.extractLsb' 32 16 = o.cols := by
  simp (disch := decide) only [encode_eq_setWidth_append, BitVec.extractLsb'_setWidth_of_le,
    BitVec.extractLsb'_append_eq_of_le, Nat.reduceSub, BitVec.extractLsb'_append_eq_right]

theorem encode_flags (o : AddrOperand) : o.encode.getLsbD 31 = o.isAcc ∧ o.encode.getLsbD 30 = o.accumulate ∧
    o.encode.getLsbD 29 = o.full := by
  simp only [encode_eq_setWidth_append, BitVec.getLsbD_setWidth, BitVec.getLsbD_append, BitVec.getLsbD_ofBool]
  simp

theorem encode_row (o : AddrOperand) : o.encode.extractLsb' 0 29 = o.row := by
  simp (disch := decide) only [encode_eq_setWidth_append, BitVec.extractLsb'_setWidth_of_le,
    BitVec.extractLsb'_append_eq_right]

/-! ## The two inverses, and the union (R122) -/

@[simp] theorem decode_encode (o : AddrOperand) : decode o.encode = o := by
  simp only [decode, encode_rows, encode_cols, encode_flags, encode_row]

/-- Each field begins where the one below it ends, so the slices join, one after another, to the whole operand. -/
@[simp] theorem encode_decode (op : Word) : (decode op).encode = op := by
  simp (disch := decide) only [encode, decode, ofBool_getLsbD_eq_extractLsb',
    BitVec.extractLsb'_append_extractLsb'_eq_extractLsb']
  exact BitVec.extractLsb'_eq_self

/-- A field's shift is the sum of the widths of the fields below it. -/
theorem encode_eq_union (o : AddrOperand) : o.encode =
    (o.rows.setWidth 64 <<< 48) ||| (o.cols.setWidth 64 <<< 32) ||| ((BitVec.ofBool o.isAcc).setWidth 64 <<< 31) |||
    ((BitVec.ofBool o.accumulate).setWidth 64 <<< 30) ||| ((BitVec.ofBool o.full).setWidth 64 <<< 29) |||
    o.row.setWidth 64 := by
  simp only [encode_eq_setWidth_append, BitVec.setWidth_append_eq_shiftLeft_setWidth_or, BitVec.shiftLeft_or_distrib,
    ← BitVec.shiftLeft_add]

end AddrOperand

/-- Settles O3, by the two inverses and the union. -/
theorem addressCodecInverse : Obligations.AddressCodecInverse :=
  ⟨AddrOperand.decode_encode, AddrOperand.encode_decode, AddrOperand.encode_eq_union⟩

end Sys2Proof

/-!
PROOFS. The data mover (R140, R141, R145, R147): the complete effect of a move-in whose rows are in range and whose source
bytes are admitted; the source values of the null DRAM address and of scale 1.0; the byte addresses of a move-out whose
stride no row overruns; and the copy that a move-in and a move-out make together.
-/

namespace Sys2Proof.Machine

/-! ## Scales (R205) -/

theorem scaleRNE_zero (scale : Half) : scaleRNE 0 scale = 0 := by
  simp [scaleRNE]

/-- Scale 1.0 is the significand 2^23 with the exponent -23: the product is an exact multiple of the shift. -/
theorem scaleRNE_one (x : Int) : scaleRNE x 0x3F800000 = x := by
  have hm : scaleSignificand 0x3F800000 = 2 ^ 23 := by decide
  have he : scaleExponent 0x3F800000 = -23 := by decide
  have hs : (0x3F800000 : Half).getLsbD 31 = false := by decide
  rw [scaleRNE, hm, he, hs]
  exact roundShift_mul x 23

theorem scaleSat_zero (n : Nat) (scale : Half) : scaleSat n 0 scale = 0 := by
  rw [scaleSat, scaleRNE_zero, satTo_of_fits zero_fits]

theorem scaleSat_one {n : Nat} {x : Int} (h : fitsIn n x = true) : scaleSat n x 0x3F800000 = x := by
  rw [scaleSat, scaleRNE_one, satTo_of_fits h]

/-! ## Consistent states -/

theorem State.consistent_legal {s : State} (h : s.consistent = true) : s.params.legal = true := by
  simp only [State.consistent, Bool.and_eq_true] at h
  tauto

theorem State.consistent_acc {s : State} (h : s.consistent = true) :
    Bank.fits s.acc s.params.accBits s.params.accRows s.params.dim = true := by
  simp only [State.consistent, Bool.and_eq_true] at h
  tauto

/-- A cell reads as a listed value or as 0, and both are in range. -/
theorem Bank.fits_cellAt {b : Bank} {n rows dim : Nat} (h : Bank.fits b n rows dim = true) (p : Params) (r c : Nat) :
    fitsIn n (cellAt p b r c) = true := by
  simp only [Bank.fits, Bool.and_eq_true, List.all_eq_true, decide_eq_true_eq] at h
  obtain ⟨-, hcells⟩ := h
  exact sparseGet_induction (P := fun v => fitsIn n v = true) 0 zero_fits (fun x hx => (hcells x hx).2) _

/-! ## Move-in -/

/-- Where its bytes are admitted, an element's source value is read without a stop (R140, R141). -/
theorem moveInRaw_reachable {s : State} {k : Fin 3} {addr : Word} {d : AddrOperand} (h : moveInReachable s k addr d)
    {r c : Nat} (hr : r < d.nrows) (hc : c < d.ncols) :
    moveInRaw s (s.cfg.load k) addr d r c = .ok (sourceValue s k addr d r c) :=
  moveInRaw_ok fun ha => State.memRead_reachable (h ha r hr c hc)

/-- What a move-in without error leaves behind: every target cell holds its moved value, every other cell and the bank that
is not the target are as they were, and nothing else but the report has changed (R140). -/
structure MovedIn (k : Fin 3) (addr : Word) (d : AddrOperand) (s t : State) : Prop where
  frame : t = ((s.withReport none).withSp t.sp).withAcc t.acc
  target : ∀ r < d.nrows, ∀ c < d.ncols, transferCell t d r c = movedValue s k addr d r c
  other : ∀ row, ∀ col < s.params.dim, (∀ r < d.nrows, ∀ c < d.ncols, ¬ isTarget s.params d r c row col) →
    t.spAt row col = s.spAt row col ∧ t.accAt row col = s.accAt row col
  sp : d.isAcc = true → t.sp = s.sp
  acc : d.isAcc = false → t.acc = s.acc

theorem MovedIn.report {k : Fin 3} {addr : Word} {d : AddrOperand} {s t : State} (h : MovedIn k addr d s t) :
    t.report = none := by rw [h.frame]; rfl

theorem MovedIn.params {k : Fin 3} {addr : Word} {d : AddrOperand} {s t : State} (h : MovedIn k addr d s t) :
    t.params = s.params := by rw [h.frame]; rfl

theorem MovedIn.cfg {k : Fin 3} {addr : Word} {d : AddrOperand} {s t : State} (h : MovedIn k addr d s t) :
    t.cfg = s.cfg := by rw [h.frame]; rfl

/-- A list of writes, one for each element of a transfer, to the element's cell of a bank. -/
def transferWrites (p : Params) (d : AddrOperand) (val : Nat × Nat → Int → Int) (b : Bank) : Bank :=
  sparseSetAll 0 (transferKey p d) val (pairsOf d.nrows d.ncols) b

theorem cellAt_transferWrites {p : Params} (hp : p.legal = true) {d : AddrOperand} (hd : d.nrows ≤ p.dim)
    (val : Nat × Nat → Int → Int) (b : Bank) {r c : Nat} (hr : r < d.nrows) (hc : c < d.ncols) :
    cellAt p (transferWrites p d val b) (transferRow p d r c) (transferCol p c) =
      val (r, c) (cellAt p b (transferRow p d r c) (transferCol p c)) :=
  cellAt_transferAll (Params.legal_dim hp) hd (nodup_pairsOf _ _) (fun _ hx => (mem_pairsOf.mp hx).1)
    (mem_pairsOf.mpr ⟨hr, hc⟩) b

theorem cellAt_transferWrites_other {p : Params} (hp : p.legal = true) {d : AddrOperand}
    (val : Nat × Nat → Int → Int) (b : Bank) {row col : Nat} (hcol : col < p.dim)
    (h : ∀ r < d.nrows, ∀ c < d.ncols, ¬ isTarget p d r c row col) :
    cellAt p (transferWrites p d val b) row col = cellAt p b row col := by
  refine cellAt_transferAll_other (Params.legal_dim hp) hcol (fun x hx => ?_) b
  obtain ⟨hr, hc⟩ := mem_pairsOf.mp hx
  exact h x.1 hr x.2 hc

/-- What element x of a move-in writes to a target cell that holds `old` (R140). -/
def moveInWrite (s : State) (k : Fin 3) (addr : Word) (d : AddrOperand) (x : Nat × Nat) (old : Int) : Int :=
  let scale := (s.cfg.load k).scale
  if d.isAcc then
    if d.accumulate then
      wrapTo s.params.accBits (old + scaleSat s.params.accBits (sourceValue s k addr d x.1 x.2) scale)
    else scaleSat s.params.accBits (sourceValue s k addr d x.1 x.2) scale
  else scaleSat s.params.elemBits (sourceValue s k addr d x.1 x.2) scale

theorem moveInWrite_transferCell (s : State) (k : Fin 3) (addr : Word) (d : AddrOperand) (r c : Nat) :
    moveInWrite s k addr d (r, c) (transferCell s d r c) = movedValue s k addr d r c := by
  cases h : d.isAcc <;> simp [moveInWrite, movedValue, transferCell, h]

/-- The loops of a move-in whose rows are in range and whose source bytes are admitted: one list of writes to the target
bank. -/
theorem moveInLoop_eq_writes {s : State} {k : Fin 3} {addr : Word} {d : AddrOperand} (hin : transferInRange s.params d)
    (hread : moveInReachable s k addr d) :
    moveInLoop k addr d s = .done (if d.isAcc
      then s.withAcc (transferWrites s.params d (moveInWrite s k addr d) s.acc)
      else s.withSp (transferWrites s.params d (moveInWrite s k addr d) s.sp)) := by
  have hrow : ∀ x ∈ pairsOf d.nrows d.ncols, transferRow s.params d x.1 x.2 < extentOf s.params d.isAcc := fun x hx => by
    obtain ⟨hr, hc⟩ := mem_pairsOf.mp hx
    exact hin x.1 hr x.2 hc
  have hraw : ∀ x ∈ pairsOf d.nrows d.ncols,
      moveInRaw s (s.cfg.load k) addr d x.1 x.2 = .ok (sourceValue s k addr d x.1 x.2) := fun x hx => by
    obtain ⟨hr, hc⟩ := mem_pairsOf.mp hx
    exact moveInRaw_reachable hread hr hc
  unfold moveInWrite
  cases hacc : d.isAcc <;> rw [hacc] at hrow
  case false => exact moveIn_sp_writes (raw := fun x => sourceValue s k addr d x.1 x.2) hacc hrow hraw
  case true => exact moveIn_acc_writes (raw := fun x => sourceValue s k addr d x.1 x.2) hacc hrow hraw

/-- The elements of a transfer of at most DIM rows lie in distinct cells, so each cell takes what its one element writes. -/
theorem moveInLoop_movedIn {s : State} {k : Fin 3} {addr : Word} {d : AddrOperand} (hp : s.params.legal = true)
    (hd : d.nrows ≤ s.params.dim) (hin : transferInRange s.params d) (hread : moveInReachable s k addr d) :
    ∃ t, moveInLoop k addr d s = .done t ∧ MovedIn k addr d s (t.withReport none) := by
  refine ⟨_, moveInLoop_eq_writes hin hread, ?_⟩
  cases hacc : d.isAcc
  case false =>
    refine ⟨rfl, fun r hr c hc => ?_, fun row col hcol h => ⟨cellAt_transferWrites_other hp _ s.sp hcol h, rfl⟩,
      fun h => by simp [hacc] at h, fun _ => rfl⟩
    rw [← moveInWrite_transferCell]
    simp only [transferCell, hacc, Bool.false_eq_true, if_false]
    exact cellAt_transferWrites hp hd (moveInWrite s k addr d) s.sp hr hc
  case true =>
    refine ⟨rfl, fun r hr c hc => ?_, fun row col hcol h => ⟨rfl, cellAt_transferWrites_other hp _ s.acc hcol h⟩,
      fun _ => rfl, fun h => by simp [hacc] at h⟩
    rw [← moveInWrite_transferCell]
    simp only [transferCell, hacc, if_true]
    exact cellAt_transferWrites hp hd (moveInWrite s k addr d) s.acc hr hc

/-- The complete effect of a move-in whose rows are in range and whose source bytes are admitted. -/
theorem exec_mvinOf_movedIn {s : State} {k : Fin 3} {addr : Word} {d : AddrOperand} (hp : s.params.legal = true)
    (hnull : d.isNull = false) (hd : d.nrows ≤ s.params.dim) (hin : transferInRange s.params d)
    (hread : moveInReachable s k addr d) : ∃ t, exec (mvinOf k addr d) s = .next t ∧ MovedIn k addr d s t := by
  obtain ⟨t, ht, hmoved⟩ := moveInLoop_movedIn hp hd hin hread
  refine ⟨t.withReport none, ?_, hmoved⟩
  rw [exec_mvinOf, moveIn_eq, hnull, decide_eq_false (Nat.not_lt.mpr hd), check_false, check_false, ht, Res.finish_done]

/-! ## The null DRAM address (R141) -/

/-- A move-in from address 0 reads no DRAM byte, so it needs none admitted. -/
theorem moveInReachable_null (s : State) (k : Fin 3) (d : AddrOperand) : moveInReachable s k 0 d :=
  fun h => absurd rfl h

theorem sourceValue_null (s : State) (k : Fin 3) (d : AddrOperand) (r c : Nat) : sourceValue s k 0 d r c = 0 := rfl

/-- Zero is moved in: an overwritten cell becomes 0, and a consistent cell plus 0 wraps to itself. -/
theorem movedValue_null {s : State} (h : s.consistent = true) (k : Fin 3) (d : AddrOperand) (r c : Nat) :
    movedValue s k 0 d r c = if d.isAcc = true ∧ d.accumulate = true then transferCell s d r c else 0 := by
  have hbits : 1 ≤ s.params.accBits := by
    obtain ⟨h8, -, -, hlt⟩ := Params.legal_bits (State.consistent_legal h)
    omega
  have hcell := Bank.fits_cellAt (State.consistent_acc h) s.params (transferRow s.params d r c) (transferCol s.params c)
  have hkeep : wrapTo s.params.accBits (s.accAt (transferRow s.params d r c) (transferCol s.params c)) =
      s.accAt (transferRow s.params d r c) (transferCol s.params c) := wrapTo_of_fits hbits hcell
  simp only [movedValue, transferCell, sourceValue_null, scaleSat_zero, add_zero, hkeep]
  cases d.isAcc <;> cases d.accumulate <;> rfl

theorem exec_mvout_null {s : State} {d : AddrOperand} (h : d.isNull = false) :
    exec (.mvout 0 d) s = .next (s.takeError (.fatal (.configurationViolation .nullOperand))) := by
  rw [exec_eq_finish]
  show (check d.isNull .nullOperand s (check true .nullOperand s _)).finish = _
  rw [h, check_false, check_true, Res.finish_violation]

/-- Settles O28: a move-in from address 0 is a move-in with every byte it reads admitted, and every value it moves 0. -/
theorem moveInFromNullAddress : Obligations.MoveInFromNullAddress := by
  intro k d s hs hnull hd hin
  obtain ⟨t, hexec, hmoved⟩ :=
    exec_mvinOf_movedIn (State.consistent_legal hs) hnull hd hin (moveInReachable_null s k d)
  exact ⟨t, hexec, hmoved.frame, fun r hr c hc => (hmoved.target r hr c hc).trans (movedValue_null hs k d r c),
    hmoved.other, hmoved.sp, hmoved.acc, exec_mvout_null hnull⟩

/-- A move-in from the null address completes where the platform refuses the byte at address 0, as the clearing of a tile
of the scratchpad and as an accumulation that changes nothing. -/
theorem witness_moveInNull : dramAdmit refusingLowBytes.params 0 = false ∧
    ∀ d ∈ [AddrOperand.spad 3 2 2, .acca 3 2 2],
      ∃ t, exec (mvinOf 0 0 d) refusingLowBytes = .next t ∧ MovedIn 0 0 d refusingLowBytes t := by
  refine ⟨by decide, fun d hd => exec_mvinOf_movedIn (by decide) ?_ ?_ ?_ (moveInReachable_null _ 0 d)⟩ <;>
    revert d
  · decide
  · decide
  · unfold transferInRange
    decide

/-! ## Byte addresses of a transfer -/

/-- An address computed on integers and reduced is the base plus the offset, in 64 bits (R140, R145). -/
theorem byteAddress_dramAddress (a : Word) (x e : Nat) :
    byteAddress (dramAddress (a.toNat + x)) e = byteAddress a (x + e) := by
  unfold byteAddress dramAddress
  rw [BitVec.ofNat_add, BitVec.ofNat_add, BitVec.ofNat_toNat, BitVec.setWidth_eq, BitVec.add_assoc]

theorem moveOutByte_eq (s : State) (addr : Word) (d : AddrOperand) (r c b : Nat) :
    moveOutByte s addr d r c b =
      byteAddress addr (r * s.cfg.storeStride.toNat + c * moveOutBytes s.params d + b) := by
  rw [moveOutByte, moveOutAddress, Nat.add_assoc, byteAddress_dramAddress]

/-- Where no row overruns the stride, the bytes of a move-out have distinct addresses: its extent is less than the address
space. -/
theorem moveOutByte_inj {s : State} {d : AddrOperand} (addr : Word)
    (hstride : d.ncols * moveOutBytes s.params d ≤ s.cfg.storeStride.toNat) {r c b r' c' b' : Nat}
    (hr : r < d.nrows) (hc : c < d.ncols) (hb : b < moveOutBytes s.params d)
    (hr' : r' < d.nrows) (hc' : c' < d.ncols) (hb' : b' < moveOutBytes s.params d)
    (h : moveOutByte s addr d r c b = moveOutByte s addr d r' c' b') : r = r' ∧ c = c' ∧ b = b' := by
  have hspace : d.nrows * s.cfg.storeStride.toNat ≤ 2 ^ 64 := by
    have hn : d.nrows ≤ 2 ^ 16 := d.rows.isLt.le
    have hs : s.cfg.storeStride.toNat ≤ 2 ^ 32 := s.cfg.storeStride.isLt.le
    exact (Nat.mul_le_mul hn hs).trans (by norm_num)
  have hrow := (cellKey_lt hc hb).trans_le hstride
  have hrow' := (cellKey_lt hc' hb').trans_le hstride
  rw [moveOutByte_eq, moveOutByte_eq, Nat.add_assoc, Nat.add_assoc] at h
  have hoff := byteAddress_inj ((cellKey_lt hr hrow).trans_le hspace) ((cellKey_lt hr' hrow').trans_le hspace) h
  obtain ⟨hrr, hcol⟩ := cellKey_inj hrow hrow' hoff
  exact ⟨hrr, cellKey_inj hb hb' hcol⟩

/-! ## Move-out without pooling -/

/-- DRAM after a move-out whose rows are in range and whose bytes are admitted is one list of byte writes (R145). -/
theorem exec_mvout_plain {s : State} {addr : Word} {d : AddrOperand} (hnull : d.isNull = false) (haddr : addr ≠ 0)
    (hpool : s.cfg.pool.stride = 0) (hd : d.nrows ≤ s.params.dim) (hin : transferInRange s.params d)
    (hwrite : moveOutReachable s addr d) :
    exec (.mvout addr d) s = .next ((s.withDram (writeBytes
      (byteWrites ((pairsOf d.nrows d.ncols).map (moveOutRun s addr d))) s.dram)).withReport none) := by
  have hloop : moveOutLoop addr d s = .done (s.withDram (writeBytes
      (byteWrites ((pairsOf d.nrows d.ncols).map (moveOutRun s addr d))) s.dram)) := by
    refine moveOut_writes (fun x hx => ?_) (fun x hx => ?_) <;> obtain ⟨hr, hc⟩ := mem_pairsOf.mp hx
    · exact hin x.1 hr x.2 hc
    · exact hwrite x.1 hr x.2 hc
  rw [exec_eq_finish]
  show (moveOut addr d s).finish = _
  rw [moveOut, hnull, beq_false_of_ne haddr, check_false, check_false, if_pos hpool, plainMoveOut_eq,
    decide_eq_false (Nat.not_lt.mpr hd), check_false, hloop, Res.finish_done]

/-- Where no row overruns the stride, no byte of a move-out hides another: each element is where the rule puts it. -/
theorem exec_mvout_bytes {s : State} {addr : Word} {d : AddrOperand} (hnull : d.isNull = false) (haddr : addr ≠ 0)
    (hpool : s.cfg.pool.stride = 0) (hd : d.nrows ≤ s.params.dim) (hin : transferInRange s.params d)
    (hwrite : moveOutReachable s addr d) (hstride : d.ncols * moveOutBytes s.params d ≤ s.cfg.storeStride.toNat) :
    ∃ t, exec (.mvout addr d) s = .next t ∧ t.report = none ∧
      ∀ r < d.nrows, ∀ c < d.ncols, ∀ b < moveOutBytes s.params d,
        t.byteAt (moveOutByte s addr d r c b) = byteOf (moveOutPattern s d (transferCell s d r c)) b := by
  refine ⟨_, exec_mvout_plain hnull haddr hpool hd hin hwrite, rfl, fun r hr c hc b hb => ?_⟩
  refine writeBytes_unhidden (run := moveOutRun s addr d) (x := (r, c)) (pairsOf_pairwise d.nrows d.ncols)
    (mem_pairsOf.mpr ⟨hr, hc⟩) hb (fun y hy b' hb' hlater hsame => ?_) s.dram
  obtain ⟨hyr, hyc⟩ := mem_pairsOf.mp hy
  obtain ⟨h1, h2, h3⟩ := moveOutByte_inj addr hstride hyr hyc hb' hr hc hb hsame
  rcases hlater with (h | ⟨-, h⟩) | ⟨-, h⟩ <;> omega

/-! ## The round trip (R147) -/

theorem runProgram_cons {i : Instr} {rest : List Instr} {s t : State} (h : exec i s = .next t) (hr : t.report = none) :
    runProgram (i :: rest) s = runProgram rest t := by simp [runProgram, h, hr]

/-- A scratchpad element is ELEM_BYTES long in both directions. -/
theorem moveInBytes_sp {d : AddrOperand} (h : d.isAcc = false) (p : Params) (l : LoadState) :
    moveInBytes p l d = p.elemBytes := by simp [moveInBytes, h]

theorem moveOutBytes_sp {d : AddrOperand} (h : d.isAcc = false) (p : Params) : moveOutBytes p d = p.elemBytes := by
  simp [moveOutBytes, h]

/-- With scale 1.0 a scratchpad cell takes the value in DRAM, which is narrow already. -/
theorem movedValue_scaleOne {s : State} {k : Fin 3} {addr : Word} {d : AddrOperand} (hp : s.params.legal = true)
    (hacc : d.isAcc = false) (hscale : (s.cfg.load k).scale = 0x3F800000) (ha : addr ≠ 0) (r c : Nat) :
    movedValue s k addr d r c = sextFrom s.params.elemBits
      (s.wordAt (sourceAddress s k addr s.params.elemBytes r c) s.params.elemBytes) := by
  obtain ⟨h8, hbytes, -, -⟩ := Params.legal_bits hp
  have hword := s.wordAt_lt (sourceAddress s k addr s.params.elemBytes r c) s.params.elemBytes
  rw [← hbytes] at hword
  have hsource : sourceValue s k addr d r c = sextFrom s.params.elemBits
      (s.wordAt (sourceAddress s k addr s.params.elemBytes r c) s.params.elemBytes) := by
    rw [sourceValue, moveInBytes_sp hacc, sourceElement, if_neg ha, ← hbytes]
  simp only [movedValue, hacc, Bool.false_eq_true, if_false, hscale, hsource]
  exact scaleSat_one (sextFrom_fits (by omega) hword)

/-- The pattern a move-out writes for a scratchpad element moved in with scale 1.0 is the word it was moved in from. -/
theorem moveOutPattern_moved {s t : State} {k : Fin 3} {addr : Word} {d : AddrOperand} (hp : s.params.legal = true)
    (hacc : d.isAcc = false) (hscale : (s.cfg.load k).scale = 0x3F800000) (ha : addr ≠ 0)
    (hmoved : MovedIn k addr d s t) {r c : Nat} (hr : r < d.nrows) (hc : c < d.ncols) :
    moveOutPattern t d (transferCell t d r c) =
      s.wordAt (sourceAddress s k addr s.params.elemBytes r c) s.params.elemBytes := by
  obtain ⟨-, hbytes, -, -⟩ := Params.legal_bits hp
  rw [hmoved.target r hr c hc, movedValue_scaleOne hp hacc hscale ha]
  simp only [moveOutPattern, hacc, Bool.false_eq_true, if_false, hmoved.params]
  refine bitsOf_sextFrom ?_
  have hword := s.wordAt_lt (sourceAddress s k addr s.params.elemBytes r c) s.params.elemBytes
  rwa [← hbytes] at hword

/-- Settles O35: the move-in leaves DRAM, parameters and configuration, so the move-out writes, at distinct addresses, the
words that were read. -/
theorem moveInMoveOutRoundTrip : Obligations.MoveInMoveOutRoundTrip := by
  intro k a b d s hp hnull hacc hd hin ha hb hscale hpool hstrides hstride hread hwrite
  obtain ⟨t, hmvin, hmoved⟩ := exec_mvinOf_movedIn hp hnull hd hin hread
  have hn : moveOutBytes t.params d = s.params.elemBytes := by rw [moveOutBytes_sp hacc, hmoved.params]
  obtain ⟨u, hmvout, hreport, hbytes⟩ := exec_mvout_bytes (s := t) hnull hb (by rwa [hmoved.cfg])
    (by rwa [hmoved.params]) (by rwa [hmoved.params])
    (by simpa only [moveOutReachable, moveOutAddress, hmoved.params, hmoved.cfg] using hwrite)
    (by rwa [hn, hmoved.cfg])
  refine ⟨u, ?run, hreport, fun r hr c hc e he => ?byte⟩
  case run => rw [runProgram_cons hmvin hmoved.report, runProgram_cons hmvout hreport, runProgram]
  case byte =>
    have hcopy := hbytes r hr c hc e (by rwa [hn])
    rw [moveOutPattern_moved hp hacc hscale ha hmoved hr hc, State.byteOf_wordAt _ _ _ _ he, moveOutByte_eq,
      sourceAddress, Nat.add_assoc a.toNat, byteAddress_dramAddress, hn, hmoved.cfg, hstrides] at hcopy
    exact hcopy

/-- The round trip from the state after reset, with rows as long as the stride, into a region that overlaps the one it is
read from. -/
theorem witness_roundTrip :
    runsSafely [.mvin2 0x1000 (.spad 30 2 16), .mvout 0x1001 (.spad 30 2 16)] State.reset := by
  obtain ⟨t, hrun, hreport, -⟩ := moveInMoveOutRoundTrip 1 0x1000 0x1001 (.spad 30 2 16) State.reset
    (by decide) (by decide) (by decide) (by decide) (by unfold transferInRange; decide) (by decide) (by decide) (by decide)
    (by decide) (by decide) (by decide) (fun _ _ _ _ _ _ _ => rfl) (fun _ _ _ _ _ _ => rfl)
  exact ⟨t, hrun, hreport⟩

end Sys2Proof.Machine

/-!
PROOFS. `PRELOAD` (R171): where the encoding holds the address part, the three checks of the operands, and the record
that a `PRELOAD` with acceptable operands leaves.
-/

namespace Sys2Proof

namespace AddrOperand

/-! ## The address part (R120, R121) -/

theorem addr32_decode (op : Word) : (decode op).addr32 = op.extractLsb' 0 32 := by
  simp (disch := decide) only [addr32, decode, ofBool_getLsbD_eq_extractLsb',
    BitVec.extractLsb'_append_extractLsb'_eq_extractLsb']

theorem addr32_eq_extractLsb'_encode (o : AddrOperand) : o.addr32 = o.encode.extractLsb' 0 32 := by
  rw [← addr32_decode, decode_encode]

/-! ## The checks of an operand (R126) -/

theorem overCounts_iff {p : Params} {o : AddrOperand} :
    o.overCounts p = true ↔ o.isNull = false ∧ (p.dim < o.nrows ∨ p.dim < o.ncols) := by
  simp [overCounts]

theorem overCounts_eq_false {p : Params} {o : AddrOperand}
    (h : o.isNull = true ∨ (o.nrows ≤ p.dim ∧ o.ncols ≤ p.dim)) : o.overCounts p = false := by
  rw [Bool.eq_false_iff, Ne, overCounts_iff]
  rintro ⟨hn, hover⟩
  rcases h with h | ⟨hr, hc⟩
  · rw [h] at hn
    cases hn
  · omega

theorem inAccumulator_iff {o : AddrOperand} : o.inAccumulator = true ↔ o.isNull = false ∧ o.isAcc = true := by
  simp [inAccumulator]

theorem inAccumulator_eq_false {o : AddrOperand} (h : o.isNull = true ∨ o.isAcc = false) :
    o.inAccumulator = false := by
  rcases h with h | h <;> simp [inAccumulator, h]

end AddrOperand

theorem decode_preload (rs1 rs2 : Word) :
    decode ⟨6, rs1, rs2⟩ = .ok (.preload (AddrOperand.decode rs1) (AddrOperand.decode rs2)) := rfl

end Sys2Proof

namespace Sys2Proof.Machine

/-! ## PRELOAD -/

theorem exec_preload (src dst : AddrOperand) (s : State) : exec (.preload src dst) s = (preloadRecord src dst s).finish :=
  exec_eq_finish (.preload src dst) s

theorem exec_preload_fromAccumulator {src : AddrOperand} (h : src.inAccumulator = true) (dst : AddrOperand)
    (s : State) : exec (.preload src dst) s =
      .next (s.takeError (.fatal (.configurationViolation .preloadFromAccumulator))) := by
  rw [exec_preload, preloadRecord, h, check_true, Res.finish_violation]

/-- Both count checks raise the same error, so it does not matter which operand is too large. -/
theorem exec_preload_overCounts {src dst : AddrOperand} {s : State} (hsrc : src.inAccumulator = false)
    (h : src.overCounts s.params = true ∨ dst.overCounts s.params = true) :
    exec (.preload src dst) s = .next (s.takeError (.fatal (.configurationViolation .countRange))) := by
  rw [exec_preload, preloadRecord, hsrc, check_false]
  cases hover : src.overCounts s.params with
  | true => rw [check_true, Res.finish_violation]
  | false =>
    have hdst : dst.overCounts s.params = true := h.resolve_left (by simp [hover])
    rw [check_false, hdst, check_true, Res.finish_violation]

/-- The state after a `PRELOAD` without error: the six fields of the record (R42, R171). -/
def State.preloaded (s : State) (src dst : AddrOperand) : State :=
  (s.withReport none).withPreload (tileRefOf src) (tileRefOf dst)

theorem exec_preload_accepted {src dst : AddrOperand} {s : State} (hacc : src.inAccumulator = false)
    (hsrc : src.overCounts s.params = false) (hdst : dst.overCounts s.params = false) :
    exec (.preload src dst) s = .next (s.preloaded src dst) := by
  rw [exec_preload, preloadRecord, hacc, hsrc, hdst, check_false, check_false, check_false]
  rfl

/-- Settles O36: the decoder's row, and the checks of R171 in their order. -/
theorem preloadRecords : Obligations.PreloadRecords := by
  intro src dst s
  refine ⟨?decodes, fun hn ha => ?fromAccumulator, fun hsrc hover => ?overCounts, fun hsrc hdst => ?accepted⟩
  case decodes => rw [decode_preload, AddrOperand.decode_encode, AddrOperand.decode_encode]
  case fromAccumulator => exact exec_preload_fromAccumulator (AddrOperand.inAccumulator_iff.mpr ⟨hn, ha⟩) dst s
  case overCounts =>
    exact exec_preload_overCounts hsrc (hover.imp AddrOperand.overCounts_iff.mpr AddrOperand.overCounts_iff.mpr)
  case accepted =>
    rw [exec_preload_accepted (AddrOperand.inAccumulator_eq_false (hsrc.imp_right And.left))
      (AddrOperand.overCounts_eq_false (hsrc.imp_right And.right)) (AddrOperand.overCounts_eq_false hdst),
      ← AddrOperand.addr32_eq_extractLsb'_encode, ← AddrOperand.addr32_eq_extractLsb'_encode]
    rfl

end Sys2Proof.Machine

/-!
PROOFS. The compute commands (R172 to R181): what the array computes where every read is in range, in either dataflow;
the result write as one change of the two banks; and the equivalence of the dataflows, in which the preloaded tile and the
second operand of the compute change places.
-/

namespace Sys2Proof

namespace AddrOperand

/-! ## The fields of the address part (R120) -/

theorem addr32_row (o : AddrOperand) : o.addr32.extractLsb' 0 29 = o.row := by
  simp (disch := decide) only [addr32, BitVec.extractLsb'_append_eq_right]

theorem addr32_isAcc (o : AddrOperand) : o.addr32.getLsbD 31 = o.isAcc := by
  rw [addr32_eq_extractLsb'_encode, BitVec.getLsbD_extractLsb']
  exact o.encode_flags.1

theorem addr32_accumulate (o : AddrOperand) : o.addr32.getLsbD 30 = o.accumulate := by
  rw [addr32_eq_extractLsb'_encode, BitVec.getLsbD_extractLsb']
  exact o.encode_flags.2.1

end AddrOperand

end Sys2Proof

namespace Sys2Proof.Machine

/-! ## The record of an operand reads as the operand (R42) -/

@[simp] theorem tileRefOf_isNull (o : AddrOperand) : (tileRefOf o).isNull = o.isNull := rfl
@[simp] theorem tileRefOf_rows (o : AddrOperand) : (tileRefOf o).rows.toNat = o.nrows := rfl
@[simp] theorem tileRefOf_cols (o : AddrOperand) : (tileRefOf o).cols.toNat = o.ncols := rfl
@[simp] theorem tileRefOf_base (o : AddrOperand) : (tileRefOf o).base = o.base := congrArg BitVec.toNat o.addr32_row
@[simp] theorem tileRefOf_toAcc (o : AddrOperand) : (tileRefOf o).toAcc = o.isAcc := o.addr32_isAcc
@[simp] theorem tileRefOf_accumulate (o : AddrOperand) : (tileRefOf o).accumulate = o.accumulate := o.addr32_accumulate

theorem tileRefOf_fits {p : Params} {o : AddrOperand} (h : o.nrows ≤ p.dim ∧ o.ncols ≤ p.dim) :
    (tileRefOf o).fits p = true := by simp [TileRef.fits, h]

@[simp] theorem State.preloaded_params (s : State) (src dst : AddrOperand) :
    (s.preloaded src dst).params = s.params := rfl
@[simp] theorem State.preloaded_cfg (s : State) (src dst : AddrOperand) : (s.preloaded src dst).cfg = s.cfg := rfl
@[simp] theorem State.preloaded_pre (s : State) (src dst : AddrOperand) :
    (s.preloaded src dst).pre = tileRefOf src := rfl
@[simp] theorem State.preloaded_out (s : State) (src dst : AddrOperand) :
    (s.preloaded src dst).out = tileRefOf dst := rfl
@[simp] theorem State.preloaded_spAt (s : State) (src dst : AddrOperand) (r c : Nat) :
    (s.preloaded src dst).spAt r c = s.spAt r c := rfl

theorem tileInRange_preloaded {s : State} {src : AddrOperand} (h : operandInRange s.params src 1) (dst : AddrOperand) :
    tileInRange (s.preloaded src dst) := by
  simpa [tileInRange, operandInRange] using h

theorem destinationInRange_preloaded {s : State} {dst : AddrOperand}
    (h : dst.ncols ≠ 0 → ∀ i < dst.nrows, dst.base + i < extentOf s.params dst.isAcc) (src : AddrOperand) :
    destinationInRange (s.preloaded src dst) := by
  simpa [destinationInRange] using fun _ => h

/-- Without transposition the tile, the bias and the B operand are one and the same read of an operand (R173, R174). -/
theorem tileEntry_preloaded {s : State} (h : s.cfg.bTranspose = false) (src dst : AddrOperand) (i j : Nat) :
    tileEntry (s.preloaded src dst) i j = entryD s src i j := by
  simp [tileEntry, entryD, h]

theorem entryB_eq_entryD {s : State} (h : s.cfg.bTranspose = false) (b : AddrOperand) (k j : Nat) :
    entryB s b k j = entryD s b k j := by
  simp [entryB, entryD, h]

/-! ## What the array computes (R173 to R178) -/

/-- A list of writes, one for each cell of a DIM by DIM matrix. -/
def matrixWrites (p : Params) (val : Nat × Nat → Int → Int) (b : Bank) : Bank :=
  sparseSetAll 0 (matrixKey p) val (pairsOf p.dim p.dim) b

theorem cellAt_matrixWrites (p : Params) (val : Nat × Nat → Int → Int) (b : Bank) {i j : Nat} (hi : i < p.dim)
    (hj : j < p.dim) : cellAt p (matrixWrites p val b) i j = val (i, j) (cellAt p b i j) :=
  cellAt_matrixAll (nodup_pairsOf _ _) (fun _ hx => (mem_pairsOf.mp hx).2) (mem_pairsOf.mpr ⟨hi, hj⟩) b

section

variable {s : State} {a b : AddrOperand} {doPreload : Bool}

/-- The preload step, or its omission, leaves in `PE` what the multiply-accumulate starts from. -/
theorem startPe_done (h : doPreload = true → tileInRange s) :
    ∃ pe, (if doPreload then preloadStep s else .done s) = .done (s.withPe pe) ∧
      ∀ i < s.params.dim, ∀ j < s.params.dim, cellAt s.params pe i j = startPe s doPreload i j := by
  cases doPreload with
  | false => exact ⟨s.pe, rfl, fun _ _ _ _ => rfl⟩
  | true => exact ⟨matrixWrites s.params (fun x _ => tileEntry s x.1 x.2) s.pe, preloadStep_done (h rfl),
      fun _ hi _ hj => cellAt_matrixWrites _ _ _ hi hj⟩

/-- In OS dataflow the result is in `PE`, accumulated in place onto the start value (R175). -/
theorem computeBody_os (hos : s.cfg.dataflow = .os) (hd : 0 < s.params.dim) (htile : doPreload = true → tileInRange s)
    (ha : operandInRange s.params a s.cfg.aStride.toNat) (hb : operandInRange s.params b 1) :
    ∃ pe, computeBody a b doPreload s = writeResult pe (s.withPe pe) ∧
      ∀ i < s.params.dim, ∀ j < s.params.dim, cellAt s.params pe i j = osResult s doPreload a b i j := by
  obtain ⟨start, hstart, hcell⟩ := startPe_done htile
  refine ⟨matrixWrites s.params (fun x old => wrapTo s.params.accBits (old + osProducts s a b x.1 x.2)) start,
    ?_, fun i hi j hj => ?_⟩
  · have hmac := macOs_done (s := s.withPe start) (a := a) (b := b) hd ha hb
    have hflow : (s.withPe start).cfg.dataflow = .os := hos
    rw [computeBody, hstart, Res.andThen_done, macAndWrite, hflow]
    simp only [hmac, Res.andThen_done]
    rfl
  · rw [cellAt_matrixWrites _ _ _ hi hj, hcell i hi j hj]
    rfl

/-- In WS dataflow `PE` holds the weights, and the result is a matrix of its own, seeded from the bias (R178). -/
theorem computeBody_ws (hws : s.cfg.dataflow = .ws) (hd : 0 < s.params.dim) (htile : doPreload = true → tileInRange s)
    (ha : operandInRange s.params a s.cfg.aStride.toNat) (hb : operandInRange s.params b 1) :
    ∃ pe res, computeBody a b doPreload s = writeResult res (s.withPe pe) ∧
      (∀ i < s.params.dim, ∀ j < s.params.dim, cellAt s.params pe i j = startPe s doPreload i j) ∧
      ∀ i < s.params.dim, ∀ j < s.params.dim, cellAt s.params res i j = wsResult s doPreload a b i j := by
  obtain ⟨start, hstart, hcell⟩ := startPe_done htile
  refine ⟨start, matrixWrites s.params
    (fun x _ => wrapTo s.params.accBits (entryD s b x.1 x.2 + wsProducts (s.withPe start) a x.1 x.2)) [],
    ?_, hcell, fun i hi j hj => ?_⟩
  · have hmac := macWs_ok (s := s.withPe start) (a := a) (b := b) hd ha hb
    have hflow : (s.withPe start).cfg.dataflow = .ws := hws
    rw [computeBody, hstart, Res.andThen_done, macAndWrite, hflow]
    simp only [hmac]
    rfl
  · have hsum : wsProducts (s.withPe start) a i j =
        ∑ k ∈ Finset.range s.params.dim, entryA s a i k * startPe s doPreload k j :=
      Finset.sum_congr rfl fun k hk => congrArg (entryA s a i k * ·) (hcell k (Finset.mem_range.mp hk) j hj)
    rw [cellAt_matrixWrites _ _ _ hi hj, hsum]
    rfl

end

/-! ## The result write (R179) -/

theorem sparseSetAll_congr {ι α : Type} [DecidableEq α] {d : α} {key : ι → Nat} {val val' : ι → α → α} {xs : List ι}
    (h : ∀ x ∈ xs, ∀ old, val x old = val' x old) (m : List (Nat × α)) :
    sparseSetAll d key val xs m = sparseSetAll d key val' xs m :=
  List.foldl_ext _ _ m fun m x hx => by rw [h x hx]

/-- The scratchpad after the write of the result matrix v. -/
def State.resultSp (s : State) (v : Nat → Nat → Int) : Bank :=
  if s.out.isNull = false ∧ s.out.toAcc = false then
    sparseSetAll 0 (destinationKey s) (fun x _ => sysQuantize s.params s.cfg (v x.1 x.2))
      (pairsOf s.out.rows.toNat s.out.cols.toNat) s.sp
  else s.sp

/-- The accumulator after the write of the result matrix v. -/
def State.resultAcc (s : State) (v : Nat → Nat → Int) : Bank :=
  if s.out.isNull = false ∧ s.out.toAcc = true then
    sparseSetAll 0 (destinationKey s)
      (fun x old => if s.out.accumulate then wrapTo s.params.accBits (old + v x.1 x.2) else v x.1 x.2)
      (pairsOf s.out.rows.toNat s.out.cols.toNat) s.acc
  else s.acc

/-- The state after the write of the result matrix v: one bank changes, the one the record selects. -/
def State.withResult (s : State) (v : Nat → Nat → Int) : State := (s.withSp (s.resultSp v)).withAcc (s.resultAcc v)

section

variable {s : State} {v : Nat → Nat → Int}

/-- The extent of a destination that fits lies inside the array. -/
theorem destination_lt_dim (hnull : s.out.isNull = false) (hfits : s.out.fits s.params = true) {x : Nat × Nat}
    (hx : x ∈ pairsOf s.out.rows.toNat s.out.cols.toNat) : x.1 < s.params.dim ∧ x.2 < s.params.dim := by
  obtain ⟨hr, hc⟩ := mem_pairsOf.mp hx
  simp only [TileRef.fits, hnull, Bool.false_or, Bool.and_eq_true, decide_eq_true_eq] at hfits
  exact ⟨hr.trans_le hfits.1, hc.trans_le hfits.2⟩

/-- The result write depends on the entries of the matrix inside the array only. -/
theorem writeResult_eq_withResult (hfits : s.out.fits s.params = true) (hin : destinationInRange s) {res : Bank}
    (hres : ∀ i < s.params.dim, ∀ j < s.params.dim, cellAt s.params res i j = v i j) :
    writeResult res s = .done (s.withResult v) := by
  cases hnull : s.out.isNull
  case true =>
    rw [writeResult_null hnull, State.withResult, State.resultSp, State.resultAcc, hnull]
    rfl
  case false =>
    have hv : ∀ x ∈ pairsOf s.out.rows.toNat s.out.cols.toNat, cellAt s.params res x.1 x.2 = v x.1 x.2 := fun x hx =>
      have ⟨hi, hj⟩ := destination_lt_dim hnull hfits hx
      hres x.1 hi x.2 hj
    have hrow : ∀ x ∈ pairsOf s.out.rows.toNat s.out.cols.toNat,
        s.out.base + x.1 < extentOf s.params s.out.toAcc := fun x hx => by
      obtain ⟨hr, hc⟩ := mem_pairsOf.mp hx
      exact hin hnull (by omega) x.1 hr
    cases hacc : s.out.toAcc <;> rw [hacc] at hrow
    case false =>
      rw [writeResult_sp hnull hacc hrow, sparseSetAll_congr fun x hx _ => by rw [hv x hx], State.withResult,
        State.resultSp, State.resultAcc, if_pos ⟨hnull, hacc⟩, if_neg (by simp [hacc])]
      rfl
    case true =>
      rw [writeResult_acc hnull hacc hrow, sparseSetAll_congr fun x hx _ => by rw [hv x hx], State.withResult,
        State.resultSp, State.resultAcc, if_neg (by simp [hacc]), if_pos ⟨hnull, hacc⟩]
      rfl

section

variable (hnull : s.out.isNull = false) (hfits : s.out.fits s.params = true) {i j : Nat}
  (hi : i < s.out.rows.toNat) (hj : j < s.out.cols.toNat)
include hnull hfits hi hj

theorem State.withResult_spAt (hacc : s.out.toAcc = false) :
    (s.withResult v).spAt (s.out.base + i) j = sysQuantize s.params s.cfg (v i j) := by
  show cellAt s.params (s.resultSp v) _ _ = _
  rw [State.resultSp, if_pos ⟨hnull, hacc⟩]
  exact cellAt_destinationAll (nodup_pairsOf _ _) (fun x hx => (destination_lt_dim hnull hfits hx).2)
    (mem_pairsOf.mpr ⟨hi, hj⟩) s.sp

theorem State.withResult_accAt (hacc : s.out.toAcc = true) : (s.withResult v).accAt (s.out.base + i) j =
    if s.out.accumulate then wrapTo s.params.accBits (s.accAt (s.out.base + i) j + v i j) else v i j := by
  show cellAt s.params (s.resultAcc v) _ _ = _
  rw [State.resultAcc, if_pos ⟨hnull, hacc⟩]
  exact cellAt_destinationAll (nodup_pairsOf _ _) (fun x hx => (destination_lt_dim hnull hfits hx).2)
    (mem_pairsOf.mpr ⟨hi, hj⟩) s.acc

end

end

/-- With shift 0 and no activation the system-side pipeline is a saturation (R207). -/
theorem sysQuantize_saturates {p : Params} {cfg : Cfg} (hshift : cfg.sysShift = 0) (hact : cfg.sysAct = .identity)
    (v : Int) : sysQuantize p cfg v = satTo p.elemBits v := by
  rw [sysQuantize, hshift, hact]
  rfl

/-! ## A preload and the compute that uses it (R171, R176) -/

/-- `PRELOAD` and then `COMPUTE_PRELOADED`, where the body of the compute writes the result matrix v. -/
theorem runProgram_preload_compute {s : State} {src dst a bd : AddrOperand} {v : Nat → Nat → Int}
    (hsrc : src.arrayOperand s.params = true) (ha : a.arrayOperand s.params = true)
    (hbd : bd.arrayOperand s.params = true) (hdst : dst.nrows ≤ s.params.dim ∧ dst.ncols ≤ s.params.dim)
    (hrow : dst.ncols ≠ 0 → ∀ i < dst.nrows, dst.base + i < extentOf s.params dst.isAcc) {pe res : Bank}
    (hbody : computeBody a bd true (s.preloaded src dst) = writeResult res ((s.preloaded src dst).withPe pe))
    (hres : ∀ i < s.params.dim, ∀ j < s.params.dim, cellAt s.params res i j = v i j) :
    runProgram [.preload src dst, .computePreloaded a bd] s =
      .next ((((s.preloaded src dst).withPe pe).withResult v).withReport none) := by
  obtain ⟨hacc, hcounts, -⟩ := AddrOperand.arrayOperand_cases hsrc
  have hpreload := exec_preload_accepted hacc hcounts (AddrOperand.overCounts_eq_false (.inr hdst))
  have hcompute : exec (computeOf true a bd) (s.preloaded src dst) =
      .next ((((s.preloaded src dst).withPe pe).withResult v).withReport none) := by
    rw [exec_computeOf, compute_accepted (s := s.preloaded src dst) ha hbd, hbody,
      writeResult_eq_withResult (s := (s.preloaded src dst).withPe pe) (tileRefOf_fits hdst)
        (destinationInRange_preloaded hrow src) hres, Res.finish_done]
  rw [runProgram_cons hpreload rfl, runProgram_cons (i := .computePreloaded a bd) hcompute rfl, runProgram]

section

variable {s : State} {dst : AddrOperand} (hnull : dst.isNull = false)
  (hdst : dst.nrows ≤ s.params.dim ∧ dst.ncols ≤ s.params.dim) {i j : Nat} (hi : i < dst.nrows) (hj : j < dst.ncols)
include hnull hdst hi hj

/-- What the two leave in a cell of a scratchpad destination. -/
theorem preloaded_withResult_spAt (hbank : dst.isAcc = false) (src : AddrOperand) (pe : Bank) (v : Nat → Nat → Int) :
    (((s.preloaded src dst).withPe pe).withResult v).spAt (dst.base + i) j = sysQuantize s.params s.cfg (v i j) := by
  rw [← tileRefOf_base]
  exact State.withResult_spAt (s := (s.preloaded src dst).withPe pe) hnull (tileRefOf_fits hdst) hi hj
    ((tileRefOf_toAcc dst).trans hbank)

/-- What the two leave in a cell of an overwriting accumulator destination. -/
theorem preloaded_withResult_accAt (hbank : dst.isAcc = true) (hover : dst.accumulate = false) (src : AddrOperand)
    (pe : Bank) (v : Nat → Nat → Int) :
    (((s.preloaded src dst).withPe pe).withResult v).accAt (dst.base + i) j = v i j := by
  have hcell := State.withResult_accAt (s := (s.preloaded src dst).withPe pe) (v := v) hnull (tileRefOf_fits hdst) hi hj
    ((tileRefOf_toAcc dst).trans hbank)
  simpa [hover] using hcell

end

/-! ## Dataflow equivalence (R181) -/

/-- A state with the dataflow of the array chosen. -/
def State.inDataflow (s : State) (df : Dataflow) : State := s.withCfg { s.cfg with dataflow := df }

/-- `D + A*B` at (i, j), wrapped to the accumulator's width (R181). -/
def biasedProduct (s : State) (a b d : AddrOperand) (i j : Nat) : Int :=
  wrapTo s.params.accBits (entryD s d i j + ∑ k ∈ Finset.range s.params.dim, entryA s a i k * entryB s b k j)

/-- In OS dataflow D is preloaded, and the compute takes A and B. -/
theorem osResult_preloaded {s : State} (hT : s.cfg.bTranspose = false) (a b d dst : AddrOperand) (i j : Nat) :
    osResult ((s.inDataflow .os).preloaded d dst) true a b i j = biasedProduct s a b d i j := by
  have htile : startPe ((s.inDataflow .os).preloaded d dst) true i j = entryD s d i j :=
    tileEntry_preloaded (s := s.inDataflow .os) hT d dst i j
  rw [osResult, htile]
  rfl

/-- In WS dataflow B is preloaded as the weights, and the compute takes A and the bias D. -/
theorem wsResult_preloaded {s : State} (hT : s.cfg.bTranspose = false) (a b d dst : AddrOperand) (i j : Nat) :
    wsResult ((s.inDataflow .ws).preloaded b dst) true a d i j = biasedProduct s a b d i j := by
  have hweight : ∀ k, startPe ((s.inDataflow .ws).preloaded b dst) true k j = entryB s b k j := fun k =>
    (tileEntry_preloaded (s := s.inDataflow .ws) hT b dst k j).trans (entryB_eq_entryD hT b k j).symm
  simp only [wsResult, hweight]
  rfl

/-- The result write reads neither the dataflow nor `PE` nor the preloaded tile, so both sequences change the banks
alike. -/
theorem withResult_banks_inDataflow (s : State) (src src' dst : AddrOperand) (pe pe' : Bank) (v : Nat → Nat → Int) :
    ((((s.inDataflow .os).preloaded src dst).withPe pe).withResult v).sp =
      ((((s.inDataflow .ws).preloaded src' dst).withPe pe').withResult v).sp ∧
    ((((s.inDataflow .os).preloaded src dst).withPe pe).withResult v).acc =
      ((((s.inDataflow .ws).preloaded src' dst).withPe pe').withResult v).acc := ⟨rfl, rfl⟩

/-- Settles O42: each sequence writes the wrapped `D + A*B` as its result matrix, and the result write is the same. -/
theorem dataflowEquivalence : Obligations.DataflowEquivalence := by
  intro a b d dst s hs _ hT hshift hact ha hb hd hnull hrows hcols hinA hinB hinD hdst
  have hdim := Params.legal_dim (State.consistent_legal hs)
  obtain ⟨pe, hos, hosCell⟩ := computeBody_os (s := (s.inDataflow .os).preloaded d dst) (doPreload := true) rfl hdim
    (fun _ => tileInRange_preloaded hinD dst) hinA hinB
  obtain ⟨pe', res, hws, -, hwsCell⟩ := computeBody_ws (s := (s.inDataflow .ws).preloaded b dst) (doPreload := true) rfl
    hdim (fun _ => tileInRange_preloaded hinB dst) hinA hinD
  have hosRun := runProgram_preload_compute (s := s.inDataflow .os) (v := biasedProduct s a b d) hd ha hb ⟨hrows, hcols⟩
    hdst hos fun i hi j hj => (hosCell i hi j hj).trans (osResult_preloaded hT a b d dst i j)
  have hwsRun := runProgram_preload_compute (s := s.inDataflow .ws) (v := biasedProduct s a b d) hb ha hd ⟨hrows, hcols⟩
    hdst hws fun i hi j hj => (hwsCell i hi j hj).trans (wsResult_preloaded hT a b d dst i j)
  obtain ⟨hsp, hacc⟩ := withResult_banks_inDataflow s d b dst pe pe' (biasedProduct s a b d)
  refine ⟨_, _, hosRun, hwsRun, rfl, rfl, hsp, hacc, fun i hi j hj =>
    ⟨fun hbank => ?scratchpad, fun hbank hover => ?accumulator⟩⟩
  case scratchpad =>
    exact (preloaded_withResult_spAt (s := s.inDataflow .os) hnull ⟨hrows, hcols⟩ hi hj hbank d pe _).trans
      (sysQuantize_saturates hshift hact _)
  case accumulator =>
    exact preloaded_withResult_accAt (s := s.inDataflow .os) hnull ⟨hrows, hcols⟩ hi hj hbank hover d pe _

/-- The block after reset with the 1 by 1 matrices 3, 5 and 120 in scratchpad rows 0, 1 and 2. -/
def threeOperands : State := State.reset.withSp [(0, 3), (16, 5), (32, 120)]

/-- Both sequences on these matrices: 120 + 3 * 5 saturates to 127 in a scratchpad destination, and is 135 in an
overwriting accumulator destination. -/
theorem witness_dataflows :
    (∃ t u, runProgram [.preload (.spad 2 1 1) (.spad 3 1 1), .computePreloaded (.spad 0 1 1) (.spad 1 1 1)]
        (threeOperands.inDataflow .os) = .next t ∧
      runProgram [.preload (.spad 1 1 1) (.spad 3 1 1), .computePreloaded (.spad 0 1 1) (.spad 2 1 1)]
        (threeOperands.inDataflow .ws) = .next u ∧ t.sp = u.sp ∧ t.spAt 3 0 = 127) ∧
    (∃ t u, runProgram [.preload (.spad 2 1 1) (.accw 3 1 1), .computePreloaded (.spad 0 1 1) (.spad 1 1 1)]
        (threeOperands.inDataflow .os) = .next t ∧
      runProgram [.preload (.spad 1 1 1) (.accw 3 1 1), .computePreloaded (.spad 0 1 1) (.spad 2 1 1)]
        (threeOperands.inDataflow .ws) = .next u ∧ t.acc = u.acc ∧ t.accAt 3 0 = 135) := by
  have hrange : ∀ o ∈ [AddrOperand.spad 0 1 1, .spad 1 1 1, .spad 2 1 1], operandInRange threeOperands.params o 1 := by
    unfold operandInRange
    decide
  have hrun := fun dst hnull hr hc => dataflowEquivalence (.spad 0 1 1) (.spad 1 1 1) (.spad 2 1 1) dst threeOperands
    (by decide) (by decide) (by decide) (by decide) (by decide) (by decide) (by decide) (by decide) hnull hr hc
    (hrange _ (by simp)) (hrange _ (by simp)) (hrange _ (by simp))
  constructor
  · obtain ⟨t, u, ht, hu, -, -, hsp, -, hcell⟩ := hrun (.spad 3 1 1) (by decide) (by decide) (by decide) (by decide)
    refine ⟨t, u, ht, hu, hsp, ((hcell 0 (by decide) 0 (by decide)).1 rfl).trans (by decide)⟩
  · obtain ⟨t, u, ht, hu, -, -, -, hacc, hcell⟩ := hrun (.accw 3 1 1) (by decide) (by decide) (by decide) (by decide)
    refine ⟨t, u, ht, hu, hacc, ((hcell 0 (by decide) 0 (by decide)).2 rfl rfl).trans (by decide)⟩

end Sys2Proof.Machine

/-!
PROOFS. The quantizer (43_quantizer.md): a rounding shift is within half a unit, even on a tie (R200); saturation and
activation keep the narrow range (R201 to R203); the scale is the exact product rounded once (R204, R205); and the two
pipelines (R207, R208).
-/

namespace Sys2Proof.Machine

/-! ## The rounding shift (R200) -/

@[simp] theorem roundShift_by_zero (x : Int) : roundShift x 0 = x := rfl

/-- A shift by n + 1: the quotient, one more where bit n is set and a lower bit or the quotient's own last bit is. -/
theorem roundShift_succ (x : Int) (n : Nat) : roundShift x (n + 1) = x / 2 ^ (n + 1) +
    if x / 2 ^ n % 2 = 1 ∧ (x % 2 ^ n ≠ 0 ∨ x / 2 ^ (n + 1) % 2 = 1) then 1 else 0 := by
  simp [roundShift, bitAt, pow2]

/-- The result, scaled back, is less than half a unit away, or exactly half a unit and even. With q the quotient, b the
bit below it and r the bits below that, x is `2^n * (2q + b) + r`: the error is `-r` for b clear, `2^n - r` rounded up,
and `-2^n` for a tie left at an even q. -/
theorem roundShift_error (x : Int) (n : Nat) :
    |roundShift x (n + 1) * 2 ^ (n + 1) - x| < 2 ^ n ∨
    |roundShift x (n + 1) * 2 ^ (n + 1) - x| = 2 ^ n ∧ roundShift x (n + 1) % 2 = 0 := by
  have hhalf : (0 : Int) < 2 ^ n := by positivity
  have hquot : x / 2 ^ (n + 1) = x / 2 ^ n / 2 := by rw [pow_succ, Int.ediv_ediv_of_nonneg hhalf.le]
  have hr0 := Int.emod_nonneg x hhalf.ne'
  have hr1 := Int.emod_lt_of_pos x hhalf
  have hx : x = 2 ^ n * (2 * (x / 2 ^ n / 2) + x / 2 ^ n % 2) + x % 2 ^ n := by
    rw [Int.mul_ediv_add_emod, Int.mul_ediv_add_emod]
  have hb := Int.emod_two_eq_zero_or_one (x / 2 ^ n)
  rw [roundShift_succ, hquot, pow_succ]
  clear hquot
  generalize x / 2 ^ n / 2 = q, x / 2 ^ n % 2 = b, x % 2 ^ n = r at *
  subst hx
  rcases hb with rfl | rfl
  · have herr : (q + 0) * (2 ^ n * 2) - (2 ^ n * (2 * q + 0) + r) = -r := by ring
    rw [if_neg (by simp), herr, abs_neg, abs_of_nonneg hr0]
    exact .inl hr1
  · by_cases hup : r ≠ 0 ∨ q % 2 = 1
    · have herr : (q + 1) * (2 ^ n * 2) - (2 ^ n * (2 * q + 1) + r) = 2 ^ n - r := by ring
      rw [if_pos ⟨rfl, hup⟩, herr, abs_of_pos (by omega)]
      omega
    · have herr : (q + 0) * (2 ^ n * 2) - (2 ^ n * (2 * q + 1) + r) = -2 ^ n - r := by ring
      rw [if_neg fun h => hup h.2, herr, show r = 0 by omega, sub_zero, abs_neg, abs_of_pos hhalf]
      omega

/-- The result is a nearest integer: scaled back it is at most half a unit away (R200). -/
theorem roundShift_nearest (x : Int) (n : Nat) : 2 * |roundShift x n * 2 ^ n - x| ≤ 2 ^ n := by
  cases n with
  | zero => simp
  | succ n =>
    have herr := roundShift_error x n
    rw [pow_succ 2 n] at *
    omega

/-- A tie goes to the even neighbour (R200). -/
theorem roundShift_tie_even {x : Int} {n : Nat} (h : 2 * |roundShift x n * 2 ^ n - x| = 2 ^ n) :
    roundShift x n % 2 = 0 := by
  cases n with
  | zero => simp at h
  | succ n =>
    have herr := roundShift_error x n
    rw [pow_succ 2 n] at *
    omega

/-- Settles O43: both bounds are those of the error, and the formula is the shift's by a positive amount. -/
theorem roundShiftNearestEven : Obligations.RoundShiftNearestEven := by
  intro x n
  refine ⟨roundShift_nearest x n, roundShift_tie_even, roundShift_by_zero x, fun hn => ?formula⟩
  obtain ⟨m, rfl⟩ := Nat.exists_eq_add_of_le' hn
  exact roundShift_succ x m

/-- Rounding does not increase the absolute value: a result beyond x would be a whole unit or more from `x / 2^n`. -/
theorem abs_roundShift_le (x : Int) (n : Nat) : |roundShift x n| ≤ |x| := by
  have hunit : (1 : Int) ≤ 2 ^ n := one_le_pow₀ one_le_two
  have hscaled : |roundShift x n| * 2 ^ n ≤ |roundShift x n * 2 ^ n - x| + |x| := by
    rw [← abs_of_pos (zero_lt_one.trans_le hunit), ← abs_mul, abs_of_pos (zero_lt_one.trans_le hunit)]
    simpa using abs_add_le (roundShift x n * 2 ^ n - x) x
  have hnear := roundShift_nearest x n
  by_contra! hlt
  nlinarith [abs_nonneg x]

/-! ## Saturation (R201, R202) -/

/-- Saturation, with the ends of the range written out. -/
theorem satTo_eq_clamp (n : Nat) (x : Int) :
    satTo n x = min (max x (-(2 : Int) ^ (n - 1))) ((2 : Int) ^ (n - 1) - 1) := by
  simp [satTo, minOf, maxOf, pow2]

theorem roundingSaturatingShift_fits (p : Params) (v : Int) (n : Nat) :
    fitsIn p.elemBits (roundingSaturatingShift p v n) = true := satTo_fits _ _

/-- An exact multiple whose quotient is in range becomes that quotient. -/
theorem roundingSaturatingShift_mul {p : Params} {q : Int} (hq : fitsIn p.elemBits q = true) (n : Nat) :
    roundingSaturatingShift p (q * 2 ^ n) n = q := by
  rw [roundingSaturatingShift, mul_comm, roundShift_mul, satTo_of_fits hq]

/-- Settles O44: the range is the saturation's, and an exact quotient in range is neither rounded nor clamped. -/
theorem roundingSaturatingShiftClamps : Obligations.RoundingSaturatingShiftClamps := by
  intro p v q n _
  obtain ⟨hmin, hmax⟩ := fitsIn_iff.mp (roundingSaturatingShift_fits p v n)
  refine ⟨satTo_eq_clamp _ _, hmin, hmax, ?multiple⟩
  rintro rfl hq0 hq1
  exact roundingSaturatingShift_mul (fitsIn_iff.mpr ⟨hq0, hq1⟩) n

/-! ## Activations (R203) -/

theorem activate_relu (sh : Nat) (x : Int) : activate .relu sh x = max x 0 := rfl

theorem activate_relu6 (sh : Nat) (x : Int) : activate .relu6 sh x = min (max x 0) (6 * 2 ^ sh) := by
  simp [activate, pow2]

/-- Settles O45: the bounds are those of the maximum and the minimum. -/
theorem activationBounds : Obligations.ActivationBounds := by
  intro p act sh x _
  have hbound : (0 : Int) ≤ 6 * 2 ^ sh := by positivity
  rw [activate_relu, activate_relu6]
  exact ⟨rfl, rfl, le_max_right _ _, rfl, le_min (le_max_right _ _) hbound, min_le_right _ _,
    fun hx => activate_fits hx act sh⟩

/-! ## Scaling (R204, R205) -/

/-- `(-1)^sign * m * x`, the exact product before the power of two (R205). -/
def scaleProduct (x : Int) (scale : Half) : Int := (if scale.getLsbD 31 then -1 else 1) * scaleSignificand scale * x

/-- The scale is the exact product times a power of two, rounded where the exponent is negative. -/
theorem scaleRNE_eq (x : Int) (scale : Half) : scaleRNE x scale =
    if 0 ≤ scaleExponent scale then scaleProduct x scale * 2 ^ (scaleExponent scale).toNat
    else roundShift (scaleProduct x scale) (-scaleExponent scale).toNat := by
  have hprod : (if scale.getLsbD 31 then -(scaleSignificand scale * x) else scaleSignificand scale * x) =
      scaleProduct x scale := by
    unfold scaleProduct
    split <;> ring
  simp only [scaleRNE, hprod, pow2, Nat.cast_pow, Nat.cast_ofNat]

theorem scaleRNE_of_exponent_nonneg {scale : Half} (h : 0 ≤ scaleExponent scale) (x : Int) :
    scaleRNE x scale = scaleProduct x scale * 2 ^ (scaleExponent scale).toNat := by
  rw [scaleRNE_eq, if_pos h]

theorem scaleRNE_of_exponent_neg {scale : Half} (h : scaleExponent scale < 0) (x : Int) :
    scaleRNE x scale = roundShift (scaleProduct x scale) (-scaleExponent scale).toNat := by
  rw [scaleRNE_eq, if_neg h.not_ge]

/-- The significand as the fields of the pattern give it (R204). -/
theorem scaleSignificand_cast (scale : Half) : (scaleSignificand scale : Int) =
    if (scale.extractLsb' 23 8).toNat = 0 then ((scale.extractLsb' 0 23).toNat : Int)
    else 2 ^ 23 + (scale.extractLsb' 0 23).toNat := by
  rw [scaleSignificand, scaleExponentField, Nat.cast_ite, Nat.cast_add, Nat.cast_pow, Nat.cast_ofNat]

/-- A pattern with significand 0 is a zero, of either sign, and scales every value to 0. -/
theorem scaleRNE_of_significand_zero {scale : Half} (h : scaleSignificand scale = 0) (x : Int) :
    scaleRNE x scale = 0 := by
  rw [scaleRNE_eq, scaleProduct, h]
  simp

/-- Scale -1.0: the significand 2^23 with the sign, and the exponent -23. -/
theorem scaleRNE_neg_one (x : Int) : scaleRNE x 0xBF800000 = -x := by
  have he : scaleExponent 0xBF800000 = -23 := by decide
  have hprod : scaleProduct x 0xBF800000 = 2 ^ 23 * -x := by
    rw [scaleProduct, show scaleSignificand 0xBF800000 = 2 ^ 23 by decide, if_pos (by decide)]
    ring
  rw [scaleRNE_of_exponent_neg (by rw [he]; decide), hprod, he]
  exact roundShift_mul (-x) 23

/-- Settles O46: by the sign of the exponent, with the rounding of the product for a negative one. -/
theorem scaleIsExactProductRoundedOnce : Obligations.ScaleIsExactProductRoundedOnce := by
  refine ⟨fun x p => ?product, scaleRNE_one, fun x => ⟨?plusZero, ?minusZero⟩, scaleRNE_zero, scaleRNE_neg_one⟩
  case product =>
    intro exp frac m e P
    have hP : P = scaleProduct x p := by rw [scaleProduct, scaleSignificand_cast]
    rw [hP]
    refine ⟨fun he => scaleRNE_of_exponent_nonneg he x, fun he => ?rounded⟩
    have hround : scaleRNE x p = roundShift (scaleProduct x p) (-e).toNat := scaleRNE_of_exponent_neg he x
    rw [hround]
    exact ⟨rfl, roundShift_nearest _ _, roundShift_tie_even⟩
  case plusZero => exact scaleRNE_of_significand_zero (by decide) x
  case minusZero => exact scaleRNE_of_significand_zero (by decide) x

/-! ## The pipelines (R207, R208) -/

theorem sysQuantize_fits (p : Params) (cfg : Cfg) (v : Int) : fitsIn p.elemBits (sysQuantize p cfg v) = true :=
  activate_fits (roundingSaturatingShift_fits p v _) _ _

theorem accReadout_fits (p : Params) (cfg : Cfg) (w : Int) : fitsIn p.elemBits (accReadout p cfg w) = true :=
  activate_fits (satTo_fits _ _) _ _

/-- At scale 1.0 the accumulator side is the shift alone. -/
theorem accReadout_of_scale_one {cfg : Cfg} (h : cfg.accScale = 0x3F800000) (p : Params) (w : Int) :
    accReadout p cfg w =
      activate cfg.accAct cfg.relu6Shift.toNat (roundingSaturatingShift p w cfg.accShift.toNat) := by
  rw [accReadout, scaleSat, h, scaleRNE_one, roundingSaturatingShift]

/-- At shift 0 the accumulator side is the scale alone. -/
theorem accReadout_of_shift_zero {cfg : Cfg} (h : cfg.accShift = 0) (p : Params) (w : Int) :
    accReadout p cfg w = activate cfg.accAct cfg.relu6Shift.toNat (scaleSat p.elemBits w cfg.accScale) := by
  rw [accReadout, show cfg.accShift.toNat = 0 by rw [h]; rfl, roundShift_by_zero]

/-- Settles O47: each pipeline ends in an activation of a saturated value, and a shift by 0 and scale 1.0 drop out. -/
theorem pipelinesRecoverEachFunction : Obligations.PipelinesRecoverEachFunction := by
  intro p cfg w _
  exact ⟨sysQuantize_fits p cfg w, accReadout_fits p cfg w, rfl, abs_roundShift_le w _, rfl,
    fun hscale => accReadout_of_scale_one hscale p w, fun hshift => accReadout_of_shift_zero hshift p w⟩

/-- The hypotheses above, met: the tie 3 / 2 goes to 2, the least narrow value is exact, the scale 2^23 has exponent 0,
the scale 0.75 has a negative one and rounds 3 * 0.75 to 2, and the reset configuration has scale 1.0 and shift 0. -/
theorem witness_quantizerRules :
    roundShift 3 1 % 2 = 0 ∧ roundingSaturatingShift Params.standard (-128 * 2 ^ 4) 4 = -128 ∧
    scaleRNE (-3) 0x4B000000 = -3 * 2 ^ 23 ∧ scaleRNE 3 0x3F400000 = 2 ∧
    accReadout Params.standard (Cfg.reset Params.standard) 300 = 127 ∧
    accReadout Params.standard (Cfg.reset Params.standard) (-300) = -128 :=
  ⟨roundShift_tie_even (by decide), roundingSaturatingShift_mul (by decide) 4,
    (scaleRNE_of_exponent_nonneg (by decide) _).trans (by decide),
    (scaleRNE_of_exponent_neg (by decide) _).trans (by decide),
    (accReadout_of_scale_one (by decide) _ _).trans (by decide),
    (accReadout_of_shift_zero (by decide) _ _).trans (by decide)⟩

end Sys2Proof.Machine

/-!
PROOFS. The configuration commands (44_config.md): what each test of a field says of its bits; the rejections of
`CONFIG_EX`, `CONFIG_LD` and `CONFIG_ST` in the order tested, and the fields each writes (R221 to R226); and the fourth
selector of funct 0, which selects no command (R227).
-/

namespace Sys2Proof

/-! ## The tests of the operand fields -/

theorem scaleNotFinite_iff {scale : Half} : scaleNotFinite scale = true ↔ scale.extractLsb' 23 8 = 255 := beq_iff_eq

theorem shiftTooLarge_iff {p : Params} {shift : Half} : shiftTooLarge p shift = true ↔ p.accBits ≤ shift.toNat :=
  decide_eq_true_iff

theorem transposeForbidden_iff {df : Dataflow} {aT bT : Bool} : transposeForbidden df aT bT = true ↔
    (df = .os ∧ aT = false ∧ bT = true) ∨ (df = .ws ∧ aT = true ∧ bT = true) := by
  simp [transposeForbidden, and_assoc]

theorem poolWindowEmpty_iff {g : Pooling} : poolWindowEmpty g = true ↔ g.stride ≠ 0 ∧ g.size = 0 := by
  simp [poolWindowEmpty]

/-- The shift test of `CONFIG_EX`: one of its three shift fields is too large (R221). -/
def ExConfig.anyShiftTooLarge (p : Params) (w : ExConfig) : Bool :=
  shiftTooLarge p w.accShift || shiftTooLarge p w.sysShift || shiftTooLarge p w.relu6Shift

theorem ExConfig.anyShiftTooLarge_iff {p : Params} {w : ExConfig} : w.anyShiftTooLarge p = true ↔
    p.accBits ≤ w.accShift.toNat ∨ p.accBits ≤ w.sysShift.toNat ∨ p.accBits ≤ w.relu6Shift.toNat := by
  simp [anyShiftTooLarge, shiftTooLarge_iff, or_assoc]

theorem ExConfig.anyShiftTooLarge_eq_false {p : Params} {w : ExConfig} (hacc : w.accShift.toNat < p.accBits)
    (hsys : w.sysShift.toNat < p.accBits) (hrelu6 : w.relu6Shift.toNat < p.accBits) :
    w.anyShiftTooLarge p = false := by
  rw [Bool.eq_false_iff, ne_eq, anyShiftTooLarge_iff]
  omega

/-! ## The selector that selects no command -/

theorem decode_reservedSubcommand {c : Command} (hf : c.funct = 0) (hsel : c.rs1.extractLsb' 0 2 = 3) :
    decode c = .error .reservedSubcommand := by
  simp [decode, decodeConfig, hf, hsel]

end Sys2Proof

namespace Sys2Proof.Machine

/-- The error of a word that selects no command is taken on the state that no longer lists the command (R98, R227). -/
theorem step_command_rejected {s : State} {c : Command} {rest : List HostAction} {e : DecodeError}
    (h : s.host = .command c :: rest) (hs : s.status = .running) (hd : decode c = .error e) :
    step s = .next ((s.withHost rest).takeError (decodeErrorOf e)) := by
  simp [step, fetch, presentCommand, takeCommand, h, hs, hd]

/-- Settles O12, from the decoder's rejection and what a step does with a rejected word. -/
theorem reservedSubcommandIsFatal : Obligations.ReservedSubcommandIsFatal :=
  fun _ _ _ h hs hf hsel => step_command_rejected h hs (decode_reservedSubcommand hf hsel)

/-! ## The codes of the activation and of the load state -/

theorem Activation.ofCode_accepted {code : BitVec 2} {act : Activation}
    (h : (code = 0 ∧ act = .identity) ∨ (code = 1 ∧ act = .relu) ∨ (code = 2 ∧ act = .relu6)) :
    Activation.ofCode code = some act := by
  obtain ⟨rfl, rfl⟩ | ⟨rfl, rfl⟩ | ⟨rfl, rfl⟩ := h <;> rfl

theorem Activation.exists_ofCode {code : BitVec 2} (h : code ≠ 3) : ∃ act, Activation.ofCode code = some act := by
  obtain ⟨_, e⟩ | ⟨_, e⟩ | ⟨_, e⟩ | ⟨h3, _⟩ := Activation.ofCode_eq code
  · exact ⟨_, e⟩
  · exact ⟨_, e⟩
  · exact ⟨_, e⟩
  · exact absurd h3 h

theorem exists_loadIndex {id : BitVec 2} (h : id ≠ 3) : ∃ k, loadIndex id = some k := by
  obtain ⟨_, e⟩ | ⟨_, e⟩ | ⟨_, e⟩ | ⟨h3, _⟩ := loadIndex_eq id
  · exact ⟨_, e⟩
  · exact ⟨_, e⟩
  · exact ⟨_, e⟩
  · exact absurd h3 h

/-! ## CONFIG_EX (R221, R222) -/

theorem exec_configEx_reservedActivation {w : ExConfig} (h : w.act = 3) (s : State) :
    exec (.configEx w) s = .next (s.takeError (.fatal (.configurationViolation .reservedActivation))) := by
  rw [exec_eq_finish, bodyOf, configEx, h]
  rfl

/-- With an activation, `CONFIG_EX` is its two checks and then its one write. -/
theorem exec_configEx_of_activation {w : ExConfig} {act : Activation} (h : Activation.ofCode w.act = some act)
    (s : State) : exec (.configEx w) s =
      (check (w.anyShiftTooLarge s.params) .shiftRange s <|
        check (transposeForbidden w.dataflow w.aTranspose w.bTranspose) .transposeCombination s <|
          .done (s.withCfg (s.cfg.withEx act w))).finish := by
  rw [exec_eq_finish, bodyOf, configEx, h]
  rfl

theorem exec_configEx_shiftRange {w : ExConfig} {s : State} (hact : w.act ≠ 3)
    (h : w.anyShiftTooLarge s.params = true) :
    exec (.configEx w) s = .next (s.takeError (.fatal (.configurationViolation .shiftRange))) := by
  obtain ⟨act, ha⟩ := Activation.exists_ofCode hact
  rw [exec_configEx_of_activation ha, h, check_true, Res.finish_violation]

theorem exec_configEx_transposeCombination {w : ExConfig} {s : State} (hact : w.act ≠ 3)
    (hshift : w.anyShiftTooLarge s.params = false)
    (h : transposeForbidden w.dataflow w.aTranspose w.bTranspose = true) :
    exec (.configEx w) s = .next (s.takeError (.fatal (.configurationViolation .transposeCombination))) := by
  obtain ⟨act, ha⟩ := Activation.exists_ofCode hact
  rw [exec_configEx_of_activation ha, hshift, check_false, h, check_true, Res.finish_violation]

theorem exec_configEx_accepted {w : ExConfig} {s : State} {act : Activation} (hact : Activation.ofCode w.act = some act)
    (hshift : w.anyShiftTooLarge s.params = false)
    (htr : transposeForbidden w.dataflow w.aTranspose w.bTranspose = false) :
    exec (.configEx w) s = .next ((s.withReport none).withCfg (s.cfg.withEx act w)) := by
  rw [exec_configEx_of_activation hact, hshift, check_false, htr, check_false, Res.finish_done]
  rfl

/-- Settles O49: the decoder's row, the three checks of R221 and R222 in their order, and the one write. -/
theorem configExWritesEightFields : Obligations.ConfigExWritesEightFields := by
  refine ⟨fun rs1 rs2 hsel => decode_configEx hsel rs2, fun w s => ⟨fun h => ?activation, fun hact h => ?shift,
    fun hact hacc hsys hrelu6 h => ?transpose, fun act hcode hacc hsys hrelu6 h => ?accepted⟩⟩
  case activation => exact exec_configEx_reservedActivation h s
  case shift => exact exec_configEx_shiftRange hact (ExConfig.anyShiftTooLarge_iff.mpr h)
  case transpose =>
    exact exec_configEx_transposeCombination hact (ExConfig.anyShiftTooLarge_eq_false hacc hsys hrelu6)
      (transposeForbidden_iff.mpr h)
  case accepted =>
    exact exec_configEx_accepted (Activation.ofCode_accepted hcode)
      (ExConfig.anyShiftTooLarge_eq_false hacc hsys hrelu6) (Bool.eq_false_iff.mpr (mt transposeForbidden_iff.mp h))

/-! ## CONFIG_LD (R224) -/

theorem exec_configLd_reservedStateId {w : LdConfig} (h : w.stateId = 3) (s : State) :
    exec (.configLd w) s = .next (s.takeError (.fatal (.configurationViolation .reservedStateId))) := by
  rw [exec_eq_finish, bodyOf, configLd, h]
  rfl

theorem exec_configLd_of_loadIndex {w : LdConfig} {k : Fin 3} (h : loadIndex w.stateId = some k) (s : State) :
    exec (.configLd w) s = (check (scaleNotFinite w.scale) .scaleNotFinite s <|
      .done (s.withCfg (s.cfg.withLoad k ⟨w.stride, w.scale, w.shrunk⟩))).finish := by
  rw [exec_eq_finish, bodyOf, configLd, h]

theorem exec_configLd_scaleNotFinite {w : LdConfig} (hid : w.stateId ≠ 3) (h : scaleNotFinite w.scale = true)
    (s : State) : exec (.configLd w) s = .next (s.takeError (.fatal (.configurationViolation .scaleNotFinite))) := by
  obtain ⟨k, hk⟩ := exists_loadIndex hid
  rw [exec_configLd_of_loadIndex hk, h, check_true, Res.finish_violation]

theorem exec_configLd_accepted {w : LdConfig} {k : Fin 3} (hk : loadIndex w.stateId = some k)
    (h : scaleNotFinite w.scale = false) (s : State) : exec (.configLd w) s =
      .next ((s.withReport none).withCfg (s.cfg.withLoad k ⟨w.stride, w.scale, w.shrunk⟩)) := by
  rw [exec_configLd_of_loadIndex hk, h, check_false, Res.finish_done]
  rfl

/-- Settles O50: the decoder's row, the two checks of R224 in their order, and the load state written for each id. -/
theorem configLdWritesOneLoadState : Obligations.ConfigLdWritesOneLoadState := by
  refine ⟨fun rs1 rs2 hsel => decode_configLd hsel rs2, fun w s => ⟨fun h => ?stateId, fun hid h => ?scale,
    fun h => ?accepted⟩⟩
  case stateId => exact exec_configLd_reservedStateId h s
  case scale => exact exec_configLd_scaleNotFinite hid (scaleNotFinite_iff.mpr h) s
  case accepted =>
    have hfinite : scaleNotFinite w.scale = false := Bool.eq_false_iff.mpr (mt scaleNotFinite_iff.mp h)
    refine ⟨fun hid => ?load0, fun hid => ?load1, fun hid => ?load2⟩
    case load0 => exact exec_configLd_accepted (k := 0) (by rw [hid]; rfl) hfinite s
    case load1 => exact exec_configLd_accepted (k := 1) (by rw [hid]; rfl) hfinite s
    case load2 => exact exec_configLd_accepted (k := 2) (by rw [hid]; rfl) hfinite s

/-! ## CONFIG_ST (R225, R226) -/

theorem exec_configSt_reservedActivation {w : StConfig} (h : w.act = 3) (s : State) :
    exec (.configSt w) s = .next (s.takeError (.fatal (.configurationViolation .reservedActivation))) := by
  rw [exec_eq_finish, bodyOf, configSt, h]
  rfl

/-- With an activation, `CONFIG_ST` is its two checks and then its one write. -/
theorem exec_configSt_of_activation {w : StConfig} {act : Activation} (h : Activation.ofCode w.act = some act)
    (s : State) : exec (.configSt w) s =
      (check (scaleNotFinite w.scale) .scaleNotFinite s <| check (poolWindowEmpty w.pool) .poolGeometry s <|
        .done (s.withCfg (s.cfg.withSt act w))).finish := by
  rw [exec_eq_finish, bodyOf, configSt, h]

theorem exec_configSt_scaleNotFinite {w : StConfig} (hact : w.act ≠ 3) (h : scaleNotFinite w.scale = true) (s : State) :
    exec (.configSt w) s = .next (s.takeError (.fatal (.configurationViolation .scaleNotFinite))) := by
  obtain ⟨act, ha⟩ := Activation.exists_ofCode hact
  rw [exec_configSt_of_activation ha, h, check_true, Res.finish_violation]

theorem exec_configSt_poolGeometry {w : StConfig} (hact : w.act ≠ 3) (hscale : scaleNotFinite w.scale = false)
    (h : poolWindowEmpty w.pool = true) (s : State) :
    exec (.configSt w) s = .next (s.takeError (.fatal (.configurationViolation .poolGeometry))) := by
  obtain ⟨act, ha⟩ := Activation.exists_ofCode hact
  rw [exec_configSt_of_activation ha, hscale, check_false, h, check_true, Res.finish_violation]

theorem exec_configSt_accepted {w : StConfig} {act : Activation} (hact : Activation.ofCode w.act = some act)
    (hscale : scaleNotFinite w.scale = false) (hpool : poolWindowEmpty w.pool = false) (s : State) :
    exec (.configSt w) s = .next ((s.withReport none).withCfg (s.cfg.withSt act w)) := by
  rw [exec_configSt_of_activation hact, hscale, check_false, hpool, check_false, Res.finish_done]
  rfl

/-- Settles O51: the decoder's row, the three checks of R225 and R226 in their order, and the one write. -/
theorem configStWritesStoreFields : Obligations.ConfigStWritesStoreFields := by
  refine ⟨fun rs1 rs2 hsel => decode_configSt hsel rs2, fun w s => ⟨fun h => ?activation, fun hact h => ?scale,
    fun hact hscale hon hempty => ?pool, fun act hcode hscale hwindow => ?accepted⟩⟩
  case activation => exact exec_configSt_reservedActivation h s
  case scale => exact exec_configSt_scaleNotFinite hact (scaleNotFinite_iff.mpr h) s
  case pool =>
    exact exec_configSt_poolGeometry hact (Bool.eq_false_iff.mpr (mt scaleNotFinite_iff.mp hscale))
      (poolWindowEmpty_iff.mpr ⟨hon, hempty⟩) s
  case accepted =>
    have hpool : ¬ (w.pool.stride ≠ 0 ∧ w.pool.size = 0) := fun ⟨hon, hempty⟩ => hwindow.elim hon (absurd hempty)
    exact exec_configSt_accepted (Activation.ofCode_accepted hcode)
      (Bool.eq_false_iff.mpr (mt scaleNotFinite_iff.mp hscale))
      (Bool.eq_false_iff.mpr (mt poolWindowEmpty_iff.mp hpool)) s

/-- The hypotheses above, met at reset, where ACC_BITS is 32: a shift of 32 is too large and shifts of 31 are not; both
transposes are forbidden in WS and allowed in OS; the infinite scale, and the greatest finite one; pooling on with an
empty and with a full window; and a first command of funct 0 with selector 3. -/
theorem witness_configurationRules :
    exec (.configEx ⟨.ws, 0, true, true, 1, 0, 0, 32⟩) State.reset =
      .next (State.reset.takeError (.fatal (.configurationViolation .shiftRange))) ∧
    exec (.configEx ⟨.ws, 0, true, true, 1, 31, 31, 31⟩) State.reset =
      .next (State.reset.takeError (.fatal (.configurationViolation .transposeCombination))) ∧
    (∃ t, exec (.configEx ⟨.os, 2, true, true, 1, 31, 31, 31⟩) State.reset = .next t ∧ t.cfg.sysAct = .relu6) ∧
    exec (.configLd ⟨true, 2, 0x7F800000, 16⟩) State.reset =
      .next (State.reset.takeError (.fatal (.configurationViolation .scaleNotFinite))) ∧
    (∃ t, exec (.configLd ⟨true, 2, 0x7F7FFFFF, 16⟩) State.reset = .next t ∧ t.cfg.load2 = ⟨16, 0x7F7FFFFF, true⟩) ∧
    exec (.configSt ⟨1, ⟨1, 0, 0, 0, 1, 1, 1, 1, 1⟩, 16, 0x7F800000⟩) State.reset =
      .next (State.reset.takeError (.fatal (.configurationViolation .scaleNotFinite))) ∧
    exec (.configSt ⟨1, ⟨1, 0, 0, 0, 1, 1, 1, 1, 1⟩, 16, 0x3F800000⟩) State.reset =
      .next (State.reset.takeError (.fatal (.configurationViolation .poolGeometry))) ∧
    (∃ t, exec (.configSt ⟨1, ⟨1, 3, 0, 0, 1, 1, 1, 1, 1⟩, 16, 0x3F800000⟩) State.reset = .next t ∧
      t.cfg.accAct = .relu) ∧
    (∃ t, step (State.reset.withHost [.command ⟨0, 0xFFFFFFFFFFFFFFFF, 0⟩]) = .next t ∧
      t.status = .faulted (.configurationViolation .reservedSubcommand)) :=
  ⟨exec_configEx_shiftRange (by decide) (by decide),
    exec_configEx_transposeCombination (by decide) (by decide) (by decide),
    ⟨_, exec_configEx_accepted rfl (by decide) (by decide), rfl⟩,
    exec_configLd_scaleNotFinite (by decide) (by decide) _, ⟨_, exec_configLd_accepted rfl (by decide) _, rfl⟩,
    exec_configSt_scaleNotFinite (by decide) (by decide) _,
    exec_configSt_poolGeometry (by decide) (by decide) (by decide) _,
    ⟨_, exec_configSt_accepted rfl (by decide) (by decide) _, rfl⟩,
    ⟨_, step_command_rejected rfl rfl (decode_reservedSubcommand rfl (by decide)), rfl⟩⟩

end Sys2Proof.Machine

/-!
PROOFS. The configuration commands of the sequencer (R251 to R255): the operands each decodes to, and that a command whose
procedure only replaces the tiling record completes with that record and no report.
-/

namespace Sys2Proof

/-! ## Functs 9 to 13 (R91) -/

/-- The six 16-bit fields of `LOOP_WS_CONFIG_BOUNDS`, padding in `rs1` and tile counts in `rs2` (R251). -/
theorem LoopBounds.decode_fields (rs1 rs2 : Word) : LoopBounds.decode rs1 rs2 =
    ⟨rs1.extractLsb' 0 16, rs1.extractLsb' 16 16, rs1.extractLsb' 32 16,
      rs2.extractLsb' 0 16, rs2.extractLsb' 16 16, rs2.extractLsb' 32 16⟩ := rfl

theorem decode_loopWsConfigAddrsAb (rs1 rs2 : Word) :
    decode ⟨10, rs1, rs2⟩ = .ok (.loopWsConfigAddrsAb rs1 rs2) := rfl

theorem decode_loopWsConfigAddrsDc (rs1 rs2 : Word) :
    decode ⟨11, rs1, rs2⟩ = .ok (.loopWsConfigAddrsDc rs1 rs2) := rfl

theorem decode_loopWsConfigStridesAb (rs1 rs2 : Word) :
    decode ⟨12, rs1, rs2⟩ = .ok (.loopWsConfigStridesAb rs1 rs2) := rfl

theorem decode_loopWsConfigStridesDc (rs1 rs2 : Word) :
    decode ⟨13, rs1, rs2⟩ = .ok (.loopWsConfigStridesDc rs1 rs2) := rfl

end Sys2Proof

namespace Sys2Proof.Machine

/-! ## A write of the tiling record (R43) -/

/-- The report and the tiling record are separate fields, so the order of the two writes does not matter. -/
theorem State.withReport_withLw (s : State) (l : TilingRecord) (e : Option Error) :
    (s.withLw l).withReport e = (s.withReport e).withLw l := rfl

/-- A command whose procedure, without any check, replaces the tiling record changes that record and the report only. -/
theorem exec_eq_withLw {i : Instr} {s : State} {l : TilingRecord} (h : bodyOf i s = .done (s.withLw l)) :
    exec i s = .next ((s.withReport none).withLw l) := by
  rw [exec_eq_finish, h, Res.finish_done, State.withReport_withLw]

/-- Settles O52: the decoder's rows of functs 9 to 13, and for each command the record its procedure writes. -/
theorem tilingCommandsWriteTheirFields : Obligations.TilingCommandsWriteTheirFields := by
  refine ⟨fun rs1 rs2 => ⟨?bounds, decode_loopWsConfigAddrsAb rs1 rs2, decode_loopWsConfigAddrsDc rs1 rs2,
    decode_loopWsConfigStridesAb rs1 rs2, decode_loopWsConfigStridesDc rs1 rs2⟩, fun s => ⟨fun b => ?writesBounds,
    fun a b => ?writesAddrsAb, fun d c => ?writesAddrsDc, fun a b => ?writesStridesAb, fun d c => ?writesStridesDc⟩⟩
  case bounds => rw [decode_loopWsConfigBounds, LoopBounds.decode_fields]
  case writesBounds => exact exec_eq_withLw (i := .loopWsConfigBounds b) rfl
  case writesAddrsAb => exact exec_eq_withLw (i := .loopWsConfigAddrsAb a b) rfl
  case writesAddrsDc => exact exec_eq_withLw (i := .loopWsConfigAddrsDc d c) rfl
  case writesStridesAb => exact exec_eq_withLw (i := .loopWsConfigStridesAb a b) rfl
  case writesStridesDc => exact exec_eq_withLw (i := .loopWsConfigStridesDc d c) rfl

end Sys2Proof.Machine

/-!
PROOFS. The no-ops `FLUSH` and `FENCE` (R280, R281): a procedure that is done in the state it started from writes only the
report, and both commands have that procedure.
-/

namespace Sys2Proof.Machine

/-- A command whose procedure is done with the state as it was completes and withdraws the report, and nothing else. -/
theorem exec_eq_withReport_none {i : Instr} {s : State} (h : bodyOf i s = .done s) :
    exec i s = .next (s.withReport none) := by
  rw [exec_eq_finish, h, Res.finish_done]

/-- Settles O53: both functs decode without their operands, and both procedures are done where they start. -/
theorem flushAndFenceDoNothing : Obligations.FlushAndFenceDoNothing := by
  refine ⟨fun rs1 rs2 => ⟨decode_flush rs1 rs2, decode_fence rs1 rs2⟩, fun s => ⟨?flush, ?fence⟩⟩
  case flush => exact exec_eq_withReport_none (i := .flush) rfl
  case fence => exact exec_eq_withReport_none (i := .fence) rfl

end Sys2Proof.Machine

/-!
PROOFS. Exceptions (60_exceptions.md): a funct with no row in the table of R91 is refused by the decoder, and the error of
that refusal writes the report alone (R301); a command that has run reports nothing or a fatal error, which it latches, and
the reset hook makes the block Running (R306).
-/

namespace Sys2Proof

/-- The functs with no row select no command, whatever the operands (R91, R98). -/
theorem decode_unknownFunct {c : Command} (hlow : 15 ≤ c.funct.toNat) (hhigh : c.funct.toNat ≤ 126) :
    decode c = .error .unknownFunct := by
  unfold decode
  split
  case h_17 => rfl
  all_goals omega

end Sys2Proof

namespace Sys2Proof.Machine

/-! ## UnknownInstruction (R301) -/

/-- An unassigned funct on a Running block: the command is off the host's list, and the report is all that is written. -/
theorem step_command_unknownFunct {s : State} {c : Command} {rest : List HostAction} (h : s.host = .command c :: rest)
    (hs : s.status = .running) (hlow : 15 ≤ c.funct.toNat) (hhigh : c.funct.toNat ≤ 126) :
    step s = .next ((s.withHost rest).withReport (some .unknownInstruction)) :=
  step_command_rejected h hs (decode_unknownFunct hlow hhigh)

/-- Every error that a command which has run reports is fatal, and is latched. -/
theorem exec_reports_fatal {i : Instr} {s t : State} {e : Error} (h : exec i s = .next t) (hr : t.report = some e) :
    ∃ f, e = .fatal f ∧ t.status = .faulted f := by
  rcases exec_latch_cases h with ⟨hnone, _⟩ | ⟨f, hfatal, hlatch⟩
  · rw [hnone] at hr
    cases hr
  · rw [hfatal] at hr
    cases hr
    exact ⟨f, rfl, hlatch⟩

/-- Settles O11: the decoder refuses the word, and what a command itself reports is fatal. -/
theorem unknownInstructionChangesNothing : Obligations.UnknownInstructionChangesNothing := by
  refine ⟨fun _ _ _ => step_command_unknownFunct, fun i s t e h hr => ?_⟩
  obtain ⟨f, rfl, hlatch⟩ := exec_reports_fatal h hr
  exact ⟨nofun, f, hlatch⟩

/-! ## The fault latch (R306) -/

/-- The reset hook is carried out whatever the latch holds (R340). -/
theorem step_resetHook {s : State} {rest : List HostAction} (h : s.host = .resetHook :: rest) :
    step s = .next (s.withHost rest).takeReset := by simp [step, fetch, h]

@[simp] theorem State.takeReset_status (s : State) : s.takeReset.status = .running := rfl
@[simp] theorem State.takeReset_report (s : State) : s.takeReset.report = none := rfl

/-- Settles O13, from what a command leaves in the latch, the step of a Faulted block and the step of the reset hook. -/
theorem fatalErrorsLatch : Obligations.FatalErrorsLatch :=
  ⟨fun _ _ _ => exec_latch_cases, fun _ _ _ _ => step_command_faulted, fun s rest h =>
    ⟨(s.withHost rest).takeReset, step_resetHook h, State.takeReset_status _, State.takeReset_report _⟩⟩

/-- The hypotheses above, met: the first and the last funct with no row on a Running block; a violation of `CONFIG_LD`,
reported and latched; and the reset hook on the Faulted block. -/
theorem witness_exceptionRules :
    step (State.reset.withHost [.command ⟨15, 1, 2⟩]) = .next (State.reset.withReport (some .unknownInstruction)) ∧
    step (State.reset.withHost [.command ⟨126, 1, 2⟩]) = .next (State.reset.withReport (some .unknownInstruction)) ∧
    (∃ t f, exec (.configLd ⟨false, 3, 0, 0⟩) State.reset = .next t ∧ t.report = some (.fatal f) ∧
      t.status = .faulted f ∧ ∃ u, step (t.withHost [.resetHook]) = .next u ∧ u.status = .running) := by
  refine ⟨step_command_unknownFunct rfl rfl (by decide) (by decide),
    step_command_unknownFunct rfl rfl (by decide) (by decide), ?_⟩
  have hexec := exec_configLd_reservedStateId (w := ⟨false, 3, 0, 0⟩) rfl State.reset
  obtain ⟨f, hf, hlatch⟩ := exec_reports_fatal hexec rfl
  exact ⟨_, f, hexec, congrArg some hf, hlatch, _, step_resetHook rfl, State.takeReset_status _⟩

end Sys2Proof.Machine

/-!
PROOFS. The encoding (R90, R91, R95, R104): the command word is its three operands side by side; each operand word holds
its fields where the decoder reads them, so decoding inverts encoding, command by command; which words the decoder rejects,
and that it looks at funct and the selector alone to do so.
-/

namespace Sys2Proof

/-! ## The command word (R90) -/

namespace Command

theorem toWord_eq_setWidth_append (c : Command) :
    c.toWord = (c.funct ++ c.rs1 ++ c.rs2 : BitVec (7 + 64 + 64)).setWidth 135 := (BitVec.setWidth_eq _).symm

@[simp] theorem ofWord_toWord (c : Command) : ofWord c.toWord = c := by
  simp (disch := decide) only [ofWord, toWord_eq_setWidth_append, BitVec.extractLsb'_setWidth_of_le,
    BitVec.extractLsb'_append_eq_of_le, Nat.reduceSub, BitVec.extractLsb'_eq_self, BitVec.extractLsb'_append_eq_right]

@[simp] theorem toWord_ofWord (w : CommandWord) : (ofWord w).toWord = w := by
  simp (disch := decide) only [toWord, ofWord, BitVec.extractLsb'_append_extractLsb'_eq_extractLsb']
  exact BitVec.extractLsb'_eq_self

/-- A concatenation counts its low part once and its high part in units of the low part's range. -/
theorem toNat_append_eq_add {n m : Nat} (x : BitVec n) (y : BitVec m) :
    (x ++ y).toNat = x.toNat * 2 ^ m + y.toNat := by
  rw [BitVec.toNat_append, ← Nat.shiftLeft_add_eq_or_of_lt y.isLt, Nat.shiftLeft_eq]

theorem toNat_toWord (c : Command) :
    c.toWord.toNat = c.funct.toNat * 2 ^ 128 + c.rs1.toNat * 2 ^ 64 + c.rs2.toNat := by
  have h : c.toWord.toNat = (c.funct ++ c.rs1 ++ c.rs2).toNat := rfl
  rw [h, toNat_append_eq_add, toNat_append_eq_add]
  ring

end Command

/-- Settles O2, by the two inverses and the value of a concatenation. -/
theorem commandWordHoldsThreeFields : Obligations.CommandWordHoldsThreeFields :=
  ⟨Command.toWord_ofWord, Command.ofWord_toWord, Command.toNat_toWord⟩

/-! ## The operand words (R104): each field is where its decoder reads it -/

@[simp] theorem Dataflow.decode_encode (d : Dataflow) : Dataflow.decode d.encode = d := by cases d <;> rfl

namespace ExConfig

theorem rs1_eq_setWidth_append (w : ExConfig) : w.rs1 =
    (w.accShift ++ w.aStride ++ 0#6 ++ BitVec.ofBool w.bTranspose ++ BitVec.ofBool w.aTranspose ++ 0#3 ++ w.act ++
      BitVec.ofBool w.dataflow.encode ++ 0#2 : BitVec (32 + 16 + 6 + 1 + 1 + 3 + 2 + 1 + 2)).setWidth 64 :=
  (BitVec.setWidth_eq _).symm

theorem rs2_eq_setWidth_append (w : ExConfig) : w.rs2 = (w.relu6Shift ++ w.sysShift : BitVec (32 + 32)).setWidth 64 :=
  (BitVec.setWidth_eq _).symm

theorem rs1_selector (w : ExConfig) : w.rs1.extractLsb' 0 2 = 0 := by
  simp (disch := decide) only [rs1_eq_setWidth_append, BitVec.extractLsb'_setWidth_of_le,
    BitVec.extractLsb'_append_eq_right, BitVec.ofNat_eq_ofNat]

theorem rs1_flags (w : ExConfig) : w.rs1.getLsbD 2 = w.dataflow.encode ∧ w.rs1.getLsbD 8 = w.aTranspose ∧
    w.rs1.getLsbD 9 = w.bTranspose := by
  simp only [rs1_eq_setWidth_append, BitVec.getLsbD_setWidth, BitVec.getLsbD_append, BitVec.getLsbD_ofBool]
  simp

theorem decode_rs1_rs2 (w : ExConfig) : decode w.rs1 w.rs2 = w := by
  simp only [decode, rs1_flags, Dataflow.decode_encode]
  simp (disch := decide) only [rs1_eq_setWidth_append, rs2_eq_setWidth_append, BitVec.extractLsb'_setWidth_of_le,
    BitVec.extractLsb'_append_eq_of_le, Nat.reduceSub, BitVec.extractLsb'_eq_self, BitVec.extractLsb'_append_eq_right]

end ExConfig

namespace LdConfig

theorem rs1_eq_setWidth_append (w : LdConfig) : w.rs1 =
    (w.scale ++ 0#27 ++ w.stateId ++ BitVec.ofBool w.shrunk ++ 1#2 : BitVec (32 + 27 + 2 + 1 + 2)).setWidth 64 :=
  (BitVec.setWidth_eq _).symm

theorem rs1_selector (w : LdConfig) : w.rs1.extractLsb' 0 2 = 1 := by
  simp (disch := decide) only [rs1_eq_setWidth_append, BitVec.extractLsb'_setWidth_of_le,
    BitVec.extractLsb'_append_eq_right, BitVec.ofNat_eq_ofNat]

theorem rs1_shrunk (w : LdConfig) : w.rs1.getLsbD 2 = w.shrunk := by
  simp only [rs1_eq_setWidth_append, BitVec.getLsbD_setWidth, BitVec.getLsbD_append, BitVec.getLsbD_ofBool]
  simp

theorem decode_rs1_stride (w : LdConfig) : decode w.rs1 w.stride = w := by
  simp only [decode, rs1_shrunk]
  simp (disch := decide) only [rs1_eq_setWidth_append, BitVec.extractLsb'_setWidth_of_le,
    BitVec.extractLsb'_append_eq_of_le, Nat.reduceSub, BitVec.extractLsb'_eq_self, BitVec.extractLsb'_append_eq_right]

end LdConfig

namespace StConfig

theorem rs1_eq_setWidth_append (w : StConfig) : w.rs1 =
    (w.pool.ocols ++ w.pool.orows ++ w.pool.pocols ++ w.pool.porows ++ w.pool.outDim ++ 0#12 ++ w.pool.lpad ++
      w.pool.upad ++ w.pool.size ++ w.pool.stride ++ w.act ++ 2#2 :
      BitVec (8 + 8 + 8 + 8 + 8 + 12 + 2 + 2 + 2 + 2 + 2 + 2)).setWidth 64 :=
  (BitVec.setWidth_eq _).symm

theorem rs2_eq_setWidth_append (w : StConfig) : w.rs2 = (w.scale ++ w.stride : BitVec (32 + 32)).setWidth 64 :=
  (BitVec.setWidth_eq _).symm

theorem rs1_selector (w : StConfig) : w.rs1.extractLsb' 0 2 = 2 := by
  simp (disch := decide) only [rs1_eq_setWidth_append, BitVec.extractLsb'_setWidth_of_le,
    BitVec.extractLsb'_append_eq_right, BitVec.ofNat_eq_ofNat]

theorem decode_rs1_rs2 (w : StConfig) : decode w.rs1 w.rs2 = w := by
  simp (disch := decide) only [decode, Pooling.decode, rs1_eq_setWidth_append, rs2_eq_setWidth_append,
    BitVec.extractLsb'_setWidth_of_le, BitVec.extractLsb'_append_eq_of_le, Nat.reduceSub, BitVec.extractLsb'_eq_self,
    BitVec.extractLsb'_append_eq_right]

end StConfig

namespace LoopBounds

theorem rs1_eq_setWidth_append (b : LoopBounds) : b.rs1 =
    (0#16 ++ b.padK ++ b.padJ ++ b.padI : BitVec (16 + 16 + 16 + 16)).setWidth 64 := (BitVec.setWidth_eq _).symm

theorem rs2_eq_setWidth_append (b : LoopBounds) : b.rs2 =
    (0#16 ++ b.tilesK ++ b.tilesJ ++ b.tilesI : BitVec (16 + 16 + 16 + 16)).setWidth 64 := (BitVec.setWidth_eq _).symm

theorem decode_rs1_rs2 (b : LoopBounds) : decode b.rs1 b.rs2 = b := by
  simp (disch := decide) only [decode, rs1_eq_setWidth_append, rs2_eq_setWidth_append,
    BitVec.extractLsb'_setWidth_of_le, BitVec.extractLsb'_append_eq_of_le, Nat.reduceSub,
    BitVec.extractLsb'_append_eq_right]

end LoopBounds

namespace LoopFlags

theorem rs1_eq_setWidth_append (f : LoopFlags) : f.rs1 =
    (0#61 ++ BitVec.ofBool f.lowD ++ BitVec.ofBool f.fullC ++ BitVec.ofBool f.exAccumulate :
      BitVec (61 + 1 + 1 + 1)).setWidth 64 := (BitVec.setWidth_eq _).symm

theorem decode_rs1 (f : LoopFlags) : decode f.rs1 = f := by
  simp only [decode, rs1_eq_setWidth_append, BitVec.getLsbD_setWidth, BitVec.getLsbD_append, BitVec.getLsbD_ofBool]
  simp

end LoopFlags

/-! ## The round trip (R91, R95, R104) -/

/-- Every command decodes back: its funct selects its row, for funct 0 with the selector its first operand holds, and the
row's operand decoder finds the fields. -/
theorem decode_encode (i : Instr) : decode (encode i) = .ok i := by
  cases i with
  | configEx w => exact (decode_configEx w.rs1_selector w.rs2).trans (by rw [w.decode_rs1_rs2])
  | configLd w => exact (decode_configLd w.rs1_selector w.stride).trans (by rw [w.decode_rs1_stride])
  | configSt w => exact (decode_configSt w.rs1_selector w.rs2).trans (by rw [w.decode_rs1_rs2])
  | loopWs f => exact (decode_loopWs f.rs1 0).trans (by rw [f.decode_rs1])
  | loopWsConfigBounds b => exact (decode_loopWsConfigBounds b.rs1 b.rs2).trans (by rw [b.decode_rs1_rs2])
  | mvin addr d | mvin2 addr d | mvin3 addr d | mvout addr d => simp [encode, decode]
  | computePreloaded a b | computeAccumulated a b | preload a b => simp [encode, decode]
  | flush | fence | loopWsConfigAddrsAb | loopWsConfigAddrsDc | loopWsConfigStridesAb | loopWsConfigStridesDc => rfl

/-- Settles O1: the word gives back the command, and the command the instruction. -/
theorem decodeEncodeRoundTrip : Obligations.DecodeEncodeRoundTrip := fun i => by
  rw [encodeWord, Command.ofWord_toWord, decode_encode]

/-! ## The null operand (R123) -/

/-- Settles O4: the null test is on the operand's bits 31:0, and each of the four fields is a slice of them. -/
theorem nullIsAddressPartAllOnes : Obligations.NullIsAddressPartAllOnes := by
  intro op
  have hnull : (AddrOperand.decode op).isNull = true ↔ op.extractLsb' 0 32 = 0xFFFFFFFF := by
    rw [AddrOperand.isNull, beq_iff_eq, AddrOperand.addr32_decode]
    rfl
  refine ⟨hnull, fun h => ?_⟩
  have hones : (AddrOperand.decode op).addr32 = 0xFFFFFFFF := (AddrOperand.addr32_decode op).trans (hnull.mp h)
  have hbit : ∀ i < 32, op.getLsbD i = true := fun i hi => by
    have hi' := congrArg (·.getLsbD i) (hnull.mp h)
    simp only [BitVec.getLsbD_extractLsb', Nat.zero_add, hi, decide_true, Bool.true_and] at hi'
    rw [hi']
    interval_cases i <;> rfl
  refine ⟨hbit 31 (by omega), hbit 30 (by omega), hbit 29 (by omega), ?_⟩
  rw [AddrOperand.base, ← AddrOperand.addr32_row, hones]
  rfl

/-! ## The words the decoder rejects (R95, R98) -/

/-- Funct 0 with each of its four selectors (R95). -/
theorem decode_funct_zero {c : Command} (hf : c.funct = 0) :
    (decode c = .error .reservedSubcommand ∧ c.rs1.extractLsb' 0 2 = 3) ∨
    ∃ i, decode c = .ok i ∧ (encode i).funct = 0 ∧ c.rs1.extractLsb' 0 2 = (encode i).rs1.extractLsb' 0 2 ∧
      c.rs1.extractLsb' 0 2 ≠ 3 := by
  obtain ⟨funct, rs1, rs2⟩ := c
  obtain rfl : funct = 0 := hf
  have hsel : ∀ sel : BitVec 2, sel = 0 ∨ sel = 1 ∨ sel = 2 ∨ sel = 3 := by decide
  rcases hsel (rs1.extractLsb' 0 2) with h | h | h | h
  · exact .inr ⟨_, decode_configEx h rs2, rfl, h.trans (ExConfig.rs1_selector _).symm, by rw [h]; decide⟩
  · exact .inr ⟨_, decode_configLd h rs2, rfl, h.trans (LdConfig.rs1_selector _).symm, by rw [h]; decide⟩
  · exact .inr ⟨_, decode_configSt h rs2, rfl, h.trans (StConfig.rs1_selector _).symm, by rw [h]; decide⟩
  · exact .inl ⟨decode_reservedSubcommand rfl h, h⟩

/-- The functs with a row other than 0 (R91). -/
theorem funct_row_cases : ∀ f : BitVec 7, f ≠ 0 → f.toNat < 15 ∨ f.toNat = 127 →
    f ∈ ([1, 2, 3, 4, 5, 6, 7, 8, 9, 10, 11, 12, 13, 14, 127] : List (BitVec 7)) := by decide

/-- Each of them selects its command, whatever the operands (R91). -/
theorem decode_funct_row {c : Command} (hf : c.funct ≠ 0) (h : c.funct.toNat < 15 ∨ c.funct.toNat = 127) :
    ∃ i, decode c = .ok i ∧ c.funct = (encode i).funct := by
  obtain ⟨funct, rs1, rs2⟩ := c
  have hrow := funct_row_cases funct hf h
  simp only [List.mem_cons, List.not_mem_nil, or_false] at hrow
  rcases hrow with rfl | rfl | rfl | rfl | rfl | rfl | rfl | rfl | rfl | rfl | rfl | rfl | rfl | rfl | rfl
  all_goals exact ⟨_, rfl, rfl⟩

/-- What the decoder makes of a command: the rejection of R98, that of R95, or an instruction whose own encoding has the
same funct and, for funct 0, the same selector (R91). -/
theorem decode_cases (c : Command) :
    (decode c = .error .unknownFunct ∧ 15 ≤ c.funct.toNat ∧ c.funct.toNat ≤ 126) ∨
    (decode c = .error .reservedSubcommand ∧ c.funct = 0 ∧ c.rs1.extractLsb' 0 2 = 3) ∨
    ∃ i, decode c = .ok i ∧ (c.funct.toNat < 15 ∨ c.funct.toNat = 127) ∧ c.funct = (encode i).funct ∧
      (c.funct = 0 → c.rs1.extractLsb' 0 2 = (encode i).rs1.extractLsb' 0 2 ∧ c.rs1.extractLsb' 0 2 ≠ 3) := by
  by_cases hrow : c.funct.toNat < 15 ∨ c.funct.toNat = 127
  · by_cases hf : c.funct = 0
    · rcases decode_funct_zero hf with ⟨he, hsel⟩ | ⟨i, hi, hfi, hsel⟩
      · exact .inr (.inl ⟨he, hf, hsel⟩)
      · exact .inr (.inr ⟨i, hi, hrow, hf.trans hfi.symm, fun _ => hsel⟩)
    · obtain ⟨i, hi, hfi⟩ := decode_funct_row hf hrow
      exact .inr (.inr ⟨i, hi, hrow, hfi, fun h => absurd h hf⟩)
  · have hlt := c.funct.isLt
    have hlow : 15 ≤ c.funct.toNat := by omega
    have hhigh : c.funct.toNat ≤ 126 := by omega
    exact .inl ⟨decode_unknownFunct hlow hhigh, hlow, hhigh⟩

theorem decode_eq_unknownFunct_iff (c : Command) :
    decode c = .error .unknownFunct ↔ 15 ≤ c.funct.toNat ∧ c.funct.toNat ≤ 126 := by
  refine ⟨fun h => ?_, fun ⟨hlow, hhigh⟩ => decode_unknownFunct hlow hhigh⟩
  rcases decode_cases c with ⟨_, hc⟩ | ⟨he, _⟩ | ⟨i, hi, _⟩
  · exact hc
  · rw [h] at he; cases he
  · rw [h] at hi; cases hi

theorem decode_eq_reservedSubcommand_iff (c : Command) :
    decode c = .error .reservedSubcommand ↔ c.funct = 0 ∧ c.rs1.extractLsb' 0 2 = 3 := by
  refine ⟨fun h => ?_, fun ⟨hf, hsel⟩ => decode_reservedSubcommand hf hsel⟩
  rcases decode_cases c with ⟨he, _⟩ | ⟨_, hc⟩ | ⟨i, hi, _⟩
  · rw [h] at he; cases he
  · exact hc
  · rw [h] at hi; cases hi

/-- Settles O5, by what the decoder makes of a command. -/
theorem decodeRejectsExactly : Obligations.DecodeRejectsExactly :=
  fun c => ⟨decode_eq_unknownFunct_iff c, decode_eq_reservedSubcommand_iff c⟩

/-- A command is accepted exactly when its funct has a row and, for funct 0, its selector is not 3. -/
theorem exists_decode_iff (c : Command) : (∃ i, decode c = .ok i) ↔
    (c.funct.toNat < 15 ∨ c.funct.toNat = 127) ∧ (c.funct = 0 → c.rs1.extractLsb' 0 2 ≠ 3) := by
  rcases decode_cases c with ⟨he, hlow, hhigh⟩ | ⟨he, hf, hsel⟩ | ⟨i, hi, hrow, _, hsel⟩
  · simp only [he, reduceCtorEq, exists_false, false_iff]
    rintro ⟨hrow, -⟩
    omega
  · simp [he, hf, hsel]
  · exact ⟨fun _ => ⟨hrow, fun hf => (hsel hf).2⟩, fun _ => ⟨i, hi⟩⟩

/-- Settles O6: an accepted word agrees with its instruction's encoding, and acceptance is a condition on funct and the
selector. -/
theorem decodeFollowsFunctMap : Obligations.DecodeFollowsFunctMap := by
  refine ⟨fun c i h => ?agrees, fun c c' hf hsel => ?sameAcceptance⟩
  case agrees =>
    rcases decode_cases c with ⟨he, _⟩ | ⟨he, _⟩ | ⟨j, hj, _, hf, hsel⟩
    · rw [h] at he; cases he
    · rw [h] at he; cases he
    · rw [h] at hj
      cases hj
      exact ⟨hf, fun h0 => (hsel h0).1⟩
  case sameAcceptance =>
    rw [exists_decode_iff, exists_decode_iff, ← hf]
    exact and_congr_right fun _ => forall_congr' fun h0 => by rw [hsel h0]

/-! ## The host's table of functs (R325) -/

/-- The table is the funct map: checked for each of the 128 functs. -/
theorem mem_primitiveInstructions_iff : ∀ f : BitVec 7,
    f ∈ primitiveInstructions.map Prod.fst ↔ ¬ (15 ≤ f.toNat ∧ f.toNat ≤ 126) := by decide

/-- Settles O9: a funct is rejected as unknown by its value alone, and the table lists the others. -/
theorem primitiveTableIsTheFunctMap : Obligations.PrimitiveTableIsTheFunctMap := by
  intro f
  have hreject : (∀ rs1 rs2, decode ⟨f, rs1, rs2⟩ ≠ .error .unknownFunct) ↔ ¬ (15 ≤ f.toNat ∧ f.toNat ≤ 126) := by
    simp only [ne_eq, decode_eq_unknownFunct_iff, forall_const]
  rw [hreject, ← mem_primitiveInstructions_iff]
  simp

/-- Settles O8: each word is evaluated. -/
theorem writtenWordsDecode : Obligations.WrittenWordsDecode := by
  unfold Obligations.WrittenWordsDecode
  decide

end Sys2Proof

/-!
PROOFS. The step and the end of a command (R74, R340, R65, R307): what each host action does, the values the reset hook
leaves, the ways a command can end, and which part of the state each command can write.
-/

namespace Sys2Proof.Machine

/-! ## The step, action by action -/

/-- While the block is Running, a step with a command presented runs the decoded instruction (R97). -/
theorem step_command_running {s : State} {c : Command} {rest : List HostAction} {i : Instr}
    (h : s.host = .command c :: rest) (hs : s.status = .running) (hd : decode c = .ok i) :
    step s = exec i (s.withHost rest) := by
  simp [step, fetch, presentCommand, takeCommand, h, hs, hd]

/-- Settles O10, by the step of a Running block. -/
theorem stepRunsDecodedCommand : Obligations.StepRunsDecodedCommand := fun _ _ _ _ => step_command_running

/-- Settles O16: a store is one write of DRAM on the state that no longer lists it. -/
theorem hostStoreAndIdle : Obligations.HostStoreAndIdle := by
  refine ⟨fun s addr v rest h => ⟨(s.withHost rest).putByte addr.toNat v, step_store h, rfl, ?_, fun x hx => ?_⟩,
    fun _ => step_idle⟩
  · rw [State.byteAt_putByte, if_pos rfl]
  · rw [State.byteAt_putByte, if_neg hx]
    rfl

/-! ## The reset hook (R44, R340) -/

@[simp] theorem State.takeReset_params (s : State) : s.takeReset.params = s.params := rfl
@[simp] theorem State.takeReset_cfg (s : State) : s.takeReset.cfg = Cfg.reset s.params := rfl

/-- The three load states are reset alike. -/
@[simp] theorem Cfg.reset_load (p : Params) (k : Fin 3) : (Cfg.reset p).load k = LoadState.reset p := by
  fin_cases k <;> rfl

theorem LoadState.reset_stride {p : Params} (h : p.dim * p.elemBytes < 2 ^ 64) :
    (LoadState.reset p).stride.toNat = p.dim * p.elemBytes := Nat.mod_eq_of_lt h

theorem Cfg.reset_storeStride {p : Params} (h : p.dim * p.elemBytes < 2 ^ 32) :
    (Cfg.reset p).storeStride.toNat = p.dim * p.elemBytes := Nat.mod_eq_of_lt h

/-- Settles O15: every field of the reset state is the value of the table, the strides where the product fits. -/
theorem resetHookRestoresEverything : Obligations.ResetHookRestoresEverything := by
  intro s rest h
  refine ⟨(s.withHost rest).takeReset, step_resetHook h, rfl, rfl, rfl, rfl, fun _ _ => rfl, fun _ _ => rfl,
    fun _ _ => rfl, rfl, rfl, rfl, rfl, rfl, rfl, rfl, rfl, rfl, rfl, fun k => ?loads, Cfg.reset_storeStride, rfl, rfl,
    rfl, rfl, rfl, fun hp => ?created⟩
  case loads =>
    rw [State.takeReset_cfg, Cfg.reset_load]
    exact ⟨rfl, rfl, LoadState.reset_stride⟩
  case created =>
    have hp : s.params = Params.standard := hp
    rw [State.takeReset, State.withHost_params, hp]
    rfl

/-- Settles O20: the reset state is evaluated. -/
theorem resetIsConsistent : Obligations.ResetIsConsistent := by
  unfold Obligations.ResetIsConsistent
  decide

/-! ## How a command ends (R65, R307) -/

/-- Every command ends in a next state, or at an address the platform refuses. -/
theorem exec_next_or_refused (i : Instr) (s : State) :
    (∃ t, exec i s = .next t) ∨ ∃ addr, exec i s = .fault (.dramRefused addr) ∧ dramAdmit s.params addr = false := by
  rw [exec_eq_finish]
  rcases (bodyOf i s).finish_cases with ⟨t, _, e⟩ | ⟨_, t, _, e⟩ | ⟨addr, t, hstop, e⟩
  · exact .inl ⟨_, e⟩
  · exact .inl ⟨_, e⟩
  · exact .inr ⟨addr, e, (bodyOf_stuckOnlyRefused i s).2 addr t hstop⟩

/-- Settles O18: where every address is admitted there is none to be refused. -/
theorem commandsAlwaysEnd : Obligations.CommandsAlwaysEnd := by
  refine fun i s => ⟨fun hadmit => (exec_next_or_refused i s).resolve_right ?_, exec_next_or_refused i s⟩
  rintro ⟨addr, _, hrefused⟩
  rw [hadmit] at hrefused
  cases hrefused

/-- A command other than `LOOP_WS` that reports a violation has changed nothing: an access never raises one (R307). -/
theorem exec_violation_precise {i : Instr} {s t : State} {reason : ConfigReason} (hi : ∀ f, i ≠ .loopWs f)
    (h : exec i s = .next t) (hr : t.report = some (.fatal (.configurationViolation reason))) :
    t = s.takeError (.fatal (.configurationViolation reason)) := by
  rw [exec_eq_finish] at h
  rcases bodyOf_headOrAccess hi s with ⟨x, e⟩ | haccess
  · rw [e, Res.finish_violation] at h
    cases h
    cases hr
    rfl
  · rcases (bodyOf i s).finish_cases with ⟨u, _, e⟩ | ⟨err, u, hstop, e⟩ | ⟨_, _, _, e⟩ <;> rw [e] at h <;> cases h
    · cases hr
    · cases hr
      rcases haccess.2 _ _ hstop with ⟨_, hb⟩ | ⟨_, ha, _⟩
      · cases hb
      · cases ha

/-! ## The checks of `LOOP_WS` (R258) -/

/-- The first check of `LOOP_WS`: OS dataflow, or a transposition. -/
def loopNeedsWS (c : Cfg) : Bool := c.dataflow != .ws || c.aTranspose || c.bTranspose

theorem loopNeedsWS_iff {c : Cfg} :
    loopNeedsWS c = true ↔ c.dataflow = .os ∨ c.aTranspose = true ∨ c.bTranspose = true := by
  cases h : c.dataflow <;> simp [loopNeedsWS, h]

theorem loopNeedsWS_eq_false_iff {c : Cfg} :
    loopNeedsWS c = false ↔ c.dataflow = .ws ∧ c.aTranspose = false ∧ c.bTranspose = false := by
  cases h : c.dataflow <;> simp [loopNeedsWS, h]

theorem paddingTooLarge_iff {p : Params} {b : LoopBounds} :
    paddingTooLarge p b = true ↔ p.dim < b.padI.toNat ∨ p.dim < b.padJ.toNat ∨ p.dim < b.padK.toNat := by
  simp [paddingTooLarge, or_assoc]

theorem tilesTooMany_iff {p : Params} {b : LoopBounds} : tilesTooMany p b = true ↔
    p.spRows / 2 < (b.tilesI.toNat * b.tilesK.toNat + b.tilesK.toNat * b.tilesJ.toNat) * p.dim ∨
      p.accRows / 2 < b.tilesI.toNat * b.tilesJ.toNat * p.dim := by
  simp [tilesTooMany]

theorem loopWs_eq (f : LoopFlags) (s : State) : loopWs f s =
    check (loopNeedsWS s.cfg) .loopNeedsWS s (check (paddingTooLarge s.params s.lw.bounds) .countRange s
      (check (tilesTooMany s.params s.lw.bounds) .tileBounds s ((loopPhase1 f s).andThen (loopPhase2 f)))) := rfl

/-- `loopAccepted` says that none of the three checks objects. -/
theorem loopAccepted_iff {s : State} : loopAccepted s ↔ loopNeedsWS s.cfg = false ∧
    paddingTooLarge s.params s.lw.bounds = false ∧ tilesTooMany s.params s.lw.bounds = false := by
  rw [loopNeedsWS_eq_false_iff, ← Bool.not_eq_true (paddingTooLarge _ _), ← Bool.not_eq_true (tilesTooMany _ _),
    paddingTooLarge_iff, tilesTooMany_iff, loopAccepted]
  simp only [not_or, Nat.not_lt, and_assoc]

theorem loopWs_accepted {s : State} (h : loopAccepted s) (f : LoopFlags) :
    loopWs f s = (loopPhase1 f s).andThen (loopPhase2 f) := by
  obtain ⟨hws, hpad, htiles⟩ := loopAccepted_iff.mp h
  rw [loopWs_eq, hws, check_false, hpad, check_false, htiles, check_false]

theorem exec_loopWs (f : LoopFlags) (s : State) : exec (.loopWs f) s = (loopWs f s).finish :=
  exec_eq_finish (.loopWs f) s

theorem exec_loopWs_needsWS {s : State} (h : loopNeedsWS s.cfg = true) (f : LoopFlags) :
    exec (.loopWs f) s = .next (s.takeError (.fatal (.configurationViolation .loopNeedsWS))) := by
  rw [exec_loopWs, loopWs_eq, h, check_true, Res.finish_violation]

theorem exec_loopWs_padding {s : State} (hws : loopNeedsWS s.cfg = false)
    (h : paddingTooLarge s.params s.lw.bounds = true) (f : LoopFlags) :
    exec (.loopWs f) s = .next (s.takeError (.fatal (.configurationViolation .countRange))) := by
  rw [exec_loopWs, loopWs_eq, hws, check_false, h, check_true, Res.finish_violation]

theorem exec_loopWs_tileBounds {s : State} (hws : loopNeedsWS s.cfg = false)
    (hpad : paddingTooLarge s.params s.lw.bounds = false) (h : tilesTooMany s.params s.lw.bounds = true)
    (f : LoopFlags) : exec (.loopWs f) s = .next (s.takeError (.fatal (.configurationViolation .tileBounds))) := by
  rw [exec_loopWs, loopWs_eq, hws, check_false, hpad, check_false, h, check_true, Res.finish_violation]

/-- Settles O54, by the three checks in their order. -/
theorem loopWsRejections : Obligations.LoopWsRejections := by
  refine fun f s => ⟨fun h => ?needsWS, fun hws ha hb h => ?padding, fun hws ha hb hi hj hk h => ?tileBounds⟩
  case needsWS => exact exec_loopWs_needsWS (loopNeedsWS_iff.mpr h) f
  case padding => exact exec_loopWs_padding (loopNeedsWS_eq_false_iff.mpr ⟨hws, ha, hb⟩) (paddingTooLarge_iff.mpr h) f
  case tileBounds =>
    refine exec_loopWs_tileBounds (loopNeedsWS_eq_false_iff.mpr ⟨hws, ha, hb⟩) ?_ (tilesTooMany_iff.mpr h) f
    rw [Bool.eq_false_iff, ne_eq, paddingTooLarge_iff]
    omega

/-- A `LOOP_WS` that is not accepted stops at the first check that objects. -/
theorem exec_loopWs_rejected {s : State} (h : ¬ loopAccepted s) (f : LoopFlags) :
    ∃ reason, exec (.loopWs f) s = .next (s.takeError (.fatal (.configurationViolation reason))) := by
  cases hws : loopNeedsWS s.cfg with
  | true => exact ⟨_, exec_loopWs_needsWS hws f⟩
  | false =>
    cases hpad : paddingTooLarge s.params s.lw.bounds with
    | true => exact ⟨_, exec_loopWs_padding hws hpad f⟩
    | false =>
      cases htiles : tilesTooMany s.params s.lw.bounds with
      | true => exact ⟨_, exec_loopWs_tileBounds hws hpad htiles f⟩
      | false => exact absurd (loopAccepted_iff.mpr ⟨hws, hpad, htiles⟩) h

/-- Settles O17: a violation is raised before anything has changed, and the checks of `LOOP_WS` are made first. -/
theorem configurationViolationsArePrecise : Obligations.ConfigurationViolationsArePrecise :=
  ⟨fun _ _ _ _ => exec_violation_precise, fun f _ h => exec_loopWs_rejected h f⟩

/-! ## Which command writes what (R23 to R43) -/

/-- The part of the state that the procedure of a command can have changed, stopped or not, from `s` to `u`. -/
inductive CommandFrame (s u : State) : Instr → Prop
  | moveIn (k : Fin 3) (addr : Word) (d : AddrOperand) (h : banksOnly s u) : CommandFrame s u (mvinOf k addr d)
  | moveOut (addr : Word) (d : AddrOperand) (h : dramOnly s u) : CommandFrame s u (.mvout addr d)
  | compute (p : Bool) (a b : AddrOperand) (h : arrayOnly s u) : CommandFrame s u (computeOf p a b)
  | preload (src dst : AddrOperand) (h : u = s.withPreload u.pre u.out) : CommandFrame s u (.preload src dst)
  | sequencer (f : LoopFlags) (h : dataOnly s u) : CommandFrame s u (.loopWs f)
  | configEx (w : ExConfig) (h : u = s.withCfg u.cfg) : CommandFrame s u (.configEx w)
  | configLd (w : LdConfig) (h : u = s.withCfg u.cfg) : CommandFrame s u (.configLd w)
  | configSt (w : StConfig) (h : u = s.withCfg u.cfg) : CommandFrame s u (.configSt w)
  | bounds (b : LoopBounds) (h : u = s.withLw u.lw) : CommandFrame s u (.loopWsConfigBounds b)
  | addrsAb (a b : Word) (h : u = s.withLw u.lw) : CommandFrame s u (.loopWsConfigAddrsAb a b)
  | addrsDc (d c : Word) (h : u = s.withLw u.lw) : CommandFrame s u (.loopWsConfigAddrsDc d c)
  | stridesAb (a b : Word) (h : u = s.withLw u.lw) : CommandFrame s u (.loopWsConfigStridesAb a b)
  | stridesDc (d c : Word) (h : u = s.withLw u.lw) : CommandFrame s u (.loopWsConfigStridesDc d c)
  | flush (h : u = s) : CommandFrame s u .flush
  | fence (h : u = s) : CommandFrame s u .fence

theorem bodyOf_frame (i : Instr) (s : State) : CommandFrame s (bodyOf i s).state i := by
  cases i with
  | mvin a d => exact .moveIn 0 a d (moveIn_banksOnly (banksOnly_refl s) 0 a d)
  | mvin2 a d => exact .moveIn 1 a d (moveIn_banksOnly (banksOnly_refl s) 1 a d)
  | mvin3 a d => exact .moveIn 2 a d (moveIn_banksOnly (banksOnly_refl s) 2 a d)
  | mvout a d => exact .moveOut a d (moveOut_dramOnly (dramOnly_refl s) a d)
  | computePreloaded a b => exact .compute true a b (compute_arrayOnly a b true s)
  | computeAccumulated a b => exact .compute false a b (compute_arrayOnly a b false s)
  | preload src dst => exact .preload src dst (preloadRecord_recordOnly src dst s)
  | loopWs f => exact .sequencer f (loopWs_dataOnly f s)
  | configEx w =>
    refine .configEx w ?_
    rw [bodyOf]
    rcases configEx_cases w s with ⟨_, e⟩ | ⟨_, _, _, _, _, _, e⟩ <;> rw [e] <;> rfl
  | configLd w =>
    refine .configLd w ?_
    rw [bodyOf]
    rcases configLd_cases w s with ⟨_, e⟩ | ⟨_, _, _, e⟩ <;> rw [e] <;> rfl
  | configSt w =>
    refine .configSt w ?_
    rw [bodyOf]
    rcases configSt_cases w s with ⟨_, e⟩ | ⟨_, _, _, _, e⟩ <;> rw [e] <;> rfl
  | loopWsConfigBounds b => exact .bounds b rfl
  | loopWsConfigAddrsAb a b => exact .addrsAb a b rfl
  | loopWsConfigAddrsDc d c => exact .addrsDc d c rfl
  | loopWsConfigStridesAb a b => exact .stridesAb a b rfl
  | loopWsConfigStridesDc d c => exact .stridesDc d c rfl
  | flush => exact .flush rfl
  | fence => exact .fence rfl

/-- The end of a command writes the latch and the report only. -/
theorem exec_next_state {i : Instr} {s t : State} (h : exec i s = .next t) :
    t = ((bodyOf i s).state.withStatus t.status).withReport t.report := by
  rw [exec_eq_finish] at h
  rcases (bodyOf i s).finish_cases with ⟨u, hu, e⟩ | ⟨err, u, hu, e⟩ | ⟨_, _, _, e⟩ <;> rw [e] at h <;> cases h <;>
    (rw [hu]; rfl)

namespace CommandFrame

variable {s u : State} {i : Instr}

theorem params (hf : CommandFrame s u i) : u.params = s.params := by
  cases hf with
  | moveIn _ _ _ h | moveOut _ _ h | compute _ _ _ h | preload _ _ h | sequencer _ h | configEx _ h | configLd _ h
  | configSt _ h | bounds _ h | addrsAb _ _ h | addrsDc _ _ h | stridesAb _ _ h | stridesDc _ _ h | flush h
  | fence h =>
    exact (congrArg State.params h :)

theorem host (hf : CommandFrame s u i) : u.host = s.host := by
  cases hf with
  | moveIn _ _ _ h | moveOut _ _ h | compute _ _ _ h | preload _ _ h | sequencer _ h | configEx _ h | configLd _ h
  | configSt _ h | bounds _ h | addrsAb _ _ h | addrsDc _ _ h | stridesAb _ _ h | stridesDc _ _ h | flush h
  | fence h =>
    exact (congrArg State.host h :)

theorem dram (hf : CommandFrame s u i) (hout : ∀ a d, i ≠ .mvout a d) (hloop : ∀ f, i ≠ .loopWs f) :
    u.dram = s.dram := by
  cases hf with
  | moveOut a d _ => exact absurd rfl (hout a d)
  | sequencer f _ => exact absurd rfl (hloop f)
  | moveIn _ _ _ h | compute _ _ _ h | preload _ _ h | configEx _ h | configLd _ h | configSt _ h | bounds _ h
  | addrsAb _ _ h | addrsDc _ _ h | stridesAb _ _ h | stridesDc _ _ h | flush h | fence h =>
    exact (congrArg State.dram h :)

theorem banks (hf : CommandFrame s u i) (hin : ∀ k a d, i ≠ mvinOf k a d) (hcomp : ∀ p a b, i ≠ computeOf p a b)
    (hloop : ∀ f, i ≠ .loopWs f) : u.sp = s.sp ∧ u.acc = s.acc := by
  cases hf with
  | moveIn k a d _ => exact absurd rfl (hin k a d)
  | compute p a b _ => exact absurd rfl (hcomp p a b)
  | sequencer f _ => exact absurd rfl (hloop f)
  | moveOut _ _ h | preload _ _ h | configEx _ h | configLd _ h | configSt _ h | bounds _ h | addrsAb _ _ h
  | addrsDc _ _ h | stridesAb _ _ h | stridesDc _ _ h | flush h | fence h =>
    exact ⟨(congrArg State.sp h :), (congrArg State.acc h :)⟩

theorem pe (hf : CommandFrame s u i) (hcomp : ∀ p a b, i ≠ computeOf p a b) (hloop : ∀ f, i ≠ .loopWs f) :
    u.pe = s.pe := by
  cases hf with
  | compute p a b _ => exact absurd rfl (hcomp p a b)
  | sequencer f _ => exact absurd rfl (hloop f)
  | moveIn _ _ _ h | moveOut _ _ h | preload _ _ h | configEx _ h | configLd _ h | configSt _ h | bounds _ h
  | addrsAb _ _ h | addrsDc _ _ h | stridesAb _ _ h | stridesDc _ _ h | flush h | fence h =>
    exact (congrArg State.pe h :)

theorem cfg (hf : CommandFrame s u i) (hex : ∀ w, i ≠ .configEx w) (hld : ∀ w, i ≠ .configLd w)
    (hst : ∀ w, i ≠ .configSt w) : u.cfg = s.cfg := by
  cases hf with
  | configEx w _ => exact absurd rfl (hex w)
  | configLd w _ => exact absurd rfl (hld w)
  | configSt w _ => exact absurd rfl (hst w)
  | moveIn _ _ _ h | moveOut _ _ h | compute _ _ _ h | preload _ _ h | sequencer _ h | bounds _ h | addrsAb _ _ h
  | addrsDc _ _ h | stridesAb _ _ h | stridesDc _ _ h | flush h | fence h =>
    exact (congrArg State.cfg h :)

theorem preloadRecord (hf : CommandFrame s u i) (hpre : ∀ x y, i ≠ .preload x y) (hloop : ∀ f, i ≠ .loopWs f) :
    u.pre = s.pre ∧ u.out = s.out := by
  cases hf with
  | preload x y _ => exact absurd rfl (hpre x y)
  | sequencer f _ => exact absurd rfl (hloop f)
  | moveIn _ _ _ h | moveOut _ _ h | compute _ _ _ h | configEx _ h | configLd _ h | configSt _ h | bounds _ h
  | addrsAb _ _ h | addrsDc _ _ h | stridesAb _ _ h | stridesDc _ _ h | flush h | fence h =>
    exact ⟨(congrArg State.pre h :), (congrArg State.out h :)⟩

theorem lw (hf : CommandFrame s u i) (hbounds : ∀ b, i ≠ .loopWsConfigBounds b)
    (haab : ∀ a b, i ≠ .loopWsConfigAddrsAb a b) (hadc : ∀ d c, i ≠ .loopWsConfigAddrsDc d c)
    (hsab : ∀ a b, i ≠ .loopWsConfigStridesAb a b) (hsdc : ∀ d c, i ≠ .loopWsConfigStridesDc d c) : u.lw = s.lw := by
  cases hf with
  | bounds b _ => exact absurd rfl (hbounds b)
  | addrsAb a b _ => exact absurd rfl (haab a b)
  | addrsDc d c _ => exact absurd rfl (hadc d c)
  | stridesAb a b _ => exact absurd rfl (hsab a b)
  | stridesDc d c _ => exact absurd rfl (hsdc d c)
  | moveIn _ _ _ h | moveOut _ _ h | compute _ _ _ h | preload _ _ h | sequencer _ h | configEx _ h | configLd _ h
  | configSt _ h | flush h | fence h =>
    exact (congrArg State.lw h :)

end CommandFrame

/-- Settles O19: the frame of the command's procedure, field by field; its end writes only the latch and the report. -/
theorem commandsWriteOnlyTheirState : Obligations.CommandsWriteOnlyTheirState := by
  intro i s t h
  have hf := bodyOf_frame i s
  rw [exec_next_state h]
  exact ⟨hf.params, hf.host, hf.dram, hf.banks, hf.pe, hf.cfg, hf.preloadRecord, hf.lw⟩

end Sys2Proof.Machine

/-!
PROOFS. The invariant of the block (R23 to R25, R30 to R34, R37, R40, R42): its parts by name, what each field update needs
to keep it, and that every procedure of a command, the host's actions and the reset hook keep it.
-/

namespace Sys2Proof.Machine

/-! ## The parts of the invariant -/

/-- The nine parts of `State.consistent`. -/
structure Consistent (s : State) : Prop where
  legal : s.params.legal = true
  dram : Memory.inSpace s.dram = true
  sp : Bank.fits s.sp s.params.elemBits s.params.spRows s.params.dim = true
  acc : Bank.fits s.acc s.params.accBits s.params.accRows s.params.dim = true
  pe : Bank.fits s.pe s.params.accBits s.params.dim s.params.dim = true
  cfg : s.cfg.legal s.params = true
  pre : s.pre.fits s.params = true
  preSp : s.pre.isNull = true ∨ s.pre.toAcc = false
  out : s.out.fits s.params = true

theorem State.consistent_iff {s : State} : s.consistent = true ↔ Consistent s := by
  simp only [State.consistent, Bool.and_eq_true, Bool.or_eq_true, Bool.not_eq_true']
  constructor
  · rintro ⟨⟨⟨⟨⟨⟨⟨⟨h1, h2⟩, h3⟩, h4⟩, h5⟩, h6⟩, h7⟩, h8⟩, h9⟩
    exact ⟨h1, h2, h3, h4, h5, h6, h7, h8, h9⟩
  · rintro ⟨h1, h2, h3, h4, h5, h6, h7, h8, h9⟩
    exact ⟨⟨⟨⟨⟨⟨⟨⟨h1, h2⟩, h3⟩, h4⟩, h5⟩, h6⟩, h7⟩, h8⟩, h9⟩

theorem Cfg.legal_iff {p : Params} {c : Cfg} : c.legal p = true ↔
    (shiftTooLarge p c.sysShift = false ∧ shiftTooLarge p c.accShift = false ∧ shiftTooLarge p c.relu6Shift = false) ∧
    scaleNotFinite c.accScale = false ∧
    (scaleNotFinite c.load0.scale = false ∧ scaleNotFinite c.load1.scale = false ∧
      scaleNotFinite c.load2.scale = false) ∧
    transposeForbidden c.dataflow c.aTranspose c.bTranspose = false ∧ poolWindowEmpty c.pool = false := by
  simp only [Cfg.legal, Bool.and_eq_true, Bool.not_eq_true', and_assoc]

theorem Params.legal_accBits {p : Params} (h : p.legal = true) : 1 ≤ p.accBits := by
  obtain ⟨h8, -, -, hlt⟩ := Params.legal_bits h
  omega

/-- A bank with a cell written inside its extent, with a value of its width, still fits. -/
theorem Bank.fits_put {p : Params} {b : Bank} {n rows r c : Nat} {v : Int} (hb : Bank.fits b n rows p.dim = true)
    (hr : r < rows) (hc : c < p.dim) (hv : fitsIn n v = true) : Bank.fits (putCell p b r c v) n rows p.dim = true := by
  simp only [Bank.fits, Bool.and_eq_true, List.all_eq_true, decide_eq_true_eq] at hb ⊢
  obtain ⟨hwf, hcells⟩ := hb
  refine ⟨sparseSet_wf 0 hwf _ _, fun x hx => ?_⟩
  rcases mem_sparseSet 0 hx with rfl | hx
  · exact ⟨cellKey_lt hr hc, hv⟩
  · exact hcells x hx

theorem Memory.inSpace_set {m : Memory} (h : Memory.inSpace m = true) {a : Nat} (ha : a < 2 ^ 64) (v : Byte) :
    Memory.inSpace (sparseSet Config.unwrittenByte m a v) = true := by
  simp only [Memory.inSpace, Bool.and_eq_true, List.all_eq_true, decide_eq_true_eq] at h ⊢
  obtain ⟨hwf, hcells⟩ := h
  refine ⟨Memory.wf_set hwf a v, fun x hx => ?_⟩
  rcases mem_sparseSet _ hx with rfl | hx
  · exact ha
  · exact hcells x hx

/-- A check keeps a property that what follows keeps where the check does not object. -/
theorem check_keeps_of_passed {P : State → Prop} {bad : Bool} {reason : ConfigReason} {s : State} {rest : Res} (hs : P s)
    (hr : bad = false → P rest.state) : P (check bad reason s rest).state := by
  cases bad
  · exact hr rfl
  · exact hs

/-! ## Field updates -/

namespace Consistent

variable {s : State}

theorem dim_pos (h : Consistent s) : 0 < s.params.dim := Params.legal_dim h.legal

theorem withHost (h : Consistent s) (l : List HostAction) : Consistent (s.withHost l) := { h with }
theorem withReport (h : Consistent s) (r : Option Error) : Consistent (s.withReport r) := { h with }
theorem withStatus (h : Consistent s) (st : Status) : Consistent (s.withStatus st) := { h with }
theorem withLw (h : Consistent s) (l : TilingRecord) : Consistent (s.withLw l) := { h with }
theorem withCfg (h : Consistent s) {c : Cfg} (hc : c.legal s.params = true) : Consistent (s.withCfg c) :=
  { h with cfg := hc }
theorem withPreload (h : Consistent s) {x y : TileRef} (hx : x.fits s.params = true)
    (hsp : x.isNull = true ∨ x.toAcc = false) (hy : y.fits s.params = true) : Consistent (s.withPreload x y) :=
  { h with pre := hx, preSp := hsp, out := hy }

theorem putByte (h : Consistent s) {a : Nat} (ha : a < 2 ^ 64) (v : Byte) : Consistent (s.putByte a v) :=
  { h with dram := Memory.inSpace_set h.dram ha v }

theorem putSp (h : Consistent s) {r c : Nat} {v : Int} (hr : r < s.params.spRows) (hc : c < s.params.dim)
    (hv : fitsIn s.params.elemBits v = true) : Consistent (s.putSp r c v) :=
  { h with sp := Bank.fits_put h.sp hr hc hv }

theorem putAcc (h : Consistent s) {r c : Nat} {v : Int} (hr : r < s.params.accRows) (hc : c < s.params.dim)
    (hv : fitsIn s.params.accBits v = true) : Consistent (s.putAcc r c v) :=
  { h with acc := Bank.fits_put h.acc hr hc hv }

theorem putPe (h : Consistent s) {i j : Nat} {v : Int} (hi : i < s.params.dim) (hj : j < s.params.dim)
    (hv : fitsIn s.params.accBits v = true) : Consistent (s.putPe i j v) :=
  { h with pe := Bank.fits_put h.pe hi hj hv }

theorem takeError (h : Consistent s) (e : Error) : Consistent (s.takeError e) := by
  cases e
  · exact h.withReport _
  · exact (h.withStatus _).withReport _

/-- The values of the table of R44 are within every limit. -/
theorem takeReset (h : Consistent s) : Consistent s.takeReset := by
  have hshift : shiftTooLarge s.params 0 = false := by
    rw [← Bool.not_eq_true, shiftTooLarge_iff]
    exact Nat.not_le.mpr (Params.legal_accBits h.legal)
  have hscale : scaleNotFinite 0x3F800000 = false := by decide
  refine ⟨h.legal, h.dram, rfl, rfl, rfl, ?_, rfl, .inl rfl, rfl⟩
  exact Cfg.legal_iff.mpr ⟨⟨hshift, hshift, hshift⟩, hscale, ⟨hscale, hscale, hscale⟩, rfl, rfl⟩

/-! ## Reads -/

theorem spAt_fits (h : Consistent s) (r c : Nat) : fitsIn s.params.elemBits (s.spAt r c) = true :=
  Bank.fits_cellAt h.sp _ _ _

theorem peAt_fits (h : Consistent s) (i j : Nat) : fitsIn s.params.accBits (s.peAt i j) = true :=
  Bank.fits_cellAt h.pe _ _ _

/-- A narrow value is an accumulator word. -/
theorem narrow_fits (h : Consistent s) {x : Int} (hx : fitsIn s.params.elemBits x = true) :
    fitsIn s.params.accBits x = true := by
  obtain ⟨-, -, -, hlt⟩ := Params.legal_bits h.legal
  exact fits_widen hlt.le hx

theorem wrap_fits (h : Consistent s) (x : Int) : fitsIn s.params.accBits (wrapTo s.params.accBits x) = true :=
  wrapTo_fits (Params.legal_accBits h.legal) x

/-- A read that a position outside an extent answers with 0 gives an accumulator word. -/
theorem boundedRead_fits (h : Consistent s) {outside : Prop} [Decidable outside] {r c : Nat} {v : Int}
    (hv : (if outside then .ok 0 else s.readCell false r c) = (.ok v : Except Stop Int)) :
    fitsIn s.params.accBits v = true := by
  split at hv
  · cases hv
    exact zero_fits
  · rcases s.readCell_eq false r c with ⟨_, e⟩ | ⟨_, e⟩ <;> rw [e] at hv <;> cases hv
    exact h.narrow_fits (h.spAt_fits r c)

/-! ## The shared writes -/

theorem writeSp (h : Consistent s) (r : Nat) {c : Nat} {v : Int} (hc : c < s.params.dim)
    (hv : fitsIn s.params.elemBits v = true) : Consistent (s.writeSp r c v).state := by
  rcases s.writeSp_eq r c v with ⟨hr, e⟩ | ⟨_, e⟩ <;> rw [e]
  · exact h.putSp hr hc hv
  · exact h

theorem writeAcc (h : Consistent s) (accumulate : Bool) (r : Nat) {c : Nat} {v : Int} (hc : c < s.params.dim)
    (hv : fitsIn s.params.accBits v = true) : Consistent (s.writeAcc accumulate r c v).state := by
  rcases s.writeAcc_eq accumulate r c v with ⟨hr, e⟩ | ⟨_, e⟩ <;> rw [e]
  · refine h.putAcc hr hc ?_
    cases accumulate
    · exact hv
    · exact h.wrap_fits _
  · exact h

theorem writeByte (h : Consistent s) {a : Nat} (ha : a < 2 ^ 64) (v : Byte) : Consistent (s.writeByte a v).state := by
  rcases s.writeByte_eq a v with ⟨_, e⟩ | ⟨_, e⟩ <;> rw [e]
  · exact h.putByte ha v
  · exact h

theorem memWrite (h : Consistent s) (addr : Word) (n v : Nat) : Consistent (s.memWrite addr n v).state :=
  forRange_keeps (P := Consistent) (fun b _ _ hs => hs.writeByte (byteAddress_lt addr b) _) h

/-! ## The data mover -/

/-- Saturation brings a moved value to the width of its bank (R140). -/
theorem moveInCell (h : Consistent s) (k : Fin 3) (addr : Word) (d : AddrOperand) (r c : Nat) :
    Consistent (moveInCell k addr d r c s).state := by
  have hcol := transferCol_lt h.dim_pos c
  simp only [Machine.moveInCell]
  split
  · exact h
  · split
    · exact h
    · split
      · exact h.writeAcc _ _ hcol (satTo_fits _ _)
      · exact h.writeSp _ hcol (satTo_fits _ _)

theorem moveIn (h : Consistent s) (k : Fin 3) (addr : Word) (d : AddrOperand) :
    Consistent (moveIn k addr d s).state := by
  rw [moveIn_eq]
  exact check_keeps h (check_keeps h
    (runAll_keeps (P := Consistent) (fun x _ _ hs => hs.moveInCell k addr d x.1 x.2) h))

theorem moveOutCell (h : Consistent s) (addr : Word) (d : AddrOperand) (r c : Nat) :
    Consistent (moveOutCell addr d r c s).state := by
  unfold Machine.moveOutCell
  split
  · exact h
  · exact h.memWrite _ _ _

theorem pooledCell (h : Consistent s) (addr : Word) (d : AddrOperand) (pr pc ch : Nat) :
    Consistent (pooledCell addr d pr pc ch s).state := by
  unfold Machine.pooledCell
  split
  · exact h
  · exact h.memWrite _ _ _

theorem moveOut (h : Consistent s) (addr : Word) (d : AddrOperand) : Consistent (moveOut addr d s).state := by
  unfold Machine.moveOut
  refine check_keeps h (check_keeps h ?_)
  split
  · rw [plainMoveOut_eq]
    exact check_keeps h (runAll_keeps (P := Consistent) (fun x _ _ hs => hs.moveOutCell addr d x.1 x.2) h)
  · rw [pooledMoveOut_eq]
    exact check_keeps h (check_keeps h
      (runAll_keeps (P := Consistent) (fun x _ _ hs => hs.pooledCell addr d x.1.1 x.1.2 x.2) h))

/-! ## The compute engine -/

/-- What the checks of `PRELOAD` let through is within the limits of the record (R42, R171). -/
theorem preloadRecord (h : Consistent s) (src dst : AddrOperand) : Consistent (preloadRecord src dst s).state := by
  have hfits : ∀ o : AddrOperand, o.overCounts s.params = false → (tileRefOf o).fits s.params = true := fun o ho => by
    rw [← Bool.not_eq_true, AddrOperand.overCounts_iff] at ho
    cases hn : o.isNull
    · obtain ⟨hrows, hcols⟩ := not_or.mp fun hover => ho ⟨hn, hover⟩
      exact tileRefOf_fits ⟨Nat.not_lt.mp hrows, Nat.not_lt.mp hcols⟩
    · simp [TileRef.fits, hn]
  refine check_keeps_of_passed h fun hacc => check_keeps_of_passed h fun hsrc => check_keeps_of_passed h fun hdst => ?_
  refine h.withPreload (hfits src hsrc) ?_ (hfits dst hdst)
  rw [← Bool.not_eq_true, AddrOperand.inAccumulator_iff] at hacc
  simp only [tileRefOf_isNull, tileRefOf_toAcc]
  cases hn : src.isNull <;> simp_all

theorem preloadStep (h : Consistent s) : Consistent (preloadStep s).state := by
  have hloop := runAll_keeps (P := fun t => Consistent t ∧ t.params = s.params) (body := preloadCell)
    (xs := pairsOf s.params.dim s.params.dim) (s := s) (fun x hx t ⟨ht, hp⟩ => ?_) ⟨h, rfl⟩
  · rw [preloadStep_loop]
    exact hloop.1
  · obtain ⟨hi, hj⟩ := mem_pairsOf.mp hx
    rw [← hp] at hi hj
    unfold preloadCell
    split
    · exact ⟨ht, hp⟩
    · exact ⟨ht.putPe hi hj (ht.boundedRead_fits ‹_›), hp⟩

/-- Each link of a sum of products wraps (R180). -/
theorem macLink_fits (h : Consistent s) {acc v : Int} {x y : Except Stop Int}
    (hv : macLink s.params acc x y = .ok v) : fitsIn s.params.accBits v = true := by
  unfold macLink at hv
  split at hv
  · cases hv
  · split at hv <;> cases hv
    exact h.wrap_fits _

theorem macOsValue_fits (h : Consistent s) {a b : AddrOperand} {i j : Nat} {v : Int}
    (hv : macOsValue s a b i j = .ok v) : fitsIn s.params.accBits v = true := by
  unfold macOsValue at hv
  rw [foldRange_eq_foldAll] at hv
  exact foldAll_keeps (P := fun v => fitsIn s.params.accBits v = true) (fun _ _ _ _ _ => h.macLink_fits)
    (h.peAt_fits i j) hv

theorem macOs (h : Consistent s) (a b : AddrOperand) : Consistent (macOs a b s).state := by
  have hloop := runAll_keeps (P := fun t => Consistent t ∧ t.params = s.params) (body := macOsCell a b)
    (xs := pairsOf s.params.dim s.params.dim) (s := s) (fun x hx t ⟨ht, hp⟩ => ?_) ⟨h, rfl⟩
  · rw [macOs_loop]
    exact hloop.1
  · obtain ⟨hi, hj⟩ := mem_pairsOf.mp hx
    rw [← hp] at hi hj
    unfold macOsCell
    split
    · exact ⟨ht, hp⟩
    · exact ⟨ht.putPe hi hj (ht.macOsValue_fits ‹_›), hp⟩

theorem macWsValue_fits (h : Consistent s) {a b : AddrOperand} {i j : Nat} {v : Int}
    (hv : macWsValue s a b i j = .ok v) : fitsIn s.params.accBits v = true := by
  unfold macWsValue at hv
  split at hv
  · cases hv
  · rw [foldRange_eq_foldAll] at hv
    exact foldAll_keeps (P := fun v => fitsIn s.params.accBits v = true) (fun _ _ _ _ _ => h.macLink_fits)
      (h.boundedRead_fits ‹_›) hv

/-- Every entry of the scratch result matrix of a WS compute is an accumulator word. -/
theorem macWs_fits (h : Consistent s) {a b : AddrOperand} {res : Bank} (hres : macWs a b s = .ok res) (r c : Nat) :
    fitsIn s.params.accBits (cellAt s.params res r c) = true := by
  unfold macWs at hres
  rw [foldRange_eq_foldAll] at hres
  refine sparseGet_induction (P := fun v => fitsIn s.params.accBits v = true) 0 zero_fits ?_ _
  refine foldAll_keeps (P := fun m : Bank => ∀ x ∈ m, fitsIn s.params.accBits x.2 = true)
    (fun i _ m m' hm hrow => ?_) (fun _ hx => absurd hx List.not_mem_nil) hres
  rw [foldRange_eq_foldAll] at hrow
  refine foldAll_keeps (P := fun m : Bank => ∀ x ∈ m, fitsIn s.params.accBits x.2 = true)
    (fun j _ m m' hm hcell => ?_) hm hrow
  split at hcell <;> cases hcell
  intro x hx
  rcases mem_sparseSet 0 hx with rfl | hx
  · exact h.macWsValue_fits ‹_›
  · exact hm x hx

theorem writeResultCell (h : Consistent s) {v : Int} (hv : fitsIn s.params.accBits v = true) (i : Nat) {j : Nat}
    (hj : j < s.params.dim) : Consistent (writeResultCell v i j s).state := by
  unfold Machine.writeResultCell
  split
  · exact h.writeAcc _ _ hj hv
  · exact h.writeSp _ hj (sysQuantize_fits _ _ _)

/-- The recorded extent keeps the result write inside DIM columns (R42, R179). -/
theorem writeResult (h : Consistent s) {res : Bank}
    (hres : ∀ r c, fitsIn s.params.accBits (cellAt s.params res r c) = true) : Consistent (writeResult res s).state := by
  cases hnull : s.out.isNull with
  | true => rwa [writeResult_null hnull]
  | false =>
    have hloop := runAll_keeps (P := fun t => Consistent t ∧ banksOnly s t)
      (body := fun x t => Machine.writeResultCell (cellAt t.params res x.1 x.2) x.1 x.2 t)
      (xs := pairsOf s.out.rows.toNat s.out.cols.toNat) (s := s) (fun x hx t ⟨ht, hb⟩ => ?_) ⟨h, banksOnly_refl s⟩
    · rw [writeResult_loop hnull]
      exact hloop.1
    · have hj := (destination_lt_dim hnull h.out hx).2
      refine ⟨ht.writeResultCell ?_ _ (by rwa [hb.params]), writeResultCell_banksOnly hb _ _ _⟩
      rw [hb.params]
      exact hres _ _

theorem macAndWrite (h : Consistent s) (a b : AddrOperand) : Consistent (macAndWrite a b s).state := by
  unfold Machine.macAndWrite
  split
  · exact Res.andThen_keeps (P := Consistent) (h.macOs a b) fun t ht => ht.writeResult fun r c => ht.peAt_fits r c
  · split
    · exact h
    · exact h.writeResult (h.macWs_fits ‹_›)

theorem compute (h : Consistent s) (a b : AddrOperand) (p : Bool) : Consistent (compute a b p s).state := by
  rw [compute_eq]
  refine check_keeps h (check_keeps h (check_keeps h (check_keeps h ?_)))
  refine Res.andThen_keeps (P := Consistent) ?_ fun t ht => ht.macAndWrite a b
  cases p
  · exact h
  · exact h.preloadStep

/-! ## The sequencer: it calls the procedures above -/

theorem loopBody (h : Consistent s) (f : LoopFlags) (k j i : Nat) : Consistent (loopBody f k j i s).state := by
  unfold Machine.loopBody
  refine Res.andThen_keeps (P := Consistent) (Res.andThen_keeps (P := Consistent) (Res.andThen_keeps (P := Consistent)
    (Res.andThen_keeps (P := Consistent) ?_ fun t ht => ?_) fun t ht => ht.preloadRecord _ _)
    fun t ht => ht.compute _ _ _) fun t ht => ?_
  · unfold loopMoveA
    split
    · exact h.moveIn _ _ _
    · exact h
  · unfold loopMoveB
    split
    · exact ht.moveIn _ _ _
    · exact ht
  · unfold loopMoveC
    split
    · exact ht.moveOut _ _
    · exact ht

theorem loopWs (h : Consistent s) (f : LoopFlags) : Consistent (loopWs f s).state := by
  rw [loopWs_eq]
  refine check_keeps h (check_keeps h (check_keeps h (Res.andThen_keeps (P := Consistent) ?_ fun t ht => ?_)))
  · unfold loopPhase1
    split
    · exact forRange_keeps (P := Consistent) (fun i _ _ ht => forRange_keeps (P := Consistent)
        (fun j _ t ht => ht.moveIn _ _ _) ht) h
    · exact h
  · exact forRange_keeps (P := Consistent) (fun k _ _ ht => forRange_keeps (P := Consistent)
      (fun j _ _ ht => forRange_keeps (P := Consistent) (fun i _ t ht => ht.loopBody f k j i) ht) ht) ht

/-! ## The configuration commands: what their checks let through is legal -/

theorem configEx (h : Consistent s) (w : ExConfig) : Consistent (configEx w s).state := by
  rcases configEx_cases w s with ⟨_, e⟩ | ⟨act, _, hacc, hsys, hrelu6, htr, e⟩ <;> rw [e]
  · exact h
  · obtain ⟨-, hscale, hloads, -, hpool⟩ := Cfg.legal_iff.mp h.cfg
    exact h.withCfg (Cfg.legal_iff.mpr ⟨⟨hsys, hacc, hrelu6⟩, hscale, hloads, htr, hpool⟩)

theorem configLd (h : Consistent s) (w : LdConfig) : Consistent (configLd w s).state := by
  rcases configLd_cases w s with ⟨_, e⟩ | ⟨k, _, hfinite, e⟩ <;> rw [e]
  · exact h
  · obtain ⟨hshifts, hscale, ⟨h0, h1, h2⟩, htr, hpool⟩ := Cfg.legal_iff.mp h.cfg
    refine h.withCfg (Cfg.legal_iff.mpr ?_)
    match k with
    | 0 => exact ⟨hshifts, hscale, ⟨hfinite, h1, h2⟩, htr, hpool⟩
    | 1 => exact ⟨hshifts, hscale, ⟨h0, hfinite, h2⟩, htr, hpool⟩
    | 2 => exact ⟨hshifts, hscale, ⟨h0, h1, hfinite⟩, htr, hpool⟩

theorem configSt (h : Consistent s) (w : StConfig) : Consistent (configSt w s).state := by
  rcases configSt_cases w s with ⟨_, e⟩ | ⟨act, _, hfinite, hwindow, e⟩ <;> rw [e]
  · exact h
  · obtain ⟨hshifts, -, hloads, htr, -⟩ := Cfg.legal_iff.mp h.cfg
    exact h.withCfg (Cfg.legal_iff.mpr ⟨hshifts, hfinite, hloads, htr, hwindow⟩)

/-! ## Every command, every step -/

theorem bodyOf (h : Consistent s) (i : Instr) : Consistent (bodyOf i s).state := by
  cases i with
  | configEx w => exact h.configEx w
  | configLd w => exact h.configLd w
  | configSt w => exact h.configSt w
  | mvin addr d | mvin2 addr d | mvin3 addr d => exact h.moveIn _ addr d
  | mvout addr d => exact h.moveOut addr d
  | computePreloaded a b | computeAccumulated a b => exact h.compute a b _
  | preload src dst => exact h.preloadRecord src dst
  | loopWs f => exact h.loopWs f
  | loopWsConfigBounds | loopWsConfigAddrsAb | loopWsConfigAddrsDc | loopWsConfigStridesAb
  | loopWsConfigStridesDc => exact h.withLw _
  | flush | fence => exact h

theorem exec {i : Instr} {t : State} (h : Consistent s) (ht : exec i s = .next t) : Consistent t := by
  rw [exec_next_state ht]
  exact ((h.bodyOf i).withStatus _).withReport _

/-- A command presented to a Running block runs, or is rejected with an error (R97). -/
theorem step_command {c : Command} {rest : List HostAction} {t : State} (h : Consistent s)
    (hh : s.host = .command c :: rest) (ht : step s = .next t) : Consistent t := by
  have hrest := h.withHost rest
  cases hs : s.status with
  | faulted e =>
    rw [step_command_faulted hh hs] at ht
    cases ht
  | running =>
    cases hd : decode c with
    | ok i =>
      rw [step_command_running hh hs hd] at ht
      exact hrest.exec ht
    | error e =>
      rw [step_command_rejected hh hs hd] at ht
      cases ht
      exact hrest.takeError _

theorem step {t : State} (h : Consistent s) (ht : step s = .next t) : Consistent t := by
  cases hh : s.host with
  | nil =>
    rw [step_idle hh] at ht
    cases ht
    exact h
  | cons action rest =>
    cases action with
    | command c => exact h.step_command hh ht
    | resetHook =>
      rw [step_resetHook hh] at ht
      cases ht
      exact (h.withHost rest).takeReset
    | store addr v =>
      rw [step_store hh] at ht
      cases ht
      exact (h.withHost rest).putByte addr.isLt v

end Consistent

/-- Settles O21: every host action keeps the invariant, a command by the procedures it is made of. -/
theorem stepKeepsConsistent : Obligations.StepKeepsConsistent :=
  fun _ _ hs ht => State.consistent_iff.mpr ((State.consistent_iff.mp hs).step ht)

end Sys2Proof.Machine

/-!
PROOFS. The number forms (R10): wrapping picks the one representative in range, and a pattern read as signed gives back the
integer it is the pattern of. A narrow read inside a wide write (R68): the bytes of a pattern sum up to the pattern, and the
bytes from one on are those of the pattern shifted down.
-/

namespace Sys2Proof.Machine

/-! ## Wrap and sign extension (R10) -/

theorem fitsIn_iff_bounds {n : Nat} {x : Int} : fitsIn n x = true ↔ minOf n ≤ x ∧ x ≤ maxOf n := decide_eq_true_iff

theorem dvd_sub_wrapTo (n : Nat) (x : Int) : (2 : Int) ^ n ∣ x - wrapTo n x := by
  have h := Int.dvd_self_sub_bmod (x := x) (m := 2 ^ n)
  exact_mod_cast h

/-- Two congruent integers wrap alike. -/
theorem wrapTo_eq_of_dvd {n : Nat} {x y : Int} (h : (2 : Int) ^ n ∣ x - y) : wrapTo n x = wrapTo n y := by
  obtain ⟨k, hk⟩ := h
  have hx : x = y + ((2 ^ n : Nat) : Int) * k := by
    push_cast
    omega
  rw [wrapTo, wrapTo, hx, Int.add_mul_bmod_self_left]

/-- The pattern of a signed integer of the width, read as signed, is that integer. -/
theorem sextFrom_bitsOf {n : Nat} (hn : 1 ≤ n) {x : Int} (h : fitsIn n x = true) : sextFrom n (bitsOf n x) = x := by
  obtain ⟨m, rfl⟩ : ∃ m, n = m + 1 := ⟨n - 1, by omega⟩
  have hpos := pow2_pos m
  have hdouble := pow2_succ m
  have hcast : ((2 ^ (m + 1) : Nat) : Int) = pow2 (m + 1) := rfl
  rw [fitsIn_iff, Nat.add_sub_cancel] at h
  unfold sextFrom bitsOf
  by_cases hx : 0 ≤ x
  · rw [Int.emod_eq_of_lt hx (by omega), if_pos (by omega)]
    omega
  · have hmod : x % pow2 (m + 1) = x + pow2 (m + 1) := by
      rw [← Int.add_emod_right, Int.emod_eq_of_lt (by omega) (by omega)]
    rw [hmod, if_neg (by omega)]
    omega

/-- Settles O48: existence and uniqueness of the wrapped integer, and the reading of a pattern. -/
theorem numberForms : Obligations.NumberForms := by
  intro n x y hn
  obtain ⟨hlow, hhigh⟩ := fitsIn_iff_bounds.mp (wrapTo_fits hn x)
  refine ⟨hlow, hhigh, dvd_sub_wrapTo n x, fun hy hy' hdvd => ?_, fun hx hx' => ?_⟩
  · rw [wrapTo_eq_of_dvd hdvd, wrapTo_of_fits hn (fitsIn_iff_bounds.mpr ⟨hy, hy'⟩)]
  · exact sextFrom_bitsOf hn (fitsIn_iff_bounds.mpr ⟨hx, hx'⟩)

/-! ## Parts of a pattern (R68) -/

/-- The bytes of a pattern, weighted by their places, sum up to its low part. -/
theorem sum_byteOf (v m : Nat) : ∑ b ∈ Finset.range m, (byteOf v b).toNat * 2 ^ (8 * b) = v % 2 ^ (8 * m) := by
  induction m with
  | zero => simp [Nat.mod_one]
  | succ m ih =>
    rw [Finset.sum_range_succ, ih, byteOf, BitVec.toNat_ofNat, Nat.mul_succ, pow_add, Nat.mod_mul]
    ring

/-- The bytes of a pattern from byte k on are the bytes of the pattern shifted down. -/
theorem byteOf_add (v k b : Nat) : byteOf v (k + b) = byteOf (v / 2 ^ (8 * k)) b := by
  rw [byteOf, byteOf, Nat.div_div_eq_div_mul, ← pow_add, Nat.mul_add]

theorem byteAddress_add (addr : Word) (k b : Nat) :
    byteAddress (addr + BitVec.ofNat 64 k) b = byteAddress addr (k + b) := by
  rw [byteAddress, byteAddress, BitVec.ofNat_add, BitVec.add_assoc]

/-- Part of an access that is admitted is admitted. -/
theorem reachable_part {p : Params} {addr : Word} {n k m : Nat} (h : reachable p addr n) (hk : k + m ≤ n) :
    reachable p (addr + BitVec.ofNat 64 k) m := fun b hb => by
  rw [byteAddress_add]
  exact h (k + b) (by omega)

/-- The m bytes at offset k inside n bytes written are part of the pattern. -/
theorem State.withPattern_wordAt (s : State) (addr : Word) {n k m : Nat} (hn : n ≤ 2 ^ 64) (hk : k + m ≤ n) (v : Nat) :
    (s.withPattern addr n v).wordAt (addr + BitVec.ofNat 64 k) m = v / 2 ^ (8 * k) % 2 ^ (8 * m) := by
  rw [← sum_byteOf]
  refine Finset.sum_congr rfl fun b hb => ?_
  have hb := Finset.mem_range.mp hb
  rw [byteAddress_add, State.withPattern_byteAt s addr hn (by omega), byteOf_add]

/-- Settles O24: the write leaves its pattern, and the read is of part of it. -/
theorem mixedWidthReadBack : Obligations.MixedWidthReadBack := by
  intro s t addr n m e v hn hem hreach hwrite
  rw [State.memWrite_reachable hreach] at hwrite
  cases hwrite
  rw [State.memRead_reachable (by exact reachable_part hreach hem), State.withPattern_wordAt s addr hn hem]

end Sys2Proof.Machine

/-!
PROOFS. The data mover (R140 to R146): its operand checks in the order tested; a move-in and a move-out over any part of
their elements as one list of writes, so that the whole transfer and the one cut short by a row that does not exist are the
same lemma; and the maxima of the pooling path.
-/

namespace Sys2Proof.Machine

/-! ## The operand checks of a move-in (R140) -/

theorem exec_mvinOf_null {d : AddrOperand} (h : d.isNull = true) (k : Fin 3) (addr : Word) (s : State) :
    exec (mvinOf k addr d) s = .next (s.takeError (.fatal (.configurationViolation .nullOperand))) := by
  rw [exec_mvinOf, moveIn_eq, h, check_true, Res.finish_violation]

theorem exec_mvinOf_countRange {d : AddrOperand} {s : State} (hnull : d.isNull = false) (h : s.params.dim < d.nrows)
    (k : Fin 3) (addr : Word) :
    exec (mvinOf k addr d) s = .next (s.takeError (.fatal (.configurationViolation .countRange))) := by
  rw [exec_mvinOf, moveIn_eq, hnull, check_false, decide_eq_true h, check_true, Res.finish_violation]

/-- With an acceptable operand a move-in is its loops. -/
theorem moveIn_loop {d : AddrOperand} {s : State} (hnull : d.isNull = false) (hd : d.nrows ≤ s.params.dim)
    (k : Fin 3) (addr : Word) : moveIn k addr d s = moveInLoop k addr d s := by
  rw [moveIn_eq, hnull, check_false, decide_eq_false (Nat.not_lt.mpr hd), check_false]

theorem exec_mvinOf_loop {d : AddrOperand} {s : State} (hnull : d.isNull = false) (hd : d.nrows ≤ s.params.dim)
    (k : Fin 3) (addr : Word) : exec (mvinOf k addr d) s = (moveInLoop k addr d s).finish := by
  rw [exec_mvinOf, moveIn_loop hnull hd]

/-- Settles O29, by the two checks in their order. -/
theorem moveInRejections : Obligations.MoveInRejections :=
  fun k addr _ s => ⟨fun h => exec_mvinOf_null h k addr s, fun hnull h => exec_mvinOf_countRange hnull h k addr⟩

/-! ## A refused first byte (R65) -/

theorem moveInBytes_pos {p : Params} (hp : p.legal = true) (l : LoadState) (d : AddrOperand) :
    0 < moveInBytes p l d := by
  obtain ⟨h8, helem, hacc, hlt⟩ := Params.legal_bits hp
  unfold moveInBytes
  split <;> omega

@[simp] theorem transferRow_zero (p : Params) (d : AddrOperand) : transferRow p d 0 0 = d.base := by
  simp [transferRow]

theorem dramAddress_toNat (addr : Word) : dramAddress addr.toNat = addr := by
  rw [dramAddress, BitVec.ofNat_toNat, BitVec.setWidth_eq]

theorem byteAddress_zero (addr : Word) : byteAddress addr 0 = addr.toNat := by
  rw [byteAddress, BitVec.add_zero]

/-- The first element of a move-in is at its first byte, and is stuck where the platform refuses that. -/
theorem moveInCell_refused {s : State} {addr : Word} {d : AddrOperand} (hp : s.params.legal = true) (haddr : addr ≠ 0)
    (hrow : d.base < extentOf s.params d.isAcc) (hr : dramAdmit s.params addr.toNat = false) (k : Fin 3) :
    moveInCell k addr d 0 0 s = .stop (.stuck addr.toNat) s := by
  have hfirst : moveInAddress s.params (s.cfg.load k) addr d 0 0 = addr := by
    simp [moveInAddress, dramAddress_toNat]
  have hread : s.memRead addr (moveInBytes s.params (s.cfg.load k) d) = .error (.stuck addr.toNat) := by
    have hstuck := State.memRead_refused (s := s) (addr := addr) (moveInBytes_pos hp (s.cfg.load k) d) nofun
      (by rwa [byteAddress_zero])
    rwa [byteAddress_zero] at hstuck
  have hraw : moveInRaw s (s.cfg.load k) addr d 0 0 = .error (.stuck addr.toNat) := by
    rw [moveInRaw, if_neg haddr, hfirst, hread]
  simp only [moveInCell, transferRow_zero, if_neg (Nat.not_le.mpr hrow), hraw]

/-- Settles O25: no element runs before element (0, 0). -/
theorem refusedAddressIsStuck : Obligations.RefusedAddressIsStuck := by
  intro k addr d s hp hnull hd hrows hcols haddr hrow hr
  obtain ⟨before, after, e, hbefore⟩ := pairsOf_split hrows hcols
  have hnone : before = [] := List.eq_nil_iff_forall_not_mem.mpr fun x hx => by
    obtain ⟨-, -, hx | ⟨-, hx⟩⟩ := (hbefore x).mp hx <;> exact absurd hx (Nat.not_lt_zero _)
  have hstop := moveInCell_refused hp haddr hrow hr k
  rw [exec_mvinOf_loop hnull hd, moveInLoop, e, hnone, List.nil_append, runAll_cons, hstop, Res.andThen_stop,
    Res.finish_stuck]

/-! ## Complete move-ins (R140) -/

namespace MovedIn

variable {k : Fin 3} {addr : Word} {d : AddrOperand} {s t : State}

theorem spOnly (h : MovedIn k addr d s t) (hacc : d.isAcc = false) : t = (s.withReport none).withSp t.sp := by
  have hframe := h.frame
  rw [h.acc hacc] at hframe
  exact hframe

theorem accOnly (h : MovedIn k addr d s t) (hacc : d.isAcc = true) : t = (s.withReport none).withAcc t.acc := by
  have hframe := h.frame
  rw [h.sp hacc] at hframe
  exact hframe

/-- A scratchpad cell takes the scaled and saturated value. -/
theorem spAt (h : MovedIn k addr d s t) (hacc : d.isAcc = false) {r c : Nat} (hr : r < d.nrows) (hc : c < d.ncols) :
    t.spAt (transferRow s.params d r c) (transferCol s.params c) =
      scaleSat s.params.elemBits (sourceValue s k addr d r c) (s.cfg.load k).scale := by
  have hcell := h.target r hr c hc
  simpa only [transferCell, movedValue, hacc, h.params, Bool.false_eq_true, if_false] using hcell

/-- An accumulator cell takes the scaled and saturated value, or its wrapped sum with what it held. -/
theorem accAt (h : MovedIn k addr d s t) (hacc : d.isAcc = true) {r c : Nat} (hr : r < d.nrows) (hc : c < d.ncols) :
    t.accAt (transferRow s.params d r c) (transferCol s.params c) =
      if d.accumulate then wrapTo s.params.accBits (s.accAt (transferRow s.params d r c) (transferCol s.params c) +
        scaleSat s.params.accBits (sourceValue s k addr d r c) (s.cfg.load k).scale)
      else scaleSat s.params.accBits (sourceValue s k addr d r c) (s.cfg.load k).scale := by
  have hcell := h.target r hr c hc
  simpa only [transferCell, movedValue, hacc, h.params, if_true] using hcell

end MovedIn

/-- Settles O26: a scratchpad element is ELEM_BYTES long, and the move-in writes the elements' cells. -/
theorem moveInToScratchpad : Obligations.MoveInToScratchpad := by
  intro k addr d s hp hnull hacc hd hin hread
  have hbytes := moveInBytes_sp hacc s.params (s.cfg.load k)
  obtain ⟨t, hexec, hmoved⟩ := exec_mvinOf_movedIn hp hnull hd hin (by rwa [moveInReachable, hbytes])
  refine ⟨t, hexec, hmoved.spOnly hacc, fun r hr c hc => ?_, fun row col hcol h => (hmoved.other row col hcol h).1⟩
  have hcell := hmoved.spAt hacc hr hc
  rwa [sourceValue, hbytes] at hcell

/-- An accumulator element is ACC_BYTES long where the load state is not shrunk, and ELEM_BYTES where it is (R38). -/
theorem moveInBytes_acc {p : Params} {l : LoadState} {d : AddrOperand} {n : Nat} (hacc : d.isAcc = true)
    (hn : (l.shrunk = false ∧ n = p.accBytes) ∨ (l.shrunk = true ∧ n = p.elemBytes)) : moveInBytes p l d = n := by
  obtain ⟨hs, rfl⟩ | ⟨hs, rfl⟩ := hn <;> simp [moveInBytes, hacc, hs]

/-- Settles O27, as for the scratchpad, with the element size of the load state. -/
theorem moveInToAccumulator : Obligations.MoveInToAccumulator := by
  intro k addr d s n hp hnull hacc hd hn hin hread
  have hbytes := moveInBytes_acc hacc hn
  obtain ⟨t, hexec, hmoved⟩ := exec_mvinOf_movedIn hp hnull hd hin (by rwa [moveInReachable, hbytes])
  refine ⟨t, hexec, hmoved.accOnly hacc, fun r hr c hc => ?_, fun row col hcol h => (hmoved.other row col hcol h).2⟩
  have hcell := hmoved.accAt hacc hr hc
  rw [sourceValue, hbytes] at hcell
  refine ⟨fun hover => ?_, fun hover => ?_⟩ <;> rw [hover] at hcell <;> exact hcell

/-! ## A move-in cut short (R66, R307) -/

/-- The state after the writes of some elements of a move-in. -/
def State.afterMoveIn (s : State) (k : Fin 3) (addr : Word) (d : AddrOperand) (xs : List (Nat × Nat)) : State :=
  if d.isAcc then s.withAcc (sparseSetAll 0 (transferKey s.params d) (moveInWrite s k addr d) xs s.acc)
  else s.withSp (sparseSetAll 0 (transferKey s.params d) (moveInWrite s k addr d) xs s.sp)

section

variable {s : State} {k : Fin 3} {addr : Word} {d : AddrOperand} {xs : List (Nat × Nat)}

theorem runAll_moveInCell (hrow : ∀ x ∈ xs, transferRow s.params d x.1 x.2 < extentOf s.params d.isAcc)
    (hraw : ∀ x ∈ xs, moveInRaw s (s.cfg.load k) addr d x.1 x.2 = .ok (sourceValue s k addr d x.1 x.2)) :
    runAll (fun x => moveInCell k addr d x.1 x.2) xs s = .done (s.afterMoveIn k addr d xs) := by
  unfold State.afterMoveIn moveInWrite
  cases hacc : d.isAcc <;> rw [hacc] at hrow
  case false => exact moveIn_sp_writes (raw := fun x => sourceValue s k addr d x.1 x.2) hacc hrow hraw
  case true => exact moveIn_acc_writes (raw := fun x => sourceValue s k addr d x.1 x.2) hacc hrow hraw

theorem State.afterMoveIn_banksOnly : banksOnly s (s.afterMoveIn k addr d xs) := by
  unfold State.afterMoveIn
  split <;> rfl

theorem State.afterMoveIn_sp (h : d.isAcc = true) : (s.afterMoveIn k addr d xs).sp = s.sp := by
  rw [State.afterMoveIn, if_pos h, State.withAcc_sp]

theorem State.afterMoveIn_acc (h : d.isAcc = false) : (s.afterMoveIn k addr d xs).acc = s.acc := by
  rw [State.afterMoveIn, if_neg (by simp [h]), State.withSp_acc]

theorem State.afterMoveIn_transferCell (hp : s.params.legal = true) (hd : d.nrows ≤ s.params.dim) (hxs : xs.Nodup)
    (hin : ∀ x ∈ xs, x.1 < d.nrows) {r c : Nat} (hx : (r, c) ∈ xs) :
    transferCell (s.afterMoveIn k addr d xs) d r c = movedValue s k addr d r c := by
  rw [← moveInWrite_transferCell]
  cases hacc : d.isAcc <;> simp only [transferCell, State.afterMoveIn, hacc, Bool.false_eq_true, if_false, if_true]
  case false => exact cellAt_transferAll (Params.legal_dim hp) hd hxs hin hx s.sp
  case true => exact cellAt_transferAll (Params.legal_dim hp) hd hxs hin hx s.acc

theorem State.afterMoveIn_other (hp : s.params.legal = true) {row col : Nat} (hcol : col < s.params.dim)
    (h : ∀ x ∈ xs, ¬ isTarget s.params d x.1 x.2 row col) :
    (s.afterMoveIn k addr d xs).spAt row col = s.spAt row col ∧
    (s.afterMoveIn k addr d xs).accAt row col = s.accAt row col := by
  unfold State.afterMoveIn
  split
  · exact ⟨rfl, cellAt_transferAll_other (Params.legal_dim hp) hcol h s.acc⟩
  · exact ⟨cellAt_transferAll_other (Params.legal_dim hp) hcol h s.sp, rfl⟩

theorem moveInCell_out {r c : Nat} (h : extentOf s.params d.isAcc ≤ transferRow s.params d r c) :
    moveInCell k addr d r c s = .stop (Stop.outOfRange (rowError d.isAcc)) s := by
  simp only [moveInCell, if_pos h]

end

/-- Settles O30: the elements before (r₀, c₀) are one list of writes, and the loops stop at (r₀, c₀). -/
theorem moveInOutOfRange : Obligations.MoveInOutOfRange := by
  intro k addr d s r₀ c₀ hp hnull hd hr₀ hc₀ hout hin hread
  obtain ⟨before, after, e, hbefore⟩ := pairsOf_split hr₀ hc₀
  have hnodup : before.Nodup := (List.nodup_append.mp (e ▸ nodup_pairsOf d.nrows d.ncols)).1
  have hwrites : runAll (fun x => moveInCell k addr d x.1 x.2) before s = .done (s.afterMoveIn k addr d before) := by
    refine runAll_moveInCell (fun x hx => ?_) (fun x hx => ?_) <;> obtain ⟨hr, hc, hrun⟩ := (hbefore x).mp hx
    · exact hin x.1 hr x.2 hc hrun
    · exact moveInRaw_reachable hread hr hc
  have hparams := (State.afterMoveIn_banksOnly (s := s) (k := k) (addr := addr) (d := d) (xs := before)).params
  have hstop : moveInLoop k addr d s =
      .stop (Stop.outOfRange (rowError d.isAcc)) (s.afterMoveIn k addr d before) := by
    rw [moveInLoop, e]
    exact runAll_stop_at hwrites (moveInCell_out (by rwa [hparams]))
  refine ⟨(s.afterMoveIn k addr d before).takeError (.fatal (.outOfRange (rowError d.isAcc))), ?_, rfl, rfl, ?_,
    fun r hr c hc hrun => ?_, fun row col hcol h => ?_, State.afterMoveIn_sp, State.afterMoveIn_acc⟩
  · rw [exec_mvinOf_loop hnull hd, hstop, Res.finish_outOfRange]
  · have hframe := State.afterMoveIn_banksOnly (s := s) (k := k) (addr := addr) (d := d) (xs := before)
    exact congrArg (·.takeError (.fatal (.outOfRange (rowError d.isAcc)))) hframe
  · exact State.afterMoveIn_transferCell hp hd hnodup (fun x hx => ((hbefore x).mp hx).1)
      ((hbefore (r, c)).mpr ⟨hr, hc, hrun⟩)
  · refine State.afterMoveIn_other hp hcol fun x hx => ?_
    obtain ⟨hr, hc, hrun⟩ := (hbefore x).mp hx
    exact h x.1 hr x.2 hc hrun

end Sys2Proof.Machine

/-!
PROOFS. The move-out (R145, R146): its checks in the order tested; without pooling, and with pooling from a consistent
state, the bytes that any part of its items leaves in DRAM.
-/

namespace Sys2Proof.Machine

/-! ## The checks (R145, R146) -/

section

variable {addr : Word} {d : AddrOperand} {s : State}

theorem exec_mvout (addr : Word) (d : AddrOperand) (s : State) : exec (.mvout addr d) s = (moveOut addr d s).finish :=
  exec_eq_finish (.mvout addr d) s

theorem exec_mvout_nullOperand (h : d.isNull = true ∨ addr = 0) :
    exec (.mvout addr d) s = .next (s.takeError (.fatal (.configurationViolation .nullOperand))) := by
  cases hnull : d.isNull with
  | true => rw [exec_mvout, moveOut, hnull, check_true, Res.finish_violation]
  | false =>
    obtain rfl : addr = 0 := h.resolve_left (by simp [hnull])
    exact exec_mvout_null hnull

theorem exec_mvout_of_pool_off (hnull : d.isNull = false) (haddr : addr ≠ 0) (hpool : s.cfg.pool.stride = 0) :
    exec (.mvout addr d) s = (plainMoveOut addr d s).finish := by
  rw [exec_mvout, moveOut, hnull, check_false, beq_false_of_ne haddr, check_false, if_pos hpool]

theorem exec_mvout_of_pool_on (hnull : d.isNull = false) (haddr : addr ≠ 0) (hpool : s.cfg.pool.stride ≠ 0) :
    exec (.mvout addr d) s = (pooledMoveOut addr d s).finish := by
  rw [exec_mvout, moveOut, hnull, check_false, beq_false_of_ne haddr, check_false, if_neg hpool]

/-- Without pooling an acceptable move-out is its loops. -/
theorem moveOut_loop (hnull : d.isNull = false) (haddr : addr ≠ 0)
    (hpool : s.cfg.pool.stride = 0) (hd : d.nrows ≤ s.params.dim) : moveOut addr d s = moveOutLoop addr d s := by
  rw [moveOut, hnull, check_false, beq_false_of_ne haddr, check_false, if_pos hpool, plainMoveOut_eq,
    decide_eq_false (Nat.not_lt.mpr hd), check_false]

theorem exec_mvout_loop (hnull : d.isNull = false) (haddr : addr ≠ 0) (hpool : s.cfg.pool.stride = 0)
    (hd : d.nrows ≤ s.params.dim) : exec (.mvout addr d) s = (moveOutLoop addr d s).finish := by
  rw [exec_mvout, moveOut_loop hnull haddr hpool hd]

/-- With pooling an acceptable move-out is the loops of the pooling path. -/
theorem exec_mvout_pooledLoop (hnull : d.isNull = false) (haddr : addr ≠ 0) (hpool : s.cfg.pool.stride ≠ 0)
    (hd : d.ncols ≤ s.params.dim) (hfull : (d.isAcc && d.full) = false) :
    exec (.mvout addr d) s = (pooledLoop addr d s).finish := by
  rw [exec_mvout_of_pool_on hnull haddr hpool, pooledMoveOut_eq, decide_eq_false (Nat.not_lt.mpr hd), check_false, hfull,
    check_false]

end

/-- Settles O32, by the checks in their order, with pooling off and on. -/
theorem moveOutRejections : Obligations.MoveOutRejections := by
  refine fun addr d s => ⟨exec_mvout_nullOperand, fun hnull haddr hpool h => ?rows, fun hnull haddr hpool h => ?columns,
    fun hnull haddr hpool hd hacc hfull => ?full⟩
  case rows =>
    rw [exec_mvout_of_pool_off hnull haddr hpool, plainMoveOut_eq, decide_eq_true h, check_true, Res.finish_violation]
  case columns =>
    rw [exec_mvout_of_pool_on hnull haddr hpool, pooledMoveOut_eq, decide_eq_true h, check_true, Res.finish_violation]
  case full =>
    rw [exec_mvout_of_pool_on hnull haddr hpool, pooledMoveOut_eq, decide_eq_false (Nat.not_lt.mpr hd), check_false, hacc,
      hfull, Bool.and_self, check_true, Res.finish_violation]

/-! ## Without pooling (R145) -/

/-- The state after the writes of some elements of a move-out. -/
def State.afterMoveOut (s : State) (addr : Word) (d : AddrOperand) (xs : List (Nat × Nat)) : State :=
  s.withDram (writeBytes (byteWrites (xs.map (moveOutRun s addr d))) s.dram)

section

variable {s : State} {addr : Word} {d : AddrOperand} {xs : List (Nat × Nat)}

/-- A byte of an element that no later byte of the elements falls on (R76). -/
theorem State.afterMoveOut_byteAt (hxs : xs.Pairwise fun x y => runsBefore x.1 x.2 y.1 y.2) {r c b : Nat}
    (hx : (r, c) ∈ xs) (hb : b < moveOutBytes s.params d)
    (hl : ∀ y ∈ xs, ∀ b' < moveOutBytes s.params d, runsBefore r c y.1 y.2 ∨ (r = y.1 ∧ c = y.2 ∧ b < b') →
      moveOutByte s addr d y.1 y.2 b' ≠ moveOutByte s addr d r c b) :
    (s.afterMoveOut addr d xs).byteAt (moveOutByte s addr d r c b) =
      byteOf (moveOutPattern s d (transferCell s d r c)) b := by
  refine writeBytes_unhidden (run := moveOutRun s addr d) hxs hx hb (fun y hy b' hb' hlater => ?_) s.dram
  refine hl y hy b' hb' (hlater.imp_right fun ⟨hxy, hbb⟩ => ?_)
  rw [← hxy]
  exact ⟨rfl, rfl, hbb⟩

theorem State.afterMoveOut_untouched {a : Nat}
    (h : ∀ x ∈ xs, ∀ b < moveOutBytes s.params d, a ≠ moveOutByte s addr d x.1 x.2 b) :
    (s.afterMoveOut addr d xs).byteAt a = s.byteAt a :=
  writeBytes_untouched (run := moveOutRun s addr d) h s.dram

theorem moveOutCell_out {r c : Nat} (h : extentOf s.params d.isAcc ≤ transferRow s.params d r c) :
    moveOutCell addr d r c s = .stop (Stop.outOfRange (rowError d.isAcc)) s := by
  have hread : s.readCell d.isAcc (transferRow s.params d r c) (transferCol s.params c) =
      .error (Stop.outOfRange (rowError d.isAcc)) := if_pos h
  rw [moveOutCell, hread]

end

/-- Settles O31: the move-out is the list of the writes of all its elements, in the order they run. -/
theorem moveOutWritesExtent : Obligations.MoveOutWritesExtent := by
  intro addr d s hp hnull haddr hpool hd hin hwrite
  refine ⟨(s.afterMoveOut addr d (pairsOf d.nrows d.ncols)).withReport none,
    exec_mvout_plain hnull haddr hpool hd hin hwrite, rfl, fun r hr c hc b hb hl => ?written, fun x h => ?untouched⟩
  case written =>
    refine State.afterMoveOut_byteAt (pairsOf_pairwise _ _) (mem_pairsOf.mpr ⟨hr, hc⟩) hb fun y hy b' hb' => ?_
    obtain ⟨hyr, hyc⟩ := mem_pairsOf.mp hy
    exact hl y.1 hyr y.2 hyc b' hb'
  case untouched =>
    refine State.afterMoveOut_untouched fun y hy => ?_
    obtain ⟨hyr, hyc⟩ := mem_pairsOf.mp hy
    exact h y.1 hyr y.2 hyc

/-! ## With pooling (R146) -/

theorem mem_pooledItems {s : State} {d : AddrOperand} {x : (Nat × Nat) × Nat} : x ∈ pooledItems s d ↔
    (x.1.1 < s.cfg.pool.porows.toNat ∧ x.1.2 < s.cfg.pool.pocols.toNat) ∧ x.2 < d.ncols := by
  obtain ⟨⟨pr, pc⟩, ch⟩ := x
  simp [pooledItems]

/-- Channel `x.2` of output position `x.1` is moved out before channel `y.2` of position `y.1` (R146). -/
def pooledBefore (x y : (Nat × Nat) × Nat) : Prop :=
  runsBefore x.1.1 x.1.2 y.1.1 y.1.2 ∨ (x.1 = y.1 ∧ x.2 < y.2)

theorem pooledItems_pairwise (s : State) (d : AddrOperand) : (pooledItems s d).Pairwise pooledBefore := by
  unfold pooledItems
  rw [List.pairwise_flatMap]
  refine ⟨fun x _ => ?_, (pairsOf_pairwise _ _).imp fun {x y} hxy u hu v hv => ?_⟩
  · exact List.pairwise_map.mpr (List.pairwise_lt_range.imp fun hch => .inr ⟨rfl, hch⟩)
  · simp only [List.mem_map] at hu hv
    obtain ⟨_, _, rfl⟩ := hu
    obtain ⟨_, _, rfl⟩ := hv
    exact .inl hxy

/-- The items can be split at the first channel of each output position. -/
theorem pooledItems_split {s : State} {d : AddrOperand} {pr pc : Nat} (hr : pr < s.cfg.pool.porows.toNat)
    (hc : pc < s.cfg.pool.pocols.toNat) (hch : 0 < d.ncols) :
    ∃ before after, pooledItems s d = before ++ ((pr, pc), 0) :: after ∧
      ∀ x, x ∈ before ↔ x ∈ pooledItems s d ∧ runsBefore x.1.1 x.1.2 pr pc := by
  obtain ⟨before, after, e, hbefore⟩ := pairsOf_split hr hc
  obtain ⟨channels, hchannels⟩ := range_split hch
  have hitems : pooledItems s d = (before.flatMap fun x => (List.range d.ncols).map fun ch => (x, ch)) ++
      ((pr, pc), 0) :: ((channels.map fun ch => ((pr, pc), ch)) ++
        after.flatMap fun x => (List.range d.ncols).map fun ch => (x, ch)) := by
    rw [pooledItems, e, List.flatMap_append, List.flatMap_cons]
    nth_rw 2 [hchannels]
    rfl
  refine ⟨_, _, hitems, fun x => ?_⟩
  rw [mem_pooledItems]
  simp only [List.mem_flatMap, List.mem_map, List.mem_range]
  constructor
  · rintro ⟨y, hy, ch, hch, rfl⟩
    obtain ⟨hyr, hyc, hrun⟩ := (hbefore y).mp hy
    exact ⟨⟨⟨hyr, hyc⟩, hch⟩, hrun⟩
  · rintro ⟨⟨⟨hxr, hxc⟩, hch⟩, hrun⟩
    exact ⟨x.1, (hbefore x.1).mpr ⟨hxr, hxc, hrun⟩, x.2, hch, rfl⟩

/-- Every value of a window is narrow. -/
theorem windowValue_fits {s : State} (h : Consistent s) (d : AddrOperand) (ch : Nat) (orow ocol : Int) :
    fitsIn s.params.elemBits (windowValue s d ch orow ocol) = true := by
  unfold windowValue
  split
  · cases d.isAcc
    · exact h.spAt_fits _ _
    · exact accReadout_fits _ _ _
  · exact zero_fits

/-- With pooling on no window is empty, so the maximum over one whose rows exist is one of its values (R146, R226). -/
theorem poolMax_isWindowMax {s : State} (h : Consistent s) (hpool : s.cfg.pool.stride ≠ 0) {d : AddrOperand} {pr pc : Nat}
    (hin : windowInRange s d pr pc) (ch : Nat) : ∃ m, poolMax s d pr pc ch = .ok m ∧ isWindowMax s d pr pc ch m := by
  have hsize : 0 < s.cfg.pool.size.toNat := by
    obtain ⟨-, -, -, -, hwindow⟩ := Cfg.legal_iff.mp h.cfg
    rw [← Bool.not_eq_true, poolWindowEmpty_iff] at hwindow
    exact Nat.pos_of_ne_zero fun h0 => hwindow ⟨hpool, BitVec.eq_of_toNat_eq h0⟩
  obtain ⟨m, hm, hmin, hle, hsome⟩ := poolMax_in hin ch
  refine ⟨m, hm, hle, hsome.elim (fun hlow => ?_) id⟩
  obtain ⟨hfirst, -⟩ := fitsIn_iff_bounds.mp (windowValue_fits h d ch (windowRow s.cfg.pool pr 0) (windowCol s.cfg.pool pc 0))
  exact ⟨0, hsize, 0, hsize, le_antisymm (hle 0 hsize 0 hsize) (hlow.trans_le hfirst)⟩

/-- The maximum that the pooling path writes for an item, 0 where it stops. -/
def windowMax (s : State) (d : AddrOperand) (x : (Nat × Nat) × Nat) : Int :=
  match poolMax s d x.1.1 x.1.2 x.2 with
  | .ok m => m
  | .error _ => 0

theorem windowMax_spec {s : State} (h : Consistent s) (hpool : s.cfg.pool.stride ≠ 0) {d : AddrOperand}
    {x : (Nat × Nat) × Nat} (hin : windowInRange s d x.1.1 x.1.2) :
    poolMax s d x.1.1 x.1.2 x.2 = .ok (windowMax s d x) ∧ isWindowMax s d x.1.1 x.1.2 x.2 (windowMax s d x) := by
  obtain ⟨m, hm, hmax⟩ := poolMax_isWindowMax h hpool hin x.2
  have hval : windowMax s d x = m := by rw [windowMax, hm]
  rw [hval]
  exact ⟨hm, hmax⟩

/-- The state after the writes of some items of the pooling path. -/
def State.afterPooled (s : State) (addr : Word) (d : AddrOperand) (xs : List ((Nat × Nat) × Nat)) : State :=
  s.withDram (writeBytes (byteWrites (xs.map (pooledRun s addr (windowMax s d)))) s.dram)

section

variable {s : State} {addr : Word} {d : AddrOperand} {xs : List ((Nat × Nat) × Nat)}

theorem runAll_pooledCell (h : Consistent s) (hpool : s.cfg.pool.stride ≠ 0)
    (hin : ∀ x ∈ xs, windowInRange s d x.1.1 x.1.2)
    (hr : ∀ x ∈ xs, reachable s.params (poolAddress s addr x.1.1 x.1.2 x.2) s.params.elemBytes) :
    runAll (fun x => pooledCell addr d x.1.1 x.1.2 x.2) xs s = .done (s.afterPooled addr d xs) :=
  pooled_writes (fun x hx => (windowMax_spec h hpool (hin x hx)).1) hr

/-- A byte of an item that no later byte of the items falls on (R76). -/
theorem State.afterPooled_byteAt (hxs : xs.Pairwise pooledBefore) {pr pc ch b : Nat} (hx : ((pr, pc), ch) ∈ xs)
    (hb : b < s.params.elemBytes)
    (hl : ∀ y ∈ xs, ∀ b' < s.params.elemBytes,
      runsBefore pr pc y.1.1 y.1.2 ∨ (pr = y.1.1 ∧ pc = y.1.2 ∧ runsBefore ch b y.2 b') →
      byteAddress (poolAddress s addr y.1.1 y.1.2 y.2) b' ≠ byteAddress (poolAddress s addr pr pc ch) b) :
    (s.afterPooled addr d xs).byteAt (byteAddress (poolAddress s addr pr pc ch) b) =
      byteOf (bitsOf s.params.elemBits (windowMax s d ((pr, pc), ch))) b := by
  refine writeBytes_unhidden (run := pooledRun s addr (windowMax s d)) hxs hx hb (fun y hy b' hb' hlater => ?_) s.dram
  refine hl y hy b' hb' ?_
  rcases hlater with (hrun | ⟨hpos, hch⟩) | ⟨rfl, hbb⟩
  · exact .inl hrun
  · exact .inr ⟨congrArg Prod.fst hpos, congrArg Prod.snd hpos, .inl hch⟩
  · exact .inr ⟨rfl, rfl, .inr ⟨rfl, hbb⟩⟩

theorem State.afterPooled_untouched {a : Nat}
    (h : ∀ x ∈ xs, ∀ b < s.params.elemBytes, a ≠ byteAddress (poolAddress s addr x.1.1 x.1.2 x.2) b) :
    (s.afterPooled addr d xs).byteAt a = s.byteAt a :=
  writeBytes_untouched (run := pooledRun s addr (windowMax s d)) h s.dram

theorem pooledCell_out {pr pc : Nat} (h : ¬ windowInRange s d pr pc) (ch : Nat) :
    pooledCell addr d pr pc ch s = .stop (Stop.outOfRange (rowError d.isAcc)) s := by
  rw [pooledCell, poolMax_out h]

end

/-- Settles O34: the move-out is the list of the writes of all output positions and channels, in the order they run. -/
theorem pooledMoveOutWritesMaxima : Obligations.PooledMoveOutWritesMaxima := by
  intro addr d s hs hnull haddr hpool hd hfull hin hwrite
  have hc := State.consistent_iff.mp hs
  have hwindows : ∀ x ∈ pooledItems s d, windowInRange s d x.1.1 x.1.2 := fun x hx => by
    obtain ⟨⟨hr, hcol⟩, hch⟩ := mem_pooledItems.mp hx
    exact hin (by omega) x.1.1 hr x.1.2 hcol
  have hloop : pooledLoop addr d s = .done (s.afterPooled addr d (pooledItems s d)) :=
    runAll_pooledCell hc hpool hwindows fun x hx => by
      obtain ⟨⟨hr, hcol⟩, hch⟩ := mem_pooledItems.mp hx
      exact hwrite x.1.1 hr x.1.2 hcol x.2 hch
  refine ⟨(s.afterPooled addr d (pooledItems s d)).withReport none, ?_, rfl, fun pr hpr pc hpc ch hch => ?written,
    fun a h => ?untouched⟩
  · rw [exec_mvout_pooledLoop hnull haddr hpool hd hfull, hloop, Res.finish_done]
  case written =>
    have hx : ((pr, pc), ch) ∈ pooledItems s d := mem_pooledItems.mpr ⟨⟨hpr, hpc⟩, hch⟩
    refine ⟨windowMax s d ((pr, pc), ch), (windowMax_spec hc hpool (hwindows _ hx)).2, fun b hb hl => ?_⟩
    refine State.afterPooled_byteAt (pooledItems_pairwise s d) hx hb fun y hy b' hb' => ?_
    obtain ⟨⟨hyr, hyc⟩, hych⟩ := mem_pooledItems.mp hy
    exact hl y.1.1 hyr y.1.2 hyc y.2 hych b' hb'
  case untouched =>
    refine State.afterPooled_untouched fun y hy b hb => ?_
    obtain ⟨⟨hyr, hyc⟩, hych⟩ := mem_pooledItems.mp hy
    exact h y.1.1 hyr y.1.2 hyc y.2 hych b hb

/-! ## Cut short by a row that does not exist (R66, R307) -/

/-- The plain path: the elements before (r₀, c₀) are written, and the loops stop there. -/
theorem moveOutLoop_stop {s : State} {addr : Word} {d : AddrOperand} {before after : List (Nat × Nat)} {r₀ c₀ : Nat}
    (e : pairsOf d.nrows d.ncols = before ++ (r₀, c₀) :: after)
    (hout : extentOf s.params d.isAcc ≤ transferRow s.params d r₀ c₀)
    (hin : ∀ x ∈ before, transferRow s.params d x.1 x.2 < extentOf s.params d.isAcc)
    (hwrite : ∀ x ∈ before, reachable s.params (moveOutAddress s addr d x.1 x.2) (moveOutBytes s.params d)) :
    moveOutLoop addr d s = .stop (Stop.outOfRange (rowError d.isAcc)) (s.afterMoveOut addr d before) := by
  rw [moveOutLoop, e]
  exact runAll_stop_at (moveOut_writes hin hwrite) (moveOutCell_out (s := s.afterMoveOut addr d before) hout)

/-- The pooling path: the items of the output positions before (pr₀, pc₀) are written, and the loops stop there. -/
theorem pooledLoop_stop {s : State} {addr : Word} {d : AddrOperand} {before after : List ((Nat × Nat) × Nat)}
    {pr₀ pc₀ : Nat} (h : Consistent s) (hpool : s.cfg.pool.stride ≠ 0)
    (e : pooledItems s d = before ++ ((pr₀, pc₀), 0) :: after) (hout : ¬ windowInRange s d pr₀ pc₀)
    (hin : ∀ x ∈ before, windowInRange s d x.1.1 x.1.2)
    (hwrite : ∀ x ∈ before, reachable s.params (poolAddress s addr x.1.1 x.1.2 x.2) s.params.elemBytes) :
    pooledLoop addr d s = .stop (Stop.outOfRange (rowError d.isAcc)) (s.afterPooled addr d before) := by
  rw [pooledLoop, e]
  exact runAll_stop_at (runAll_pooledCell h hpool hin hwrite)
    (pooledCell_out (s := s.afterPooled addr d before) hout 0)

/-- Settles O33: on either path the items before the first that is out of range are one list of writes. -/
theorem moveOutOutOfRange : Obligations.MoveOutOutOfRange := by
  refine ⟨fun addr d s r₀ c₀ _ hnull haddr hpool hd hr₀ hc₀ hout hin hwrite => ?plain,
    fun addr d s pr₀ pc₀ hs hnull haddr hpool hd hfull hch₀ hr₀ hc₀ hout hin hwrite => ?pooled⟩
  case plain =>
    obtain ⟨before, after, e, hbefore⟩ := pairsOf_split hr₀ hc₀
    have hstop : moveOutLoop addr d s =
        .stop (Stop.outOfRange (rowError d.isAcc)) (s.afterMoveOut addr d before) := by
      refine moveOutLoop_stop e hout (fun x hx => ?_) (fun x hx => ?_) <;> obtain ⟨hr, hc, hrun⟩ := (hbefore x).mp hx
      · exact hin x.1 hr x.2 hc hrun
      · exact hwrite x.1 hr x.2 hc
    have horder := (List.pairwise_append.mp (e ▸ pairsOf_pairwise d.nrows d.ncols)).1
    refine ⟨(s.afterMoveOut addr d before).takeError (.fatal (.outOfRange (rowError d.isAcc))), ?_, rfl, rfl, rfl,
      fun r hr c hc b hb hrun hl => ?_, fun a h => ?_⟩
    · rw [exec_mvout_loop hnull haddr hpool hd, hstop, Res.finish_outOfRange]
    · refine State.afterMoveOut_byteAt horder ((hbefore (r, c)).mpr ⟨hr, hc, hrun⟩) hb fun y hy b' hb' => ?_
      obtain ⟨hyr, hyc, hyrun⟩ := (hbefore y).mp hy
      exact hl y.1 hyr y.2 hyc b' hb' hyrun
    · refine State.afterMoveOut_untouched fun y hy b hb => ?_
      obtain ⟨hyr, hyc, hyrun⟩ := (hbefore y).mp hy
      exact h y.1 hyr y.2 hyc b hb hyrun
  case pooled =>
    have hcons := State.consistent_iff.mp hs
    obtain ⟨before, after, e, hbefore⟩ := pooledItems_split hr₀ hc₀ hch₀
    have hwindows : ∀ x ∈ before, windowInRange s d x.1.1 x.1.2 := fun x hx => by
      obtain ⟨hitem, hrun⟩ := (hbefore x).mp hx
      obtain ⟨⟨hr, hc⟩, -⟩ := mem_pooledItems.mp hitem
      exact hin x.1.1 hr x.1.2 hc hrun
    have hstop : pooledLoop addr d s =
        .stop (Stop.outOfRange (rowError d.isAcc)) (s.afterPooled addr d before) :=
      pooledLoop_stop hcons hpool e hout hwindows fun x hx => by
        obtain ⟨⟨hr, hc⟩, hch⟩ := mem_pooledItems.mp ((hbefore x).mp hx).1
        exact hwrite x.1.1 hr x.1.2 hc x.2 hch
    have horder := (List.pairwise_append.mp (e ▸ pooledItems_pairwise s d)).1
    refine ⟨(s.afterPooled addr d before).takeError (.fatal (.outOfRange (rowError d.isAcc))), ?_, rfl, rfl, rfl,
      fun pr hpr pc hpc ch hch hrun => ?_, fun a h => ?_⟩
    · rw [exec_mvout_pooledLoop hnull haddr hpool hd hfull, hstop, Res.finish_outOfRange]
    · have hx : ((pr, pc), ch) ∈ before := (hbefore _).mpr ⟨mem_pooledItems.mpr ⟨⟨hpr, hpc⟩, hch⟩, hrun⟩
      refine ⟨windowMax s d ((pr, pc), ch), (windowMax_spec hcons hpool (hwindows _ hx)).2, fun b hb hl => ?_⟩
      refine State.afterPooled_byteAt horder hx hb fun y hy b' hb' => ?_
      obtain ⟨hitem, hyrun⟩ := (hbefore y).mp hy
      obtain ⟨⟨hyr, hyc⟩, hych⟩ := mem_pooledItems.mp hitem
      exact hl y.1.1 hyr y.1.2 hyc y.2 hych b' hb' hyrun
    · refine State.afterPooled_untouched fun y hy b hb => ?_
      obtain ⟨hitem, hyrun⟩ := (hbefore y).mp hy
      obtain ⟨⟨hyr, hyc⟩, hych⟩ := mem_pooledItems.mp hitem
      exact h y.1.1 hyr y.1.2 hyc y.2 hych b hb hyrun

end Sys2Proof.Machine

/-!
PROOFS. The compute commands (R172 to R180, R307): the operand checks in the order tested; the result write over any part
of the destination, complete or cut short by a row that does not exist; and the traps of the operand reads, each at the
first cell of the array that reads a row that does not exist.
-/

namespace Sys2Proof.Machine

/-! ## The operand checks (R172) -/

theorem exec_computeOf_inAccumulator {a b : AddrOperand} (h : a.inAccumulator = true ∨ b.inAccumulator = true)
    (p : Bool) (s : State) : exec (computeOf p a b) s =
      .next (s.takeError (.fatal (.configurationViolation .operandInAccumulator))) := by
  rw [exec_computeOf, compute_eq]
  cases ha : a.inAccumulator with
  | true => rw [check_true, Res.finish_violation]
  | false => rw [check_false, h.resolve_left (by simp [ha]), check_true, Res.finish_violation]

theorem exec_computeOf_overCounts {a b : AddrOperand} {s : State} (ha : a.inAccumulator = false)
    (hb : b.inAccumulator = false) (h : a.overCounts s.params = true ∨ b.overCounts s.params = true) (p : Bool) :
    exec (computeOf p a b) s = .next (s.takeError (.fatal (.configurationViolation .countRange))) := by
  rw [exec_computeOf, compute_eq, ha, check_false, hb, check_false]
  cases hover : a.overCounts s.params with
  | true => rw [check_true, Res.finish_violation]
  | false => rw [check_false, h.resolve_left (by simp [hover]), check_true, Res.finish_violation]

/-- Settles O37, by the checks in their order. -/
theorem computeRejections : Obligations.ComputeRejections := by
  refine fun p a b s => ⟨fun h => ?inAccumulator, fun ha hb h => ?overCounts⟩
  case inAccumulator =>
    exact exec_computeOf_inAccumulator
      (h.imp AddrOperand.inAccumulator_iff.mpr AddrOperand.inAccumulator_iff.mpr) p s
  case overCounts =>
    exact exec_computeOf_overCounts (AddrOperand.inAccumulator_eq_false ha) (AddrOperand.inAccumulator_eq_false hb)
      (h.imp AddrOperand.overCounts_iff.mpr AddrOperand.overCounts_iff.mpr) p

theorem exec_computeOf_body {a b : AddrOperand} {s : State} (ha : a.arrayOperand s.params = true)
    (hb : b.arrayOperand s.params = true) (p : Bool) :
    exec (computeOf p a b) s = (computeBody a b p s).finish := by
  rw [exec_computeOf, compute_accepted ha hb]

/-! ## The weights of a WS compute (R178) -/

/-- The multiply-accumulate of WS dataflow is computed beside `PE`, and the result write does not touch it. -/
theorem macAndWrite_ws_pe {s : State} (h : s.cfg.dataflow = .ws) (a b : AddrOperand) :
    (macAndWrite a b s).state.pe = s.pe := by
  rw [macAndWrite, h]
  cases hmac : macWs a b s with
  | error why => rfl
  | ok res =>
    have hbanks := writeResult_banksOnly (banksOnly_refl s) res
    exact (congrArg State.pe hbanks :)

/-- Settles O40: without a preload step nothing else could write `PE`, and the end of the command does not. -/
theorem wsComputeKeepsWeights : Obligations.WsComputeKeepsWeights := by
  intro a b s t hws h
  rw [exec_next_state h]
  show (compute a b false s).state.pe = s.pe
  rw [compute_eq]
  have hs : s.pe = s.pe := rfl
  exact check_keeps (P := fun t => t.pe = s.pe) hs (check_keeps (P := fun t => t.pe = s.pe) hs
    (check_keeps (P := fun t => t.pe = s.pe) hs (check_keeps (P := fun t => t.pe = s.pe) hs
      (macAndWrite_ws_pe hws a b))))

/-! ## The result write over part of the destination (R179) -/

/-- What an entry of the result matrix v leaves in a scratchpad cell. -/
def State.spResultValue (s : State) (v : Nat → Nat → Int) (x : Nat × Nat) (_old : Int) : Int :=
  sysQuantize s.params s.cfg (v x.1 x.2)

/-- What an entry of the result matrix v leaves in an accumulator cell. -/
def State.accResultValue (s : State) (v : Nat → Nat → Int) (x : Nat × Nat) (old : Int) : Int :=
  if s.out.accumulate then wrapTo s.params.accBits (old + v x.1 x.2) else v x.1 x.2

/-- The state after the write of some entries of the result matrix v. -/
def State.resultWrites (s : State) (v : Nat → Nat → Int) (xs : List (Nat × Nat)) : State :=
  if s.out.toAcc then s.withAcc (sparseSetAll 0 (destinationKey s) (s.accResultValue v) xs s.acc)
  else s.withSp (sparseSetAll 0 (destinationKey s) (s.spResultValue v) xs s.sp)

section

variable {s : State} {v : Nat → Nat → Int} {xs : List (Nat × Nat)}

theorem State.resultWrites_banksOnly : banksOnly s (s.resultWrites v xs) := by
  unfold State.resultWrites
  split <;> rfl

theorem withResult_of_null (h : s.out.isNull = true) : s.withResult v = s := by
  rw [State.withResult, State.resultSp, State.resultAcc, h, if_neg (by simp), if_neg (by simp)]
  rfl

/-- The whole result write is the one over all entries of the extent. -/
theorem withResult_eq_resultWrites (h : s.out.isNull = false) :
    s.withResult v = s.resultWrites v (pairsOf s.out.rows.toNat s.out.cols.toNat) := by
  cases hacc : s.out.toAcc <;> simp [State.withResult, State.resultSp, State.resultAcc, State.resultWrites, h, hacc] <;>
    rfl

/-- Writes of entries whose destination rows exist. -/
theorem runAll_resultCell (hrow : ∀ x ∈ xs, s.out.base + x.1 < extentOf s.params s.out.toAcc) {res : Bank}
    (hres : ∀ x ∈ xs, cellAt s.params res x.1 x.2 = v x.1 x.2) :
    runAll (resultCell res) xs s = .done (s.resultWrites v xs) := by
  unfold State.resultWrites
  cases hacc : s.out.toAcc <;> rw [hacc] at hrow
  case false => rw [result_writes_sp hacc hrow, sparseSetAll_congr fun x hx _ => by rw [hres x hx]]; rfl
  case true => rw [result_writes_acc hacc hrow, sparseSetAll_congr fun x hx _ => by rw [hres x hx]]; rfl

/-- A bank after the write of some entries: the cells of these entries hold their values. -/
theorem cellAt_destinationAll_of_mem (hxs : xs.Nodup) (hcol : ∀ x ∈ xs, x.2 < s.params.dim) {row col : Nat}
    (h : s.out.base ≤ row ∧ (row - s.out.base, col) ∈ xs) (val : Nat × Nat → Int → Int) (m : Bank) :
    cellAt s.params (sparseSetAll 0 (destinationKey s) val xs m) row col =
      val (row - s.out.base, col) (cellAt s.params m row col) := by
  obtain ⟨hrow, hx⟩ := h
  have hcell := cellAt_destinationAll (s := s) (val := val) hxs hcol hx m
  rwa [Nat.add_sub_cancel' hrow] at hcell

/-- A bank after the write of some entries: every other cell is as before. -/
theorem cellAt_destinationAll_of_not_mem (hcol : ∀ x ∈ xs, x.2 < s.params.dim) {row col : Nat}
    (hc : col < s.params.dim) (h : ¬ (s.out.base ≤ row ∧ (row - s.out.base, col) ∈ xs))
    (val : Nat × Nat → Int → Int) (m : Bank) :
    cellAt s.params (sparseSetAll 0 (destinationKey s) val xs m) row col = cellAt s.params m row col := by
  refine cellAt_destinationAll_other (s := s) hcol hc (fun x hx e => h ?_) m
  obtain ⟨rfl, rfl⟩ := e
  exact ⟨Nat.le_add_right _ _, by rwa [Nat.add_sub_cancel_left]⟩

/-- What the writes of some entries leave in the banks: the cells of these entries, and no others. -/
theorem resultWrites_written (hxs : xs.Nodup) (hcol : ∀ x ∈ xs, x.2 < s.params.dim) :
    resultWrittenTo s (s.resultWrites v xs) v
      fun row col => s.out.base ≤ row ∧ (row - s.out.base, col) ∈ xs := by
  intro row col hc
  cases hacc : s.out.toAcc
  case false =>
    rw [State.resultWrites, if_neg (by simp [hacc])]
    exact ⟨fun _ h => cellAt_destinationAll_of_mem hxs hcol h (s.spResultValue v) s.sp, nofun, nofun,
      fun h => cellAt_destinationAll_of_not_mem hcol hc (fun hx => h ⟨rfl, hx⟩) (s.spResultValue v) s.sp,
      fun _ => rfl⟩
  case true =>
    rw [State.resultWrites, if_pos hacc]
    refine ⟨nofun, fun _ hover h => ?_, fun _ hadd h => ?_, fun _ => rfl,
      fun h => cellAt_destinationAll_of_not_mem hcol hc (fun hx => h ⟨rfl, hx⟩) (s.accResultValue v) s.acc⟩
    · exact (cellAt_destinationAll_of_mem hxs hcol h (s.accResultValue v) s.acc).trans (if_neg (by simp [hover]))
    · exact (cellAt_destinationAll_of_mem hxs hcol h (s.accResultValue v) s.acc).trans (if_pos hadd)

theorem resultWrittenTo_congr {t : State} {dest dest' : Nat → Nat → Prop}
    (h : ∀ row, ∀ col, dest row col ↔ dest' row col) (hw : resultWrittenTo s t v dest) : resultWrittenTo s t v dest' := by
  have : dest = dest' := funext fun row => funext fun col => propext (h row col)
  rwa [← this]

/-- The whole result write, into a destination that fits (R179). -/
theorem withResult_written (hfits : s.out.fits s.params = true) : resultWritten s (s.withResult v) v := by
  cases hnull : s.out.isNull with
  | true =>
    rw [withResult_of_null hnull]
    have hnone : ∀ row col, ¬ inDestination s row col := fun _ _ h => by
      rw [inDestination, hnull] at h
      exact nomatch h.1
    exact fun row col _ => ⟨fun _ h => absurd h (hnone row col), fun _ _ h => absurd h (hnone row col),
      fun _ _ h => absurd h (hnone row col), fun _ => rfl, fun _ => rfl⟩
  | false =>
    rw [withResult_eq_resultWrites hnull]
    refine resultWrittenTo_congr (fun row col => ?_)
      (resultWrites_written (nodup_pairsOf _ _) fun x hx => (destination_lt_dim hnull hfits hx).2)
    rw [mem_pairsOf, inDestination]
    simp only [hnull, true_and]
    omega

/-- The result write into a destination with a row that does not exist: the entries whose row exists are written, and the
write stops at the next (R66, R307). -/
theorem writeResult_stop (hfits : s.out.fits s.params = true) (hout : ¬ destinationInRange s) {res : Bank}
    (hres : ∀ i < s.params.dim, ∀ j < s.params.dim, cellAt s.params res i j = v i j) :
    ∃ xs, writeResult res s = .stop (Stop.outOfRange (rowError s.out.toAcc)) (s.resultWrites v xs) ∧
      resultWrittenTo s (s.resultWrites v xs) v (inDestinationAndBank s) := by
  unfold destinationInRange at hout
  simp only [Classical.not_imp, not_forall, Nat.not_lt] at hout
  obtain ⟨hnull, hcols, i₀, hi₀, hrow₀⟩ := hout
  have hfirst : ¬ ∀ x ∈ pairsOf s.out.rows.toNat s.out.cols.toNat, s.out.base + x.1 < extentOf s.params s.out.toAcc :=
    fun h => Nat.not_lt.mpr hrow₀ (h (i₀, 0) (mem_pairsOf.mpr ⟨hi₀, Nat.pos_of_ne_zero hcols⟩))
  obtain ⟨xs, x, after, e, hin, hx⟩ := exists_first hfirst
  have hsub : ∀ y ∈ xs, y ∈ pairsOf s.out.rows.toNat s.out.cols.toNat := fun y hy => e ▸ List.mem_append_left _ hy
  have hmem : ∀ y, y ∈ xs ↔ (y.1 < s.out.rows.toNat ∧ y.2 < s.out.cols.toNat) ∧
      s.out.base + y.1 < extentOf s.params s.out.toAcc := fun y => by
    refine ⟨fun hy => ⟨mem_pairsOf.mp (hsub y hy), hin y hy⟩, fun ⟨⟨hr, hc⟩, hy⟩ => ?_⟩
    exact (pairsOf_before e y).mpr ⟨hr, hc, .inl (by omega)⟩
  have hlt := fun y hy => destination_lt_dim hnull hfits (hsub y hy)
  refine ⟨xs, ?_, ?_⟩
  · have hloop := writeResult_loop hnull res
    rw [e] at hloop
    refine hloop.trans (runAll_stop_at (runAll_resultCell hin fun y hy => hres _ (hlt y hy).1 _ (hlt y hy).2) ?_)
    have hbanks := State.resultWrites_banksOnly (s := s) (v := v) (xs := xs)
    have hout' : (s.resultWrites v xs).out = s.out := (congrArg State.out hbanks :)
    have hstop := resultCell_out (s := s.resultWrites v xs) (x := x)
      (by rw [hbanks.params, hout']; exact Nat.not_lt.mp hx) res
    rwa [hout'] at hstop
  · refine resultWrittenTo_congr (fun row col => ?_)
      (resultWrites_written ((List.nodup_append.mp (e ▸ nodup_pairsOf _ _)).1) fun y hy => (hlt y hy).2)
    rw [hmem, inDestinationAndBank, inDestination]
    simp only [hnull, true_and]
    omega

end

/-! ## Complete computes (R173 to R179) -/

section

variable {s : State} {a b : AddrOperand} {p : Bool}

/-- A compute whose body writes the result matrix v with `pe` in `PE`, into a destination in range. -/
theorem exec_computeOf_withResult (h : Consistent s) (ha : a.arrayOperand s.params = true)
    (hb : b.arrayOperand s.params = true) (hdest : destinationInRange s) {pe res : Bank} {v : Nat → Nat → Int}
    (hbody : computeBody a b p s = writeResult res (s.withPe pe))
    (hres : ∀ i < s.params.dim, ∀ j < s.params.dim, cellAt s.params res i j = v i j) :
    exec (computeOf p a b) s = .next (((s.withPe pe).withResult v).withReport none) := by
  rw [exec_computeOf_body ha hb, hbody, writeResult_eq_withResult (s := s.withPe pe) h.out hdest hres, Res.finish_done]

/-- The same with a destination row that does not exist. -/
theorem exec_computeOf_resultOut (h : Consistent s) (ha : a.arrayOperand s.params = true)
    (hb : b.arrayOperand s.params = true) (hdest : ¬ destinationInRange s) {pe res : Bank} {v : Nat → Nat → Int}
    (hbody : computeBody a b p s = writeResult res (s.withPe pe))
    (hres : ∀ i < s.params.dim, ∀ j < s.params.dim, cellAt s.params res i j = v i j) :
    ∃ t, exec (computeOf p a b) s = .next (t.takeError (.fatal (.outOfRange (rowError s.out.toAcc)))) ∧
      banksOnly (s.withPe pe) t ∧ resultWrittenTo s t v (inDestinationAndBank s) := by
  obtain ⟨xs, hstop, hwritten⟩ := writeResult_stop (s := s.withPe pe) h.out hdest hres
  refine ⟨_, ?_, State.resultWrites_banksOnly, hwritten⟩
  rw [exec_computeOf_body ha hb, hbody, hstop, Res.finish_outOfRange]
  rfl

end

/-- Settles O38: the result is in `PE`, and the result write is of `PE`. -/
theorem computeOutputStationary : Obligations.ComputeOutputStationary := by
  intro p a b s hs hos ha hb htile hina hinb hdest
  have h := State.consistent_iff.mp hs
  obtain ⟨pe, hbody, hcell⟩ := computeBody_os hos h.dim_pos htile hina hinb
  exact ⟨_, exec_computeOf_withResult h ha hb hdest hbody hcell, rfl, hcell,
    withResult_written (s := s.withPe pe) h.out⟩

/-- Settles O39: the weights are in `PE`, and the result write is of a matrix of its own. -/
theorem computeWeightStationary : Obligations.ComputeWeightStationary := by
  intro p a d s hs hws ha hd htile hina hind hdest
  have h := State.consistent_iff.mp hs
  obtain ⟨pe, res, hbody, hpe, hcell⟩ := computeBody_ws hws h.dim_pos htile hina hind
  exact ⟨_, exec_computeOf_withResult h ha hd hdest hbody hcell, rfl, hpe,
    withResult_written (s := s.withPe pe) h.out⟩

/-- The banks and `PE` are all that differ after a result write that ends in a fatal error. -/
theorem takeError_frame {s t : State} {pe : Bank} (h : banksOnly (s.withPe pe) t) (f : FatalError) :
    t.takeError (.fatal f) =
      ((((s.withReport (some (.fatal f))).withStatus (.faulted f)).withSp t.sp).withAcc t.acc).withPe t.pe := by
  have hpe : t.pe = pe := (congrArg State.pe h :)
  rw [hpe]
  exact congrArg (fun t => t.takeError (.fatal f)) h

theorem peAt_of_banksOnly {s t : State} {pe : Bank} (h : banksOnly (s.withPe pe) t) (i j : Nat) :
    t.peAt i j = cellAt s.params pe i j := by
  have hpe : t.pe = pe := (congrArg State.pe h :)
  have hparams : t.params = s.params := (congrArg State.params h :)
  rw [State.peAt, hpe, hparams]

/-- Settles O60: the result write stops at the first row that does not exist, in either dataflow. -/
theorem resultWriteOutOfRange : Obligations.ResultWriteOutOfRange := by
  intro p a b s hs ha hb htile hina hinb hdest
  have h := State.consistent_iff.mp hs
  cases hflow : s.cfg.dataflow with
  | os =>
    obtain ⟨pe, hbody, hcell⟩ := computeBody_os hflow h.dim_pos htile hina hinb
    obtain ⟨t, hexec, hbanks, hwritten⟩ := exec_computeOf_resultOut h ha hb hdest hbody hcell
    exact ⟨_, hexec, rfl, rfl, takeError_frame hbanks _,
      fun _ => ⟨fun i hi j hj => (peAt_of_banksOnly hbanks i j).trans (hcell i hi j hj), hwritten⟩, nofun⟩
  | ws =>
    obtain ⟨pe, res, hbody, hstart, hcell⟩ := computeBody_ws hflow h.dim_pos htile hina hinb
    obtain ⟨t, hexec, hbanks, hwritten⟩ := exec_computeOf_resultOut h ha hb hdest hbody hcell
    exact ⟨_, hexec, rfl, rfl, takeError_frame hbanks _, nofun,
      fun _ => ⟨fun i hi j hj => (peAt_of_banksOnly hbanks i j).trans (hstart i hi j hj), hwritten⟩⟩

/-! ## Reads of rows that do not exist (R173 to R175, R178, R307) -/

/-- A compute whose body stops at a scratchpad row that does not exist, with `m` in `PE`. -/
theorem exec_computeOf_readOut {a b : AddrOperand} {p : Bool} {s : State} {m : Bank}
    (ha : a.arrayOperand s.params = true) (hb : b.arrayOperand s.params = true)
    (h : computeBody a b p s = .stop (Stop.outOfRange .scratchpadRow) (s.withPe m)) :
    exec (computeOf p a b) s = .next ((s.withPe m).takeError (.fatal (.outOfRange .scratchpadRow))) := by
  rw [exec_computeOf_body ha hb, h, Res.finish_outOfRange]

/-- `PE` after the writes of the cells before (i₀, j₀): these cells are written, and no others. -/
theorem cellAt_before {p : Params} {before after : List (Nat × Nat)} {i₀ j₀ : Nat}
    (e : pairsOf p.dim p.dim = before ++ (i₀, j₀) :: after) {i j : Nat} (hi : i < p.dim) (hj : j < p.dim)
    (val : Nat × Nat → Int → Int) (m : Bank) :
    (runsBefore i j i₀ j₀ →
      cellAt p (sparseSetAll 0 (matrixKey p) val before m) i j = val (i, j) (cellAt p m i j)) ∧
    (¬ runsBefore i j i₀ j₀ → cellAt p (sparseSetAll 0 (matrixKey p) val before m) i j = cellAt p m i j) := by
  have hmem := pairsOf_before e
  have hcol : ∀ x ∈ before, x.2 < p.dim := fun x hx => ((hmem x).mp hx).2.1
  refine ⟨fun h => ?_, fun h => ?_⟩
  · exact cellAt_matrixAll (List.nodup_append.mp (e ▸ nodup_pairsOf _ _)).1 hcol ((hmem (i, j)).mpr ⟨hi, hj, h⟩) m
  · refine sparseGet_setAll_other (0 : Int) (fun x hx hkey => h ?_) m
    obtain ⟨rfl, rfl⟩ := cellKey_inj (hcol x hx) hj hkey
    exact ((hmem x).mp hx).2.2

/-- An array operand that leaves the scratchpad does so in its column 0, at a row the array reaches. -/
theorem exists_row_out {p : Params} {o : AddrOperand} {pitch : Nat} (ho : o.arrayOperand p = true)
    (h : ¬ operandInRange p o pitch) :
    ∃ r < p.dim, o.isNull = false ∧ r < o.nrows ∧ 0 < o.ncols ∧ p.spRows ≤ o.base + pitch * r := by
  unfold operandInRange at h
  simp only [Classical.not_imp, not_forall, Nat.not_lt] at h
  obtain ⟨hnull, hcols, r, hr, hout⟩ := h
  obtain ⟨_, _, hcases⟩ := AddrOperand.arrayOperand_cases ho
  rcases hcases with hn | ⟨_, _, hrows, _⟩
  · exact absurd (hn.symm.trans hnull) nofun
  · exact ⟨r, hr.trans_le hrows, hnull, hr, Nat.pos_of_ne_zero hcols, hout⟩

section

variable {s : State} {a b : AddrOperand}

theorem exists_entryA_out (hd : 0 < s.params.dim) (ha : a.arrayOperand s.params = true)
    (h : ¬ operandInRange s.params a s.cfg.aStride.toNat) :
    ∃ i < s.params.dim, ∃ k < s.params.dim, ¬ entryAInRange s a i k := by
  obtain ⟨r, hr, hnull, hrow, hcol, hout⟩ := exists_row_out ha h
  cases ht : s.cfg.aTranspose with
  | true =>
    refine ⟨0, hd, r, hr, fun hin => ?_⟩
    simp only [entryAInRange, ht, if_true] at hin
    exact Nat.not_lt.mpr hout (hin hnull hrow hcol)
  | false =>
    refine ⟨r, hr, 0, hd, fun hin => ?_⟩
    simp only [entryAInRange, ht, Bool.false_eq_true, if_false] at hin
    exact Nat.not_lt.mpr hout (hin hnull hrow hcol)

theorem exists_entryB_out (hd : 0 < s.params.dim) (hb : b.arrayOperand s.params = true)
    (h : ¬ operandInRange s.params b 1) : ∃ k < s.params.dim, ∃ j < s.params.dim, ¬ entryBInRange s b k j := by
  obtain ⟨r, hr, hnull, hrow, hcol, hout⟩ := exists_row_out hb h
  rw [Nat.one_mul] at hout
  cases ht : s.cfg.bTranspose with
  | true =>
    refine ⟨0, hd, r, hr, fun hin => ?_⟩
    simp only [entryBInRange, ht, if_true] at hin
    exact Nat.not_lt.mpr hout (hin hnull hrow hcol)
  | false =>
    refine ⟨r, hr, 0, hd, fun hin => ?_⟩
    simp only [entryBInRange, ht, Bool.false_eq_true, if_false] at hin
    exact Nat.not_lt.mpr hout (hin hnull hrow hcol)

/-- The reads of an OS compute with an operand that leaves the scratchpad are not all in range. -/
theorem osCells_out (hd : 0 < s.params.dim) (ha : a.arrayOperand s.params = true) (hb : b.arrayOperand s.params = true)
    (h : ¬ (operandInRange s.params a s.cfg.aStride.toNat ∧ operandInRange s.params b 1)) :
    ¬ ∀ x ∈ pairsOf s.params.dim s.params.dim, osCellInRange s a b x.1 x.2 := by
  intro hall
  refine h ⟨Classical.not_not.mp fun hout => ?_, Classical.not_not.mp fun hout => ?_⟩
  · obtain ⟨i, hi, k, hk, hbad⟩ := exists_entryA_out hd ha hout
    exact hbad (hall (i, 0) (mem_pairsOf.mpr ⟨hi, hd⟩) k hk).1
  · obtain ⟨k, hk, j, hj, hbad⟩ := exists_entryB_out hd hb hout
    exact hbad (hall (0, j) (mem_pairsOf.mpr ⟨hd, hj⟩) k hk).2

/-- A tile to preload that leaves the scratchpad is read where it does. -/
theorem tileEntries_out (h : Consistent s) (hout : ¬ tileInRange s) :
    ¬ ∀ x ∈ pairsOf s.params.dim s.params.dim, tileEntryInRange s x.1 x.2 := by
  unfold tileInRange at hout
  simp only [Classical.not_imp, not_forall, Nat.not_lt] at hout
  obtain ⟨hnull, hcols, r, hr, hrow⟩ := hout
  have hfits := h.pre
  simp only [TileRef.fits, hnull, Bool.false_or, Bool.and_eq_true, decide_eq_true_eq] at hfits
  have hcol := Nat.pos_of_ne_zero hcols
  have hrd : r < s.params.dim := hr.trans_le hfits.1
  intro hall
  cases hswap : s.cfg.dataflow == .ws && s.cfg.bTranspose with
  | true =>
    have hin := hall (0, r) (mem_pairsOf.mpr ⟨h.dim_pos, hrd⟩)
    simp only [tileEntryInRange, hswap, if_true] at hin
    exact Nat.not_lt.mpr hrow (hin hnull hr hcol)
  | false =>
    have hin := hall (r, 0) (mem_pairsOf.mpr ⟨hrd, h.dim_pos⟩)
    simp only [tileEntryInRange, hswap, Bool.false_eq_true, if_false] at hin
    exact Nat.not_lt.mpr hrow (hin hnull hr hcol)

/-- Entry (i, j) of the bias D touches no bank, or a scratchpad row that exists (R66, R174). -/
def entryDInRange (s : State) (b : AddrOperand) (i j : Nat) : Prop :=
  b.isNull = false → i < b.nrows → j < b.ncols → b.base + i < s.params.spRows

theorem dval_in {i j : Nat} (h : entryDInRange s b i j) : dval s b i j = .ok (entryD s b i j) := boundedRead_ok h

theorem dval_out {i j : Nat} (h : ¬ entryDInRange s b i j) :
    dval s b i j = .error (Stop.outOfRange .scratchpadRow) := boundedRead_out h

/-- Every operand read of cell (i, j) of a WS compute is in range (R178). -/
def wsCellInRange (s : State) (a b : AddrOperand) (i j : Nat) : Prop :=
  entryDInRange s b i j ∧ ∀ k < s.params.dim, entryAInRange s a i k

/-- A link of a WS sum: its one operand read is in range, or the link stops. -/
theorem wsLink_okOr (i j k : Nat) (acc : Int) :
    (entryAInRange s a i k ∧ ∃ v, macLink s.params acc (aval s a i k) (.ok (s.peAt k j)) = .ok v) ∨
      (¬ entryAInRange s a i k ∧
        macLink s.params acc (aval s a i k) (.ok (s.peAt k j)) = .error (Stop.outOfRange .scratchpadRow)) := by
  by_cases h : entryAInRange s a i k
  · exact .inl ⟨h, _, by rw [aval_in h]; rfl⟩
  · exact .inr ⟨h, by rw [aval_out h]; rfl⟩

theorem macWsValue_okOr (i j : Nat) :
    (∃ v, macWsValue s a b i j = .ok v) ∨ macWsValue s a b i j = .error (Stop.outOfRange .scratchpadRow) := by
  unfold macWsValue
  by_cases hd : entryDInRange s b i j
  · rw [dval_in hd]
    exact foldRange_okOr (fun k _ acc => (wsLink_okOr i j k acc).imp And.right And.right) _
  · rw [dval_out hd]
    exact .inr rfl

theorem macWsValue_out {i j : Nat} (h : ¬ wsCellInRange s a b i j) :
    macWsValue s a b i j = .error (Stop.outOfRange .scratchpadRow) := by
  unfold macWsValue
  by_cases hd : entryDInRange s b i j
  · obtain ⟨k, hk⟩ := not_forall.mp fun hin => h ⟨hd, hin⟩
    obtain ⟨hk, hout⟩ := Classical.not_imp.mp hk
    rw [dval_in hd]
    exact foldRange_error (fun k _ acc => (wsLink_okOr i j k acc).imp And.right And.right)
      ⟨k, hk, fun acc => ((wsLink_okOr i j k acc).resolve_left fun hin => hout hin.1).2⟩ _
  · rw [dval_out hd]

/-- A WS multiply-accumulate one of whose reads is out of range has no result (R178). -/
theorem macWs_out (h : ∃ i < s.params.dim, ∃ j < s.params.dim, ¬ wsCellInRange s a b i j) :
    macWs a b s = .error (Stop.outOfRange .scratchpadRow) := by
  have hcell : ∀ i j (res : Bank), (∃ res', (match macWsValue s a b i j with
      | .error why => .error why
      | .ok v => .ok (putCell s.params res i j v) : Except Stop Bank) = .ok res') ∨
      (match macWsValue s a b i j with
      | .error why => .error why
      | .ok v => .ok (putCell s.params res i j v) : Except Stop Bank) =
        .error (Stop.outOfRange .scratchpadRow) := fun i j res => by
    rcases macWsValue_okOr (s := s) (a := a) (b := b) i j with ⟨v, hv⟩ | hv <;> simp [hv]
  obtain ⟨i, hi, j, hj, hout⟩ := h
  refine foldRange_error (fun i _ res => foldRange_okOr (fun j _ res => hcell i j res) res)
    ⟨i, hi, fun res => foldRange_error (fun j _ res => hcell i j res) ⟨j, hj, fun res => ?_⟩ res⟩ []
  rw [macWsValue_out hout]

/-- The reads of a WS compute with an operand that leaves the scratchpad are not all in range. -/
theorem wsCells_out (hd : 0 < s.params.dim) (ha : a.arrayOperand s.params = true) (hb : b.arrayOperand s.params = true)
    (h : ¬ (operandInRange s.params a s.cfg.aStride.toNat ∧ operandInRange s.params b 1)) :
    ∃ i < s.params.dim, ∃ j < s.params.dim, ¬ wsCellInRange s a b i j := by
  by_cases hina : operandInRange s.params a s.cfg.aStride.toNat
  · obtain ⟨r, hr, hnull, hrow, hcol, hout⟩ := exists_row_out hb fun hinb => h ⟨hina, hinb⟩
    rw [Nat.one_mul] at hout
    exact ⟨r, hr, 0, hd, fun hin => Nat.not_lt.mpr hout (hin.1 hnull hrow hcol)⟩
  · obtain ⟨i, hi, k, hk, hout⟩ := exists_entryA_out hd ha hina
    exact ⟨i, hi, 0, hd, fun hin => hout (hin.2 k hk)⟩

end

/-- Settles O41: the scratch result matrix is never complete, so the result write is not reached. -/
theorem wsOperandOutOfRange : Obligations.WsOperandOutOfRange := by
  intro p a d s hs hws ha hd htile hout
  have h := State.consistent_iff.mp hs
  obtain ⟨pe, hstart, hcell⟩ := startPe_done htile
  have hmac : macWs a d (s.withPe pe) = .error (Stop.outOfRange .scratchpadRow) :=
    macWs_out (wsCells_out (s := s) h.dim_pos ha hd hout)
  have hflow : (s.withPe pe).cfg.dataflow = .ws := hws
  have hbody : computeBody a d p s = .stop (Stop.outOfRange .scratchpadRow) (s.withPe pe) := by
    rw [computeBody, hstart, Res.andThen_done, macAndWrite, hflow]
    simp only [hmac]
  exact ⟨_, exec_computeOf_readOut ha hd hbody, rfl, rfl, hcell⟩

theorem macAndWrite_os_stop {a b : AddrOperand} {s t : State} {w : Stop} (hos : s.cfg.dataflow = .os)
    (h : macOs a b s = .stop w t) : macAndWrite a b s = .stop w t := by
  rw [macAndWrite, hos]
  simp only [h, Res.andThen_stop]

/-- Settles O58: the multiply-accumulate stops at the first cell that reads a row that does not exist. -/
theorem osOperandOutOfRange : Obligations.OsOperandOutOfRange := by
  intro p a b s hs hos ha hb htile hout
  have h := State.consistent_iff.mp hs
  obtain ⟨pe, hstart, hcell⟩ := startPe_done htile
  obtain ⟨before, ⟨i₀, j₀⟩, after, e, hin, hx⟩ := exists_first (osCells_out h.dim_pos ha hb hout)
  obtain ⟨hi₀, hj₀⟩ := mem_pairsOf.mp (e ▸ List.mem_append_right before List.mem_cons_self)
  have hflow : (s.withPe pe).cfg.dataflow = .os := hos
  have hmac := macOs_stop (s := s.withPe pe) h.dim_pos e hin hx
  have hbody := congrArg (fun r => r.andThen (macAndWrite a b)) hstart
  refine ⟨_, exec_computeOf_readOut ha hb (hbody.trans (macAndWrite_os_stop hflow hmac)), rfl, rfl, i₀, hi₀, j₀, hj₀, hx,
    fun i hi j hj => ?_⟩
  obtain ⟨hbefore, hother⟩ := cellAt_before e hi hj
    (fun x old => wrapTo s.params.accBits (old + osProducts s a b x.1 x.2)) pe
  refine ⟨fun hlt => ⟨hin (i, j) ((pairsOf_before e _).mpr ⟨hi, hj, hlt⟩), (hbefore hlt).trans ?_⟩,
    fun hge => (hother hge).trans (hcell i hi j hj)⟩
  rw [hcell i hi j hj]
  rfl

/-- Settles O59: the preload step stops at the first cell that reads a row that does not exist. -/
theorem preloadTileOutOfRange : Obligations.PreloadTileOutOfRange := by
  intro a b s hs ha hb hout
  have h := State.consistent_iff.mp hs
  obtain ⟨before, ⟨i₀, j₀⟩, after, e, hin, hx⟩ := exists_first (tileEntries_out h hout)
  obtain ⟨hi₀, hj₀⟩ := mem_pairsOf.mp (e ▸ List.mem_append_right before List.mem_cons_self)
  have hbody := congrArg (fun r => r.andThen (macAndWrite a b)) (preloadStep_stop e hin hx)
  refine ⟨_, exec_computeOf_readOut (p := true) ha hb hbody, rfl, rfl, i₀, hi₀, j₀, hj₀, hx, fun i hi j hj => ?_⟩
  obtain ⟨hbefore, hother⟩ := cellAt_before e hi hj (fun x _ => tileEntry s x.1 x.2) s.pe
  exact ⟨fun hlt => ⟨hin (i, j) ((pairsOf_before e _).mpr ⟨hi, hj, hlt⟩), hbefore hlt⟩, hother⟩

end Sys2Proof.Machine

/-!
PROOFS. The sequencer (R256 to R258): `LOOP_WS` as the list of its primitive commands, its empty cases, and a complete run
with the regions it writes.
-/

namespace Sys2Proof.Machine

/-! ## No tile -/

theorem forRange_skip {n : Nat} {body : Nat → State → Res} {s : State} (h : ∀ i < n, body i s = .done s) :
    forRange n body s = .done s := by
  rw [forRange_eq_runAll]
  obtain ⟨t, ht, rfl⟩ := runAll_done (P := (· = s)) (body := body) (xs := List.range n)
    (fun i hi t ht => ⟨s, ht ▸ h i (List.mem_range.mp hi), rfl⟩) rfl
  exact ht

theorem loopPhase1_skip {s : State} (f : LoopFlags)
    (h : s.lw.bounds.tilesI = 0 ∨ s.lw.bounds.tilesJ = 0 ∨ s.lw.d = 0) : loopPhase1 f s = .done s := by
  unfold loopPhase1
  split
  case isFalse => rfl
  case isTrue hd =>
    refine forRange_skip fun i hi => forRange_skip fun j hj => ?_
    rcases h with h | h | h
    · simp [h] at hi
    · simp [h] at hj
    · exact absurd h hd

theorem loopPhase2_skip {s : State} (f : LoopFlags)
    (h : s.lw.bounds.tilesI = 0 ∨ s.lw.bounds.tilesJ = 0 ∨ s.lw.bounds.tilesK = 0) : loopPhase2 f s = .done s := by
  refine forRange_skip fun k hk => forRange_skip fun j hj => forRange_skip fun i hi => ?_
  rcases h with h | h | h
  · simp [h] at hi
  · simp [h] at hj
  · simp [h] at hk

/-- Settles O57: some loop around every primitive call has no iteration. -/
theorem loopWsWithoutTilesDoesNothing : Obligations.LoopWsWithoutTilesDoesNothing := by
  intro f s h hnone
  rw [exec_loopWs, loopWs_accepted h, loopPhase1_skip f (by tauto), Res.andThen_done, loopPhase2_skip f (by tauto),
    Res.finish_done]

/-! ## The report is never read

The report of the command before is part of the state a primitive call inside `LOOP_WS` starts from; sent by the host, the
same command starts from a state with no report. That makes no difference. -/

/-- The same end in the state with another report. -/
def Res.withReport (e : Option Error) : Res → Res
  | .done s => .done (s.withReport e)
  | .stop w s => .stop w (s.withReport e)

/-- A procedure that does not read the report, and keeps it. -/
def reportBlind (e : Option Error) (g : State → Res) : Prop := ∀ s, g (s.withReport e) = (g s).withReport e

theorem reportBlind_andThen {e : Option Error} {g g' : State → Res} (h : reportBlind e g) (h' : reportBlind e g') :
    reportBlind e fun s => (g s).andThen g' := fun s => by
  show (g (s.withReport e)).andThen g' = _
  rw [h s]
  show _ = ((g s).andThen g').withReport e
  cases g s with
  | done t => exact h' t
  | stop w t => rfl

theorem reportBlind_runAll {ι : Type} {e : Option Error} {body : ι → State → Res} (h : ∀ x, reportBlind e (body x))
    (xs : List ι) : reportBlind e (runAll body xs) := by
  induction xs with
  | nil => exact fun _ => rfl
  | cons x xs ih => exact reportBlind_andThen (h x) ih

theorem reportBlind_forRange {e : Option Error} {body : Nat → State → Res} (h : ∀ i, reportBlind e (body i))
    (n : Nat) : reportBlind e (forRange n body) := fun s => by
  rw [forRange_eq_runAll, forRange_eq_runAll]
  exact reportBlind_runAll h _ s

theorem check_withReport {e : Option Error} {bad : Bool} {reason : ConfigReason} {s : State} {rest rest' : Res}
    (h : rest' = rest.withReport e) :
    check bad reason (s.withReport e) rest' = (check bad reason s rest).withReport e := by
  rw [h]
  cases bad <;> rfl

section

variable {e : Option Error}

theorem writeSp_withReport (r c : Nat) (v : Int) (s : State) :
    (s.withReport e).writeSp r c v = (s.writeSp r c v).withReport e := by
  rcases s.writeSp_eq r c v with ⟨h, hs⟩ | ⟨h, hs⟩ <;> rw [hs]
  · exact State.writeSp_done (s := s.withReport e) h c v
  · exact if_pos h

theorem writeAcc_withReport (a : Bool) (r c : Nat) (v : Int) (s : State) :
    (s.withReport e).writeAcc a r c v = (s.writeAcc a r c v).withReport e := by
  rcases s.writeAcc_eq a r c v with ⟨h, hs⟩ | ⟨h, hs⟩ <;> rw [hs]
  · exact State.writeAcc_done (s := s.withReport e) h a c v
  · exact if_pos h

theorem reportBlind_writeByte (a : Nat) (v : Byte) : reportBlind e fun s => s.writeByte a v := fun s => by
  show (s.withReport e).writeByte a v = (s.writeByte a v).withReport e
  rcases s.writeByte_eq a v with ⟨h, hs⟩ | ⟨h, hs⟩ <;> rw [hs]
  · exact if_pos h
  · exact if_neg (by simp [h])

theorem memWrite_withReport (addr : Word) (n v : Nat) (s : State) :
    (s.withReport e).memWrite addr n v = (s.memWrite addr n v).withReport e :=
  reportBlind_forRange (fun _ => reportBlind_writeByte _ _) n s

theorem reportBlind_moveInCell (k : Fin 3) (addr : Word) (d : AddrOperand) (r c : Nat) :
    reportBlind e (moveInCell k addr d r c) := fun s => by
  have hraw : moveInRaw (s.withReport e) ((s.withReport e).cfg.load k) addr d r c =
      moveInRaw s (s.cfg.load k) addr d r c := rfl
  simp only [moveInCell, hraw, State.withReport_params]
  split
  · rfl
  · split
    · rfl
    · split
      · exact writeAcc_withReport _ _ _ _ s
      · exact writeSp_withReport _ _ _ s

theorem reportBlind_moveIn (k : Fin 3) (addr : Word) (d : AddrOperand) : reportBlind e (moveIn k addr d) := fun s =>
  check_withReport (check_withReport (reportBlind_forRange (fun _ => reportBlind_forRange
    (fun _ => reportBlind_moveInCell k addr d _ _) _) _ s))

theorem reportBlind_moveOutCell (addr : Word) (d : AddrOperand) (r c : Nat) :
    reportBlind e (moveOutCell addr d r c) := fun s => by
  have hread : (s.withReport e).readCell d.isAcc (transferRow (s.withReport e).params d r c)
      (transferCol (s.withReport e).params c) =
      s.readCell d.isAcc (transferRow s.params d r c) (transferCol s.params c) := rfl
  simp only [moveOutCell, hread]
  split
  · rfl
  · exact memWrite_withReport _ _ _ s

theorem reportBlind_pooledCell (addr : Word) (d : AddrOperand) (pr pc ch : Nat) :
    reportBlind e (pooledCell addr d pr pc ch) := fun s => by
  have hmax : poolMax (s.withReport e) d pr pc ch = poolMax s d pr pc ch := rfl
  simp only [pooledCell, hmax]
  split
  · rfl
  · exact memWrite_withReport _ _ _ s

theorem reportBlind_moveOut (addr : Word) (d : AddrOperand) : reportBlind e (moveOut addr d) := fun s => by
  refine check_withReport (check_withReport ?_)
  by_cases hpool : s.cfg.pool.stride = 0
  · rw [if_pos hpool, if_pos (show (s.withReport e).cfg.pool.stride = 0 from hpool)]
    exact check_withReport (reportBlind_forRange (fun _ => reportBlind_forRange
      (fun _ => reportBlind_moveOutCell addr d _ _) _) _ s)
  · rw [if_neg hpool, if_neg (show ¬ (s.withReport e).cfg.pool.stride = 0 from hpool)]
    exact check_withReport (check_withReport (reportBlind_forRange (fun _ => reportBlind_forRange
      (fun _ => reportBlind_forRange (fun _ => reportBlind_pooledCell addr d _ _ _) _) _) _ s))

theorem reportBlind_preloadRecord (src dst : AddrOperand) : reportBlind e (preloadRecord src dst) := fun _ =>
  check_withReport (check_withReport (check_withReport rfl))

theorem reportBlind_preloadStep : reportBlind e preloadStep := fun s => by
  rw [preloadStep_loop, preloadStep_loop]
  refine reportBlind_runAll (fun x s => ?_) _ s
  have hvalue : preloadValue (s.withReport e) x.1 x.2 = preloadValue s x.1 x.2 := rfl
  simp only [preloadCell, hvalue]
  split <;> rfl

theorem reportBlind_macOs (a b : AddrOperand) : reportBlind e (macOs a b) := fun s => by
  rw [macOs_loop, macOs_loop]
  refine reportBlind_runAll (fun x s => ?_) _ s
  have hvalue : macOsValue (s.withReport e) a b x.1 x.2 = macOsValue s a b x.1 x.2 := rfl
  simp only [macOsCell, hvalue]
  split <;> rfl

theorem writeResultCell_withReport (v : Int) (i j : Nat) (s : State) :
    writeResultCell v i j (s.withReport e) = (writeResultCell v i j s).withReport e := by
  unfold writeResultCell
  by_cases hacc : s.out.toAcc = true
  · rw [if_pos hacc, if_pos (show (s.withReport e).out.toAcc = true from hacc)]
    exact writeAcc_withReport _ _ _ _ s
  · rw [if_neg hacc, if_neg (show ¬ (s.withReport e).out.toAcc = true from hacc)]
    exact writeSp_withReport _ _ _ s

theorem reportBlind_writeResult (res : Bank) : reportBlind e (writeResult res) := fun s => by
  cases hnull : s.out.isNull with
  | true => rw [writeResult_null hnull, writeResult_null (s := s.withReport e) hnull]; rfl
  | false =>
    rw [writeResult_loop hnull, writeResult_loop (s := s.withReport e) hnull]
    exact reportBlind_runAll (fun x s => writeResultCell_withReport (cellAt s.params res x.1 x.2) x.1 x.2 s) _ s

theorem reportBlind_macAndWrite (a b : AddrOperand) : reportBlind e (macAndWrite a b) := fun s => by
  have hmac : macWs a b (s.withReport e) = macWs a b s := rfl
  simp only [macAndWrite, State.withReport_cfg, hmac]
  split
  · exact reportBlind_andThen (reportBlind_macOs a b) (fun s => reportBlind_writeResult s.pe s) s
  · split
    · rfl
    · exact reportBlind_writeResult _ s

theorem reportBlind_compute (a b : AddrOperand) (p : Bool) : reportBlind e (compute a b p) := fun s => by
  refine check_withReport (check_withReport (check_withReport (check_withReport ?_)))
  cases p with
  | false => exact reportBlind_macAndWrite a b s
  | true => exact reportBlind_andThen reportBlind_preloadStep (reportBlind_macAndWrite a b) s

end

/-! ## A list of commands, run as procedures (R75) -/

/-- A primitive command that `LOOP_WS` calls: of the data mover or of the compute engine. -/
def isPrimitive (x : Instr) : Prop :=
  (∃ k addr d, x = mvinOf k addr d) ∨ (∃ addr d, x = .mvout addr d) ∨ (∃ src dst, x = .preload src dst) ∨
    ∃ p a b, x = computeOf p a b

theorem bodyOf_mvinOf (k : Fin 3) (addr : Word) (d : AddrOperand) : bodyOf (mvinOf k addr d) = moveIn k addr d := by
  fin_cases k <;> rfl

theorem bodyOf_computeOf (p : Bool) (a b : AddrOperand) : bodyOf (computeOf p a b) = compute a b p := by
  cases p <;> rfl

theorem reportBlind_bodyOf {x : Instr} (h : isPrimitive x) (e : Option Error) : reportBlind e (bodyOf x) := by
  rcases h with ⟨k, addr, d, rfl⟩ | ⟨addr, d, rfl⟩ | ⟨src, dst, rfl⟩ | ⟨p, a, b, rfl⟩
  · rw [bodyOf_mvinOf]
    exact reportBlind_moveIn k addr d
  · exact reportBlind_moveOut addr d
  · exact reportBlind_preloadRecord src dst
  · rw [bodyOf_computeOf]
    exact reportBlind_compute a b p

theorem runProgram_next {x : Instr} {rest : List Instr} {s t : State} (h : exec x s = .next t) (hr : t.report ≠ none) :
    runProgram (x :: rest) s = .next t := by
  simp [runProgram, h, hr]

theorem runProgram_fault {x : Instr} {rest : List Instr} {s : State} {f : Fault} (h : exec x s = .fault f) :
    runProgram (x :: rest) s = .fault f := by
  simp [runProgram, h]

/-- Sent one after another, primitive commands do what their procedures do one after another (R74, R75). -/
theorem runProgram_primitives {xs : List Instr} (h : ∀ x ∈ xs, isPrimitive x) (s : State) :
    runProgram xs (s.withReport none) = (runAll bodyOf xs s).finish := by
  induction xs generalizing s with
  | nil => rfl
  | cons x xs ih =>
    have hexec : exec x (s.withReport none) = ((bodyOf x s).withReport none).finish := by
      rw [exec_eq_finish, reportBlind_bodyOf (h x List.mem_cons_self)]
    rw [runAll_cons]
    rcases hx : bodyOf x s with t | ⟨err | addr, t⟩ <;> rw [hx] at hexec
    · rw [runProgram_cons hexec rfl, Res.andThen_done]
      exact ih (fun y hy => h y (List.mem_cons_of_mem _ hy)) t
    · exact runProgram_next hexec nofun
    · exact runProgram_fault hexec

/-! ## The program of `LOOP_WS` (R258)

The sequencer reads sizes and places from the current state; a primitive changes nothing they depend on. -/

theorem bodyOf_primitive_dataOnly {x : Instr} (h : isPrimitive x) (s : State) : dataOnly s (bodyOf x s).state := by
  rcases h with ⟨k, addr, d, rfl⟩ | ⟨addr, d, rfl⟩ | ⟨src, dst, rfl⟩ | ⟨p, a, b, rfl⟩
  · rw [bodyOf_mvinOf]
    exact moveIn_dataOnly k addr d s
  · exact moveOut_dataOnly addr d s
  · exact preloadRecord_dataOnly src dst s
  · rw [bodyOf_computeOf]
    exact compute_dataOnly a b p s

/-- On every state that differs from `s` in data only, the procedure `g` is the list `xs` of primitive commands. -/
structure RunsAs (s : State) (g : State → Res) (xs : List Instr) : Prop where
  primitive : ∀ x ∈ xs, isPrimitive x
  run : ∀ t, dataOnly s t → g t = runAll bodyOf xs t

namespace RunsAs

variable {s : State} {g g' : State → Res} {xs ys : List Instr}

theorem keeps (h : RunsAs s g xs) {t : State} (ht : dataOnly s t) : dataOnly s (g t).state := by
  rw [h.run t ht]
  exact runAll_keeps (P := dataOnly s) (fun x hx u hu => hu.trans (bodyOf_primitive_dataOnly (h.primitive x hx) u)) ht

/-- A procedure that calls one primitive, with operands that depend on what `s` fixes. -/
theorem call {x : Instr} (hx : isPrimitive x) (h : ∀ t, dataOnly s t → g t = bodyOf x t) : RunsAs s g [x] where
  primitive y hy := by rwa [List.mem_singleton.mp hy]
  run t ht := by rw [h t ht, runAll_cons]; exact (Res.andThen_done_right _).symm

theorem andThen (h : RunsAs s g xs) (h' : RunsAs s g' ys) : RunsAs s (fun t => (g t).andThen g') (xs ++ ys) where
  primitive x hx := (List.mem_append.mp hx).elim (h.primitive x) (h'.primitive x)
  run t ht := by
    rw [runAll_append, ← h.run t ht]
    have hkeep := h.keeps ht
    cases hg : g t with
    | done u =>
      rw [hg] at hkeep
      exact h'.run u hkeep
    | stop w u => rfl

/-- A conditional call, its condition fixed by `s`. -/
theorem cond {c : Prop} [Decidable c] {x : Instr} (hx : isPrimitive x)
    (h : ∀ t, dataOnly s t → g t = if c then bodyOf x t else .done t) : RunsAs s g (if c then [x] else []) := by
  by_cases hc : c
  · rw [if_pos hc]
    exact call hx fun t ht => (h t ht).trans (if_pos hc)
  · rw [if_neg hc]
    exact ⟨nofun, fun t ht => (h t ht).trans (if_neg hc)⟩

/-- A loop is the concatenation of its iterations. -/
theorem loop {g : Nat → State → Res} {xs : Nat → List Instr} (h : ∀ i, RunsAs s (g i) (xs i)) (n : Nat) :
    RunsAs s (forRange n g) ((List.range n).flatMap xs) where
  primitive x hx := by
    obtain ⟨i, -, hx⟩ := List.mem_flatMap.mp hx
    exact (h i).primitive x hx
  run t ht := by
    rw [forRange_eq_runAll, runAll_flatMap]
    induction List.range n generalizing t with
    | nil => rfl
    | cons i is ih =>
      rw [runAll_cons, runAll_cons, ← (h i).run t ht]
      have hkeep := (h i).keeps ht
      cases hg : g i t with
      | done u =>
        rw [hg] at hkeep
        exact ih u hkeep
      | stop w u => rfl

end RunsAs

theorem isPrimitive_mvinOf (k : Fin 3) (addr : Word) (d : AddrOperand) : isPrimitive (mvinOf k addr d) :=
  .inl ⟨k, addr, d, rfl⟩
theorem isPrimitive_mvout (addr : Word) (d : AddrOperand) : isPrimitive (.mvout addr d) := .inr (.inl ⟨addr, d, rfl⟩)
theorem isPrimitive_preload (src dst : AddrOperand) : isPrimitive (.preload src dst) :=
  .inr (.inr (.inl ⟨src, dst, rfl⟩))
theorem isPrimitive_computeOf (p : Bool) (a b : AddrOperand) : isPrimitive (computeOf p a b) :=
  .inr (.inr (.inr ⟨p, a, b, rfl⟩))

/-- The move-in of A tile (i, k). -/
def moveAInstr (s : State) (i k : Nat) : Instr :=
  .mvin (tileAddress s s.lw.a s.lw.aStride i k s.params.elemBytes) (.spad (aTileRow s i k) (rowsI s i) (dimK s k))

/-- The move-in of B tile (k, j). -/
def moveBInstr (s : State) (k j : Nat) : Instr :=
  .mvin2 (tileAddress s s.lw.b s.lw.bStride k j s.params.elemBytes) (.spad (bTileRow s k j) (dimK s k) (colsJ s j))

/-- The compute of iteration (i, k). -/
def computeInstr (s : State) (i k : Nat) : Instr :=
  computeOf (i == 0) (.spad (aTileRow s i k) (rowsI s i) (dimK s k)) (.nulla s.params.dim s.params.dim)

/-- The move-out of C tile (i, j). -/
def moveCInstr (s : State) (f : LoopFlags) (i j : Nat) : Instr :=
  .mvout (tileAddress s s.lw.c s.lw.cStride i j (sizeofC s f))
    (if f.fullC then .accf (cTileRow s i j) (rowsI s i) (colsJ s j) else .accw (cTileRow s i j) (rowsI s i) (colsJ s j))

section

variable (s : State) (f : LoopFlags)

theorem loopIteration_eq (k j i : Nat) : loopIteration s f k j i =
    ((((if j = 0 then [moveAInstr s i k] else []) ++ if i = 0 then [moveBInstr s k j] else []) ++
      [.preload (loopSource i j k s) (loopDestination f i j k s)]) ++ [computeInstr s i k]) ++
      if s.lw.c ≠ 0 ∧ k + 1 = s.lw.bounds.tilesK.toNat then [moveCInstr s f i j] else [] := by
  simp only [loopIteration, moveAInstr, moveBInstr, computeInstr, moveCInstr, loopSource, loopDestination,
    List.append_assoc, List.cons_append, List.nil_append]

theorem loopBias_runsAs (i j : Nat) : RunsAs s (loopBias f i j)
    [.mvin3 (tileAddress s s.lw.d s.lw.dStride i j (sizeofD s f)) (.accw (cTileRow s i j) (rowsI s i) (colsJ s j))] :=
  .call (isPrimitive_mvinOf 2 _ _) fun t h => by rw [h]; rfl

theorem loopMoveA_runsAs (i j k : Nat) :
    RunsAs s (loopMoveA i j k) (if j = 0 then [moveAInstr s i k] else []) :=
  .cond (isPrimitive_mvinOf 0 _ _) fun t h => by rw [h]; rfl

theorem loopMoveB_runsAs (i j k : Nat) :
    RunsAs s (loopMoveB i j k) (if i = 0 then [moveBInstr s k j] else []) :=
  .cond (isPrimitive_mvinOf 1 _ _) fun t h => by rw [h]; rfl

theorem loopPreload_runsAs (i j k : Nat) :
    RunsAs s (loopPreload f i j k) [.preload (loopSource i j k s) (loopDestination f i j k s)] :=
  .call (isPrimitive_preload _ _) fun t h => by rw [h]; rfl

theorem loopCompute_runsAs (i k : Nat) : RunsAs s (loopCompute i k) [computeInstr s i k] :=
  .call (isPrimitive_computeOf (i == 0) _ _) fun t h => by rw [computeInstr, bodyOf_computeOf, h]; rfl

theorem loopMoveC_runsAs (i j k : Nat) : RunsAs s (loopMoveC f i j k)
    (if s.lw.c ≠ 0 ∧ k + 1 = s.lw.bounds.tilesK.toNat then [moveCInstr s f i j] else []) :=
  .cond (isPrimitive_mvout _ _) fun t h => by rw [h]; rfl

theorem loopBody_runsAs (k j i : Nat) : RunsAs s (loopBody f k j i) (loopIteration s f k j i) := by
  rw [loopIteration_eq]
  exact ((((loopMoveA_runsAs s i j k).andThen (loopMoveB_runsAs s i j k)).andThen (loopPreload_runsAs s f i j k)).andThen
    (loopCompute_runsAs s i k)).andThen (loopMoveC_runsAs s f i j k)

theorem loopPhase1_runsAs : RunsAs s (loopPhase1 f) (loopBiasProgram s f) := by
  have hloop := RunsAs.loop (fun i => RunsAs.loop (fun j => loopBias_runsAs s f i j) s.lw.bounds.tilesJ.toNat)
    s.lw.bounds.tilesI.toNat
  have hphase : ∀ t, dataOnly s t → loopPhase1 f t = if s.lw.d = 0 then .done t else
      forRange s.lw.bounds.tilesI.toNat (fun i => forRange s.lw.bounds.tilesJ.toNat fun j => loopBias f i j) t :=
    fun t h => by
      rw [loopPhase1, h.lw]
      exact ite_not ..
  unfold loopBiasProgram
  by_cases hd : s.lw.d = 0
  · rw [if_pos hd]
    exact ⟨nofun, fun t h => (hphase t h).trans (if_pos hd)⟩
  · rw [if_neg hd]
    simp only [List.map_eq_flatMap]
    exact ⟨hloop.primitive, fun t h => ((hphase t h).trans (if_neg hd)).trans (hloop.run t h)⟩

theorem loopPhase2_runsAs : RunsAs s (loopPhase2 f) ((List.range s.lw.bounds.tilesK.toNat).flatMap fun k =>
    (List.range s.lw.bounds.tilesJ.toNat).flatMap fun j =>
      (List.range s.lw.bounds.tilesI.toNat).flatMap fun i => loopIteration s f k j i) := by
  have hloop := RunsAs.loop (fun k => RunsAs.loop (fun j => RunsAs.loop (fun i => loopBody_runsAs s f k j i)
    s.lw.bounds.tilesI.toNat) s.lw.bounds.tilesJ.toNat) s.lw.bounds.tilesK.toNat
  exact ⟨hloop.primitive, fun t h => .trans (by rw [loopPhase2, h.lw]) (hloop.run t h)⟩

end

/-- An accepted `LOOP_WS` is its program, its commands run as procedures. -/
theorem loopWs_runsAs {s : State} (h : loopAccepted s) (f : LoopFlags) :
    loopWs f s = runAll bodyOf (loopProgram s f) s ∧ ∀ x ∈ loopProgram s f, isPrimitive x := by
  have hphases := (loopPhase1_runsAs s f).andThen (loopPhase2_runsAs s f)
  exact ⟨(loopWs_accepted h f).trans (hphases.run s (dataOnly_refl s)), hphases.primitive⟩

/-- Settles O55: the two phases are the program, and a program of primitives sent by the host is its procedures. -/
theorem loopWsIsItsProgram : Obligations.LoopWsIsItsProgram := by
  intro f s h
  obtain ⟨hrun, hprimitive⟩ := loopWs_runsAs h f
  rw [exec_loopWs, hrun, runProgram_primitives hprimitive]

end Sys2Proof.Machine

/-!
PROOFS. A complete run of `LOOP_WS` (R256, R258): the operands the sequencer builds are tiles of the A, B and C regions, and
each of its primitive calls ends normally and keeps what lies outside these regions.
-/

namespace Sys2Proof

namespace AddrOperand

/-! ## The operands the sequencer builds (R103) -/

/-- A null operand selects the accumulator, accumulates and reads in full (R123). -/
theorem flags_of_isNull {o : AddrOperand} (h : o.isNull = true) :
    o.isAcc = true ∧ o.accumulate = true ∧ o.full = true := by
  rw [isNull, beq_iff_eq] at h
  have hfull : o.addr32.getLsbD 29 = o.full := by
    rw [addr32_eq_extractLsb'_encode, BitVec.getLsbD_extractLsb']
    exact o.encode_flags.2.2
  rw [← o.addr32_isAcc, ← o.addr32_accumulate, ← hfull, h]
  decide

/-- A non-null operand of a bank, with its base row and counts. -/
structure Selects (o : AddrOperand) (isAcc : Bool) (row rows cols : Nat) : Prop where
  notNull : o.isNull = false
  bank : o.isAcc = isAcc
  base : o.base = row
  nrows : o.nrows = rows
  ncols : o.ncols = cols

section

variable {row rows cols : Nat} (hrow : row < 2 ^ 29) (hrows : rows < 2 ^ 16) (hcols : cols < 2 ^ 16)

include hrow hrows hcols

theorem spad_selects : (spad row rows cols).Selects false row rows cols where
  notNull := Bool.eq_false_iff.mpr fun h => nomatch (flags_of_isNull h).1
  bank := rfl
  base := Nat.mod_eq_of_lt hrow
  nrows := Nat.mod_eq_of_lt hrows
  ncols := Nat.mod_eq_of_lt hcols

theorem accw_selects : (accw row rows cols).Selects true row rows cols where
  notNull := Bool.eq_false_iff.mpr fun h => nomatch (flags_of_isNull h).2.1
  bank := rfl
  base := Nat.mod_eq_of_lt hrow
  nrows := Nat.mod_eq_of_lt hrows
  ncols := Nat.mod_eq_of_lt hcols

theorem acca_selects : (acca row rows cols).Selects true row rows cols where
  notNull := Bool.eq_false_iff.mpr fun h => nomatch (flags_of_isNull h).2.2
  bank := rfl
  base := Nat.mod_eq_of_lt hrow
  nrows := Nat.mod_eq_of_lt hrows
  ncols := Nat.mod_eq_of_lt hcols

theorem accf_selects : (accf row rows cols).Selects true row rows cols where
  notNull := Bool.eq_false_iff.mpr fun h => nomatch (flags_of_isNull h).2.1
  bank := rfl
  base := Nat.mod_eq_of_lt hrow
  nrows := Nat.mod_eq_of_lt hrows
  ncols := Nat.mod_eq_of_lt hcols

end

theorem nulla_isNull (rows cols : Nat) : (nulla rows cols).isNull = true := by
  show ((BitVec.ofBool true ++ BitVec.ofBool true ++ BitVec.ofBool true ++ BitVec.allOnes 29 : BitVec (1 + 1 + 1 + 29)) ==
    nullAddr32) = true
  decide

end AddrOperand

end Sys2Proof

namespace Sys2Proof.Machine

/-! ## The regions (R256) -/

/-- The scratchpad rows of the A and B tiles, and the accumulator rows of the C tiles. -/
def loopRegion (s : State) (isAcc : Bool) (row : Nat) : Prop :=
  if isAcc then row < s.lw.bounds.tilesI.toNat * s.lw.bounds.tilesJ.toNat * s.params.dim
  else row < s.lw.bounds.tilesI.toNat * s.lw.bounds.tilesK.toNat * s.params.dim ∨
    (s.params.spRows / 2 - s.lw.bounds.tilesK.toNat * s.lw.bounds.tilesJ.toNat * s.params.dim ≤ row ∧
      row < s.params.spRows / 2)

/-- DRAM byte x is no byte of C. -/
def outsideC (s : State) (f : LoopFlags) (x : Nat) : Prop :=
  s.lw.c ≠ 0 → ∀ i < s.lw.bounds.tilesI.toNat, ∀ j < s.lw.bounds.tilesJ.toNat,
    ∀ r < rowsI s i, ∀ c < colsJ s j, ∀ b < sizeofC s f,
      x ≠ byteAddress (dramAddress ((tileAddress s s.lw.c s.lw.cStride i j (sizeofC s f)).toNat +
        r * s.cfg.storeStride.toNat + c * sizeofC s f)) b

/-- Row r of tile (i, j) of n by m tiles of d rows. -/
theorem tileRow_lt {n m d i j r : Nat} (hi : i < n) (hj : j < m) (hr : r < d) : (i * m + j) * d + r < n * m * d := by
  have htile : i * m + j + 1 ≤ n * m := by nlinarith
  nlinarith

theorem rowsI_le (s : State) (i : Nat) : rowsI s i ≤ s.params.dim := Nat.sub_le _ _
theorem colsJ_le (s : State) (j : Nat) : colsJ s j ≤ s.params.dim := Nat.sub_le _ _
theorem dimK_le (s : State) (k : Nat) : dimK s k ≤ s.params.dim := Nat.sub_le _ _

section

variable {s : State}

/-- The limits that the fields of an operand leave room for (R12). -/
theorem Params.legal_limits {p : Params} (h : p.legal = true) :
    p.dim < 2 ^ 16 ∧ p.spRows ≤ 2 ^ 29 ∧ p.accRows ≤ 2 ^ 29 := by
  simp only [Params.legal, Bool.and_eq_true, decide_eq_true_eq] at h
  unfold Params.spRows
  omega

theorem loopRegion_lt (h : loopAccepted s) {isAcc : Bool} {row : Nat} (hrow : loopRegion s isAcc row) :
    row < extentOf s.params isAcc := by
  obtain ⟨-, -, -, -, -, -, hsp, hacc⟩ := h
  rw [Nat.add_mul] at hsp
  cases isAcc
  case false =>
    show row < s.params.spRows
    simp only [loopRegion, Bool.false_eq_true, if_false] at hrow
    omega
  case true =>
    show row < s.params.accRows
    simp only [loopRegion, if_true] at hrow
    omega

/-- An operand of at most DIM by DIM cells, all its rows in the regions. -/
structure LoopTile (s : State) (o : AddrOperand) : Prop where
  notNull : o.isNull = false
  nrows : o.nrows ≤ s.params.dim
  ncols : o.ncols ≤ s.params.dim
  region : ∀ r < o.nrows, loopRegion s o.isAcc (o.base + r)

theorem LoopTile.of_selects {o : AddrOperand} {isAcc : Bool} {row rows cols : Nat}
    (h : o.Selects isAcc row rows cols) (hrows : rows ≤ s.params.dim) (hcols : cols ≤ s.params.dim)
    (hregion : ∀ r < s.params.dim, loopRegion s isAcc (row + r)) : LoopTile s o where
  notNull := h.notNull
  nrows := h.nrows ▸ hrows
  ncols := h.ncols ▸ hcols
  region r hr := by
    rw [h.bank, h.base]
    exact hregion r ((h.nrows ▸ hr).trans_le hrows)

/-! ### The places of the tiles -/

variable (hs : Consistent s) (ha : loopAccepted s) {i j k : Nat}

theorem aTile_region (hi : i < s.lw.bounds.tilesI.toNat) (hk : k < s.lw.bounds.tilesK.toNat) {r : Nat}
    (hr : r < s.params.dim) : loopRegion s false (aTileRow s i k + r) := by
  simp only [loopRegion, Bool.false_eq_true, if_false]
  exact .inl (tileRow_lt hi hk hr)

theorem cTile_region (hi : i < s.lw.bounds.tilesI.toNat) (hj : j < s.lw.bounds.tilesJ.toNat) {r : Nat}
    (hr : r < s.params.dim) : loopRegion s true (cTileRow s i j + r) := by
  simp only [loopRegion, if_true]
  exact tileRow_lt hi hj hr

include ha in
/-- The B tiles end at the middle of the scratchpad. -/
theorem bTile_region (hk : k < s.lw.bounds.tilesK.toNat) (hj : j < s.lw.bounds.tilesJ.toNat) {r : Nat}
    (hr : r < s.params.dim) : loopRegion s false (bTileRow s k j + r) := by
  obtain ⟨-, -, -, -, -, -, hsp, -⟩ := ha
  rw [Nat.add_mul] at hsp
  have hlt := tileRow_lt hk hj hr
  simp only [loopRegion, Bool.false_eq_true, if_false, bTileRow]
  omega

include hs

theorem count_lt {n : Nat} (h : n ≤ s.params.dim) : n < 2 ^ 16 :=
  h.trans_lt (Params.legal_limits hs.legal).1

include ha

theorem row_lt_of_region {isAcc : Bool} {row : Nat} (h : ∀ r < s.params.dim, loopRegion s isAcc (row + r)) :
    row < 2 ^ 29 := by
  obtain ⟨-, hsp, hacc⟩ := Params.legal_limits hs.legal
  have hrow : row < extentOf s.params isAcc := loopRegion_lt ha (h 0 hs.dim_pos)
  cases isAcc
  · exact hrow.trans_le hsp
  · exact hrow.trans_le hacc

theorem aTile_selects (hi : i < s.lw.bounds.tilesI.toNat) (hk : k < s.lw.bounds.tilesK.toNat) :
    (AddrOperand.spad (aTileRow s i k) (rowsI s i) (dimK s k)).Selects false (aTileRow s i k) (rowsI s i) (dimK s k) :=
  AddrOperand.spad_selects (row_lt_of_region hs ha fun _ => aTile_region hi hk) (count_lt hs (rowsI_le s i))
    (count_lt hs (dimK_le s k))

theorem aTile_loopTile (hi : i < s.lw.bounds.tilesI.toNat) (hk : k < s.lw.bounds.tilesK.toNat) :
    LoopTile s (.spad (aTileRow s i k) (rowsI s i) (dimK s k)) :=
  .of_selects (aTile_selects hs ha hi hk) (rowsI_le s i) (dimK_le s k) fun _ => aTile_region hi hk

theorem bTile_loopTile (hk : k < s.lw.bounds.tilesK.toNat) (hj : j < s.lw.bounds.tilesJ.toNat) :
    LoopTile s (.spad (bTileRow s k j) (dimK s k) (colsJ s j)) :=
  .of_selects (AddrOperand.spad_selects (row_lt_of_region hs ha fun _ => bTile_region ha hk hj)
    (count_lt hs (dimK_le s k)) (count_lt hs (colsJ_le s j))) (dimK_le s k) (colsJ_le s j)
    fun _ => bTile_region ha hk hj

theorem cTile_accw (hi : i < s.lw.bounds.tilesI.toNat) (hj : j < s.lw.bounds.tilesJ.toNat) :
    (AddrOperand.accw (cTileRow s i j) (rowsI s i) (colsJ s j)).Selects true (cTileRow s i j) (rowsI s i) (colsJ s j) :=
  AddrOperand.accw_selects (row_lt_of_region hs ha fun _ => cTile_region hi hj) (count_lt hs (rowsI_le s i))
    (count_lt hs (colsJ_le s j))

theorem cTile_acca (hi : i < s.lw.bounds.tilesI.toNat) (hj : j < s.lw.bounds.tilesJ.toNat) :
    (AddrOperand.acca (cTileRow s i j) (rowsI s i) (colsJ s j)).Selects true (cTileRow s i j) (rowsI s i) (colsJ s j) :=
  AddrOperand.acca_selects (row_lt_of_region hs ha fun _ => cTile_region hi hj) (count_lt hs (rowsI_le s i))
    (count_lt hs (colsJ_le s j))

theorem cTile_accf (hi : i < s.lw.bounds.tilesI.toNat) (hj : j < s.lw.bounds.tilesJ.toNat) :
    (AddrOperand.accf (cTileRow s i j) (rowsI s i) (colsJ s j)).Selects true (cTileRow s i j) (rowsI s i) (colsJ s j) :=
  AddrOperand.accf_selects (row_lt_of_region hs ha fun _ => cTile_region hi hj) (count_lt hs (rowsI_le s i))
    (count_lt hs (colsJ_le s j))

omit hs ha

theorem cTile_loopTile {o : AddrOperand} (hi : i < s.lw.bounds.tilesI.toNat) (hj : j < s.lw.bounds.tilesJ.toNat)
    (h : o.Selects true (cTileRow s i j) (rowsI s i) (colsJ s j)) : LoopTile s o :=
  .of_selects h (rowsI_le s i) (colsJ_le s j) fun _ => cTile_region hi hj

end

/-- A transfer of at most DIM columns uses one bank row for each of its rows. -/
theorem transferRow_of_lt_dim {p : Params} {c : Nat} (hc : c < p.dim) (d : AddrOperand) (r : Nat) :
    transferRow p d r c = d.base + r := by
  rw [transferRow, Nat.div_eq_of_lt hc, Nat.zero_mul, Nat.add_zero]

/-! ## What a run keeps -/

/-- What every primitive call of an accepted `LOOP_WS` keeps: the invariant of the block, and all but the data inside the
regions. -/
structure LoopKept (s : State) (f : LoopFlags) (t : State) : Prop where
  consistent : Consistent t
  data : dataOnly s t
  sp : ∀ row, ∀ col < s.params.dim, ¬ loopRegion s false row → t.spAt row col = s.spAt row col
  acc : ∀ row, ∀ col < s.params.dim, ¬ loopRegion s true row → t.accAt row col = s.accAt row col
  dram : ∀ x, outsideC s f x → t.byteAt x = s.byteAt x

/-- What the run is asked to start from. -/
structure LoopReady (s : State) (f : LoopFlags) : Prop where
  consistent : Consistent s
  accepted : loopAccepted s
  admitted : ∀ addr, dramAdmit s.params addr = true
  rowsA : ∀ i < s.lw.bounds.tilesI.toNat, ∀ k < s.lw.bounds.tilesK.toNat, dimK s k ≠ 0 → ∀ r < rowsI s i,
    aTileRow s i k + s.cfg.aStride.toNat * r < s.params.spRows
  output : s.lw.c ≠ 0 → s.cfg.pool.stride = 0 ∧
    ∀ i < s.lw.bounds.tilesI.toNat, ∀ j < s.lw.bounds.tilesJ.toNat,
      tileAddress s s.lw.c s.lw.cStride i j (sizeofC s f) ≠ 0

namespace LoopKept

variable {s t : State} {f : LoopFlags}

theorem params (h : LoopKept s f t) : t.params = s.params := h.data.params

/-- One more call. -/
theorem step {u : State} (h : LoopKept s f t) (hcons : Consistent u) (hdata : dataOnly t u)
    (hsp : ∀ row, ∀ col < t.params.dim, ¬ loopRegion s false row → u.spAt row col = t.spAt row col)
    (hacc : ∀ row, ∀ col < t.params.dim, ¬ loopRegion s true row → u.accAt row col = t.accAt row col)
    (hdram : ∀ x, outsideC s f x → u.byteAt x = t.byteAt x) : LoopKept s f u where
  consistent := hcons
  data := h.data.trans hdata
  sp row col hcol hout := (hsp row col (h.params ▸ hcol) hout).trans (h.sp row col hcol hout)
  acc row col hcol hout := (hacc row col (h.params ▸ hcol) hout).trans (h.acc row col hcol hout)
  dram x hx := (hdram x hx).trans (h.dram x hx)

/-- A move-in of a tile. -/
theorem moveIn (h : LoopKept s f t) (hr : LoopReady s f) {d : AddrOperand} (hd : LoopTile s d) (k : Fin 3)
    (addr : Word) : ∃ u, moveIn k addr d t = .done u ∧ LoopKept s f u := by
  have hp := h.params
  have hregion : ∀ x ∈ pairsOf d.nrows d.ncols, loopRegion s d.isAcc (transferRow t.params d x.1 x.2) := fun x hx => by
    obtain ⟨hxr, hxc⟩ := mem_pairsOf.mp hx
    rw [hp, transferRow_of_lt_dim (hxc.trans_le hd.ncols)]
    exact hd.region x.1 hxr
  have hdone : Machine.moveIn k addr d t = .done (t.afterMoveIn k addr d (pairsOf d.nrows d.ncols)) := by
    rw [moveIn_loop hd.notNull (hp ▸ hd.nrows)]
    refine runAll_moveInCell (fun x hx => ?_) fun x hx => ?_
    · rw [hp]
      exact loopRegion_lt hr.accepted (hp ▸ hregion x hx)
    · obtain ⟨hxr, hxc⟩ := mem_pairsOf.mp hx
      exact moveInRaw_reachable (fun _ r _ c _ b _ => by rw [hp]; exact hr.admitted _) hxr hxc
  have hother : ∀ {row col : Nat}, ¬ loopRegion s d.isAcc row →
      ∀ x ∈ pairsOf d.nrows d.ncols, ¬ isTarget t.params d x.1 x.2 row col := fun hout x hx ⟨hrow, _⟩ =>
    hout (hrow ▸ hregion x hx)
  have hbanks := State.afterMoveIn_banksOnly (s := t) (k := k) (addr := addr) (d := d) (xs := pairsOf d.nrows d.ncols)
  have hcons := h.consistent.moveIn k addr d
  rw [hdone] at hcons
  refine ⟨_, hdone, h.step hcons hbanks.dataOnly (fun row col hcol hout => ?_) (fun row col hcol hout => ?_) fun x _ => ?_⟩
  · cases hacc : d.isAcc with
    | true => rw [State.spAt, State.afterMoveIn_sp hacc, hbanks.params, State.spAt]
    | false => exact (State.afterMoveIn_other h.consistent.legal hcol (hother (hacc ▸ hout))).1
  · cases hacc : d.isAcc with
    | true => exact (State.afterMoveIn_other h.consistent.legal hcol (hother (hacc ▸ hout))).2
    | false => rw [State.accAt, State.afterMoveIn_acc hacc, hbanks.params, State.accAt]
  · have hdram : (t.afterMoveIn k addr d (pairsOf d.nrows d.ncols)).dram = t.dram := (congrArg State.dram hbanks :)
    rw [State.byteAt, hdram, State.byteAt]

/-- A preload: the record is no data of the banks. -/
theorem preloadRecord (h : LoopKept s f t) {src dst : AddrOperand}
    (hsrc : src.isNull = true ∨ (LoopTile s src ∧ src.isAcc = false)) (hdst : LoopTile s dst) :
    preloadRecord src dst t = .done (t.withPreload (tileRefOf src) (tileRefOf dst)) ∧
      LoopKept s f (t.withPreload (tileRefOf src) (tileRefOf dst)) := by
  have hdone : Machine.preloadRecord src dst t = .done (t.withPreload (tileRefOf src) (tileRefOf dst)) := by
    rw [Machine.preloadRecord, AddrOperand.inAccumulator_eq_false (hsrc.imp_right And.right), check_false, h.params,
      AddrOperand.overCounts_eq_false (hsrc.imp_right fun h => ⟨h.1.nrows, h.1.ncols⟩), check_false,
      AddrOperand.overCounts_eq_false (.inr ⟨hdst.nrows, hdst.ncols⟩), check_false]
  have hcons := h.consistent.preloadRecord src dst
  rw [hdone] at hcons
  exact ⟨hdone, h.step hcons rfl (fun _ _ _ _ => rfl) (fun _ _ _ _ => rfl) fun _ _ => rfl⟩

/-- A compute with the recorded destination in the regions. -/
theorem compute (h : LoopKept s f t) (hr : LoopReady s f) {a b dst : AddrOperand} {p : Bool}
    (ha : a.arrayOperand s.params = true) (hb : b.arrayOperand s.params = true) (htile : p = true → tileInRange t)
    (hina : operandInRange s.params a s.cfg.aStride.toNat) (hinb : operandInRange s.params b 1)
    (hout : t.out = tileRefOf dst) (hdst : LoopTile s dst) :
    ∃ u, compute a b p t = .done u ∧ LoopKept s f u := by
  have hp := h.params
  have hws : t.cfg.dataflow = .ws := h.data.cfg ▸ hr.accepted.1
  obtain ⟨pe, res, hbody, -, hcell⟩ := computeBody_ws hws h.consistent.dim_pos htile
    (by rwa [hp, h.data.cfg]) (by rwa [hp])
  have hdest : destinationInRange t := fun _ _ i hi => by
    rw [hout, tileRefOf_rows] at hi
    rw [hout, tileRefOf_base, tileRefOf_toAcc, hp]
    exact loopRegion_lt hr.accepted (hdst.region i hi)
  have hdone : Machine.compute a b p t = .done ((t.withPe pe).withResult (wsResult t p a b)) := by
    rw [compute_accepted (hp ▸ ha) (hp ▸ hb), hbody,
      writeResult_eq_withResult (s := t.withPe pe) h.consistent.out hdest hcell]
  have hwritten := withResult_written (s := t.withPe pe) (v := wsResult t p a b) h.consistent.out
  have hregion : ∀ {row col}, inDestination (t.withPe pe) row col → loopRegion s dst.isAcc row := by
    rintro row col ⟨-, hbase, hrow, -⟩
    have hbase : dst.base ≤ row := by rwa [State.withPe_out, hout, tileRefOf_base] at hbase
    have hrow : row < dst.base + dst.nrows := by rwa [State.withPe_out, hout, tileRefOf_base, tileRefOf_rows] at hrow
    have hin := hdst.region (row - dst.base) (by omega)
    rwa [Nat.add_sub_cancel' hbase] at hin
  have hcons := h.consistent.compute a b p
  have hdata := compute_dataOnly a b p t
  rw [hdone] at hcons hdata
  refine ⟨_, hdone, h.step hcons hdata (fun row col hcol hrow => ?_) (fun row col hcol hrow => ?_) fun _ _ => rfl⟩
  · obtain ⟨-, -, -, hother, -⟩ := hwritten row col hcol
    refine hother fun ⟨hacc, hin⟩ => hrow ?_
    rw [State.withPe_out, hout, tileRefOf_toAcc] at hacc
    exact hacc ▸ hregion hin
  · obtain ⟨-, -, -, -, hother⟩ := hwritten row col hcol
    refine hother fun ⟨hacc, hin⟩ => hrow ?_
    rw [State.withPe_out, hout, tileRefOf_toAcc] at hacc
    exact hacc ▸ hregion hin

/-- The move-out of C tile (i, j). -/
theorem moveOut (h : LoopKept s f t) (hr : LoopReady s f) (hc : s.lw.c ≠ 0) {i j : Nat}
    (hi : i < s.lw.bounds.tilesI.toNat) (hj : j < s.lw.bounds.tilesJ.toNat) {d : AddrOperand}
    (hd : d.Selects true (cTileRow s i j) (rowsI s i) (colsJ s j)) (hsize : moveOutBytes s.params d = sizeofC s f) :
    ∃ u, moveOut (tileAddress s s.lw.c s.lw.cStride i j (sizeofC s f)) d t = .done u ∧ LoopKept s f u := by
  have hp := h.params
  have hcfg := h.data.cfg
  have htile := cTile_loopTile hi hj hd
  obtain ⟨hpool, haddr⟩ := hr.output hc
  have hdone : Machine.moveOut (tileAddress s s.lw.c s.lw.cStride i j (sizeofC s f)) d t = .done
      (t.afterMoveOut (tileAddress s s.lw.c s.lw.cStride i j (sizeofC s f)) d (pairsOf d.nrows d.ncols)) := by
    rw [moveOut_loop htile.notNull (haddr i hi j hj) (hcfg ▸ hpool) (hp ▸ htile.nrows)]
    refine moveOut_writes (fun x hx => ?_) fun x _ b _ => by rw [hp]; exact hr.admitted _
    obtain ⟨hxr, hxc⟩ := mem_pairsOf.mp hx
    rw [hp, transferRow_of_lt_dim (hxc.trans_le htile.ncols)]
    exact loopRegion_lt hr.accepted (htile.region x.1 hxr)
  have hcons := h.consistent.moveOut (tileAddress s s.lw.c s.lw.cStride i j (sizeofC s f)) d
  rw [hdone] at hcons
  refine ⟨_, hdone, h.step hcons rfl (fun _ _ _ _ => rfl) (fun _ _ _ _ => rfl) fun x hx => ?_⟩
  refine State.afterMoveOut_untouched fun y hy b hb => ?_
  obtain ⟨hyr, hyc⟩ := mem_pairsOf.mp hy
  rw [hd.nrows] at hyr
  rw [hd.ncols] at hyc
  rw [hp, hsize] at hb
  rw [moveOutByte, moveOutAddress, hp, hcfg, hsize]
  exact hx hc i hi j hj y.1 hyr y.2 hyc b hb

end LoopKept

/-! ## The program ends normally -/

section

variable {s t : State} {f : LoopFlags} {i j k : Nat}

/-- A call that is made under a condition only. -/
theorem LoopKept.optional {c : Prop} [Decidable c] {x : Instr} (h : LoopKept s f t)
    (hx : c → ∃ u, bodyOf x t = .done u ∧ LoopKept s f u) :
    ∃ u, runAll bodyOf (if c then [x] else []) t = .done u ∧ LoopKept s f u := by
  by_cases hc : c
  · obtain ⟨u, hu, hkept⟩ := hx hc
    exact ⟨u, by rw [if_pos hc, runAll_cons, hu]; rfl, hkept⟩
  · exact ⟨t, by rw [if_neg hc]; rfl, h⟩

theorem LoopTile.arrayOperand {o : AddrOperand} (h : LoopTile s o) (hsp : o.isAcc = false) :
    o.arrayOperand s.params = true := by
  rw [AddrOperand.arrayOperand, AddrOperand.inAccumulator_eq_false (.inr hsp),
    AddrOperand.overCounts_eq_false (.inr ⟨h.nrows, h.ncols⟩)]
  rfl

theorem arrayOperand_of_isNull {o : AddrOperand} (h : o.isNull = true) (p : Params) : o.arrayOperand p = true := by
  rw [AddrOperand.arrayOperand, AddrOperand.inAccumulator_eq_false (.inl h), AddrOperand.overCounts_eq_false (.inl h)]
  rfl

variable (hr : LoopReady s f)

include hr

/-- The tile to preload: the B tile when i = 0, else null. -/
theorem loopSource_cases (hj : j < s.lw.bounds.tilesJ.toNat) (hk : k < s.lw.bounds.tilesK.toNat) :
    (i ≠ 0 ∧ (loopSource i j k s).isNull = true) ∨
      (LoopTile s (loopSource i j k s) ∧ (loopSource i j k s).isAcc = false) := by
  unfold loopSource
  split
  · exact .inr ⟨bTile_loopTile hr.consistent hr.accepted hk hj, rfl⟩
  · exact .inl ⟨‹_›, AddrOperand.nulla_isNull _ _⟩

theorem loopDestination_loopTile (hi : i < s.lw.bounds.tilesI.toNat) (hj : j < s.lw.bounds.tilesJ.toNat) (k : Nat) :
    LoopTile s (loopDestination f i j k s) := by
  unfold loopDestination
  split
  · exact cTile_loopTile hi hj (cTile_accw hr.consistent hr.accepted hi hj)
  · exact cTile_loopTile hi hj (cTile_acca hr.consistent hr.accepted hi hj)

/-- The compute of iteration (k, j, i), right after its preload. -/
theorem computeInstr_kept (h : LoopKept s f t) (hk : k < s.lw.bounds.tilesK.toNat) (hj : j < s.lw.bounds.tilesJ.toNat)
    (hi : i < s.lw.bounds.tilesI.toNat) (hpre : t.pre = tileRefOf (loopSource i j k s))
    (hout : t.out = tileRefOf (loopDestination f i j k s)) :
    ∃ u, bodyOf (computeInstr s i k) t = .done u ∧ LoopKept s f u := by
  have ha := aTile_selects hr.consistent hr.accepted hi hk
  have hnull := AddrOperand.nulla_isNull s.params.dim s.params.dim
  rw [computeInstr, bodyOf_computeOf]
  refine h.compute hr ((aTile_loopTile hr.consistent hr.accepted hi hk).arrayOperand ha.bank)
    (arrayOperand_of_isNull hnull s.params) (fun hfirst hn _ r hrow => ?_) (fun _ hcols r hrow => ?_)
    (fun hn => absurd (hnull.symm.trans hn) nofun) hout (loopDestination_loopTile hr hi hj k)
  · rw [hpre] at hn hrow ⊢
    rcases loopSource_cases (i := i) hr hj hk with ⟨hi0, _⟩ | ⟨htile, hsp⟩
    · exact absurd (beq_iff_eq.mp hfirst) hi0
    · have hin := loopRegion_lt hr.accepted (htile.region r hrow)
      rw [hsp] at hin
      rw [tileRefOf_base, h.params]
      exact hin
  · rw [ha.ncols] at hcols
    rw [ha.nrows] at hrow
    rw [ha.base]
    exact hr.rowsA i hi k hk hcols r hrow

theorem moveCInstr_kept (h : LoopKept s f t) (hc : s.lw.c ≠ 0) (hi : i < s.lw.bounds.tilesI.toNat)
    (hj : j < s.lw.bounds.tilesJ.toNat) : ∃ u, bodyOf (moveCInstr s f i j) t = .done u ∧ LoopKept s f u := by
  refine h.moveOut hr hc hi hj ?_ ?_
  · split
    · exact cTile_accf hr.consistent hr.accepted hi hj
    · exact cTile_accw hr.consistent hr.accepted hi hj
  · unfold sizeofC
    split <;> rfl

/-- Iteration (k, j, i) of phase 2. -/
theorem loopIteration_kept (hk : k < s.lw.bounds.tilesK.toNat) (hj : j < s.lw.bounds.tilesJ.toNat)
    (hi : i < s.lw.bounds.tilesI.toNat) (h : LoopKept s f t) :
    ∃ u, runAll bodyOf (loopIteration s f k j i) t = .done u ∧ LoopKept s f u := by
  obtain ⟨t₁, hmoveA, h₁⟩ := h.optional (c := j = 0) (x := moveAInstr s i k) fun _ =>
    h.moveIn hr (aTile_loopTile hr.consistent hr.accepted hi hk) 0 _
  obtain ⟨t₂, hmoveB, h₂⟩ := h₁.optional (c := i = 0) (x := moveBInstr s k j) fun _ =>
    h₁.moveIn hr (bTile_loopTile hr.consistent hr.accepted hk hj) 1 _
  obtain ⟨hpreload, h₃⟩ := h₂.preloadRecord ((loopSource_cases (i := i) hr hj hk).imp_left And.right)
    (loopDestination_loopTile hr hi hj k)
  obtain ⟨t₄, hcompute, h₄⟩ := computeInstr_kept hr h₃ hk hj hi rfl rfl
  obtain ⟨t₅, hmoveC, h₅⟩ := h₄.optional (c := s.lw.c ≠ 0 ∧ k + 1 = s.lw.bounds.tilesK.toNat) (x := moveCInstr s f i j)
    fun hc => moveCInstr_kept hr h₄ hc.1 hi hj
  refine ⟨t₅, ?_, h₅⟩
  have hpreload' : bodyOf (.preload (loopSource i j k s) (loopDestination f i j k s)) t₂ = _ := hpreload
  rw [loopIteration_eq, runAll_append, runAll_append, runAll_append, runAll_append, hmoveA, Res.andThen_done, hmoveB,
    Res.andThen_done, runAll_cons, hpreload', Res.andThen_done, runAll_nil, Res.andThen_done, runAll_cons, hcompute,
    Res.andThen_done, runAll_nil, Res.andThen_done, hmoveC]

theorem loopBiasProgram_kept (h : LoopKept s f t) :
    ∃ u, runAll bodyOf (loopBiasProgram s f) t = .done u ∧ LoopKept s f u := by
  unfold loopBiasProgram
  split
  · exact ⟨t, rfl, h⟩
  · rw [runAll_flatMap]
    refine runAll_done (P := LoopKept s f) (fun i hi t h => ?_) h
    rw [runAll_map]
    refine runAll_done (P := LoopKept s f) (fun j hj t h => ?_) h
    have hi := List.mem_range.mp hi
    have hj := List.mem_range.mp hj
    exact h.moveIn hr (cTile_loopTile hi hj (cTile_accw hr.consistent hr.accepted hi hj)) 2 _

theorem loopProgram_kept : ∃ t, runAll bodyOf (loopProgram s f) s = .done t ∧ LoopKept s f t := by
  obtain ⟨t, ht, h⟩ := loopBiasProgram_kept hr
    ⟨hr.consistent, dataOnly_refl s, fun _ _ _ _ => rfl, fun _ _ _ _ => rfl, fun _ _ => rfl⟩
  rw [loopProgram, runAll_append, ht, Res.andThen_done, runAll_flatMap]
  refine runAll_done (P := LoopKept s f) (fun k hk t h => ?_) h
  rw [runAll_flatMap]
  refine runAll_done (P := LoopKept s f) (fun j hj t h => ?_) h
  rw [runAll_flatMap]
  exact runAll_done (P := LoopKept s f) (fun i hi t h => loopIteration_kept hr (List.mem_range.mp hk)
    (List.mem_range.mp hj) (List.mem_range.mp hi) h) h

end

/-- Settles O56: every command of the program ends normally and keeps what lies outside the regions. -/
theorem loopWsCompletes : Obligations.LoopWsCompletes := by
  intro f s hs ha hadmit hrowsA houtput
  obtain ⟨hrun, hprimitive⟩ := loopWs_runsAs ha f
  obtain ⟨t, ht, h⟩ := loopProgram_kept ⟨State.consistent_iff.mp hs, ha, hadmit, hrowsA, houtput⟩
  have hfinish : (runAll bodyOf (loopProgram s f) s).finish = .next (t.withReport none) := by rw [ht, Res.finish_done]
  refine ⟨t.withReport none, ?_, ?_, rfl, congrArg (fun u : State => u.withReport none) h.data,
    fun row col hcol hA hB => ?_, fun row col hcol hC => ?_, h.dram⟩
  · rw [exec_loopWs, hrun, hfinish]
  · rw [runProgram_primitives hprimitive, hfinish]
  · refine h.sp row col hcol ?_
    simp only [loopRegion, Bool.false_eq_true, if_false]
    omega
  · refine h.acc row col hcol ?_
    simp only [loopRegion, if_true]
    omega

end Sys2Proof.Machine
